-- ==== Sys2Proof/Word.lean ====
section
/-! DEFINITION. The word and byte types of the block.
Every host-visible register, address and length is 32 bits and unsigned (00_scope.md rules R8, R14); every
datum of the codec is one byte (R8). Indices, lengths and addresses are computed exactly on `Nat` (R11). -/

namespace Sys2Proof

/-- A register value, an address or a length: `REG_W = ADDR_W = LEN_W = 32` (rule R8). -/
abbrev Word := BitVec 32

/-- One byte of memory (rule R8). -/
abbrev Byte := BitVec 8

/-- The number of addresses of the memory space, `2^ADDR_W` (rule R60). -/
def addrSpace : Nat := 2 ^ 32

/-- The frame delimiter `DELIM` (rule R8). -/
def delim : Byte := 0x00

/-- `FULL_CODE`, the code byte of a full group (rule R8). -/
def fullCode : Byte := 0xFF

end Sys2Proof
end

