-- ==== Sys2Proof/Config.lean ====
section
/-! DEFINITION. What the spec leaves to the platform (00_scope.md rule R9), and the free values.
R9 says that the model takes each parameter as an argument, and `step` takes one argument, the state: so a
`Platform` is plain data that State carries and that no step changes. `CODEC_BASE` belongs to each block
and `N_INST` is the number of blocks: both stand in State itself. -/

namespace Sys2Proof

/-- A range of addresses `[base, base + size)`, on exact naturals (rules R11, R64). -/
structure Region where
  base : Nat
  size : Nat
deriving DecidableEq, Repr

/-- The open parameters of rule R9 that the whole platform shares. -/
structure Platform where
  /-- `SENTINEL`, the in-place encoder's placeholder byte. -/
  sentinel : Byte
  /-- The regions where `DMA_OK` is false (log 13): the engine may reach every other address. -/
  dmaHoles : List Region
  /-- `HOST_COHERENT`: host and engine see one memory without cache maintenance. -/
  hostCoherent : Bool
deriving DecidableEq, Repr

/-- The parameters State.reset stands on: those of 95_test_vectors.md ("SENTINEL = 0x5A", "DMA_OK holds
everywhere", "HOST_COHERENT = true"). DESIGN CHOICE, log 1: the spec leaves them open. -/
def Config.platform : Platform := { sentinel := 0x5A, dmaHoles := [], hostCoherent := true }

/-- `CODEC_BASE` of State.reset's one block. DESIGN CHOICE, log 2. -/
def Config.codecBase : Word := 0x40000000

/-- A free value: the byte a host read of a busy output extent returns (70_reset_and_hazards.md rule R255 (b),
"a draw under no law"), for each draw a fresh one. It has no body: nothing constrains it (log 9). -/
opaque Config.freeByte : Nat → Byte

end Sys2Proof
end

