-- ==== Sys2Proof/Syntax.lean ====
section
/-! DEFINITION. The commands: one constructor per row of spec/opcode_table.json (30_encoding.md rules R83, R84).
A command has no operand fields: its operands are the argument registers (R80, R85). -/

namespace Sys2Proof

/-- The ten legal commands. A `…Nohp` form is the same operation with a null handle, `HP = 0` (rule R84). -/
inductive Instr where
  /-- `ENC`, encode without a trailing delimiter (R110). -/
  | enc
  /-- `ENC.NOHP`. -/
  | encNohp
  /-- `ENCD`, encode and append the delimiter (R111). -/
  | encd
  /-- `ENCD.NOHP`. -/
  | encdNohp
  /-- `DECS`, decode, strict policy (R145). -/
  | decs
  /-- `DECS.NOHP`. -/
  | decsNohp
  /-- `DECL`, decode, lenient policy (R146). -/
  | decl
  /-- `DECL.NOHP`. -/
  | declNohp
  /-- `ENCIP`, encode in place (R170). -/
  | encip
  /-- `ENCIP.NOHP`. -/
  | encipNohp
deriving DecidableEq, Repr

end Sys2Proof
end

