-- ==== Sys2Proof/WellFormed.lean ====
section
/-! DEFINITION. What makes a command word legal, field by field (30_encoding.md rules R81, R83, R86), and what
makes a platform one the spec allows (00_scope.md rule R9). -/

namespace Sys2Proof

/-- The fields of a command word, format `CMDW` (rule R81). -/
structure Cmdw where
  /-- Bits 31:9, reserved. -/
  high : BitVec 23
  /-- Bit 8, handle present. -/
  hp : BitVec 1
  /-- Bits 7:3, reserved. -/
  mid : BitVec 5
  /-- Bits 2:0, the operation. -/
  op : BitVec 3
deriving DecidableEq, Repr

/-- The fields of a word (rule R81). -/
def Cmdw.ofWord (w : Word) : Cmdw :=
  { high := w.extractLsb' 9 23, hp := w.extractLsb' 8 1, mid := w.extractLsb' 3 5, op := w.extractLsb' 0 3 }

/-- The word of the fields (rule R81). -/
def Cmdw.toWord (f : Cmdw) : Word := f.high ++ f.hp ++ f.mid ++ f.op

/-- Bits 31:9 are zero (rule R86). -/
def Cmdw.highClear (f : Cmdw) : Bool := f.high == 0

/-- Bits 7:3 are zero (rule R86). -/
def Cmdw.midClear (f : Cmdw) : Bool := f.mid == 0

/-- `OP` is an operation, 1 to 5 (rules R83, R86). -/
def Cmdw.opKnown (f : Cmdw) : Bool := 1 ≤ f.op.toNat && f.op.toNat ≤ 5

/-- The word is one of the ten legal ones (rules R84, R86). -/
def Cmdw.wellFormed (f : Cmdw) : Bool := f.highClear && f.midClear && f.opKnown

/-- The fields of a command's word (rules R83, R84). -/
def Instr.fields : Instr → Cmdw
  | .enc => { high := 0, hp := 1, mid := 0, op := 0b001 }
  | .encNohp => { high := 0, hp := 0, mid := 0, op := 0b001 }
  | .encd => { high := 0, hp := 1, mid := 0, op := 0b010 }
  | .encdNohp => { high := 0, hp := 0, mid := 0, op := 0b010 }
  | .decs => { high := 0, hp := 1, mid := 0, op := 0b011 }
  | .decsNohp => { high := 0, hp := 0, mid := 0, op := 0b011 }
  | .decl => { high := 0, hp := 1, mid := 0, op := 0b100 }
  | .declNohp => { high := 0, hp := 0, mid := 0, op := 0b100 }
  | .encip => { high := 0, hp := 1, mid := 0, op := 0b101 }
  | .encipNohp => { high := 0, hp := 0, mid := 0, op := 0b101 }

/-- A command is well formed when its word is legal. -/
def Instr.wellFormed (i : Instr) : Bool := i.fields.wellFormed

/-- `SENTINEL != 0x00` (rule R9). -/
def Platform.wellFormed (p : Platform) : Bool := p.sentinel != 0x00

/-- `CODEC_BASE` is a multiple of 0x40 (rule R9). -/
def baseAligned (base : Word) : Bool := base.toNat % 0x40 == 0

end Sys2Proof
end

