-- ==== Sys2Proof/Decode.lean ====
section
/-! DEFINITION. The command decoder, total on 32-bit words, and the encoder
(30_encoding.md rules R81 to R87). -/

namespace Sys2Proof

/-- The command with operation `op` and handle bit `hp`, if `op` is one (rules R83, R84). -/
def instrOf (op : Nat) (hp : Bool) : Option Instr :=
  match op, hp with
  | 1, true => some .enc
  | 1, false => some .encNohp
  | 2, true => some .encd
  | 2, false => some .encdNohp
  | 3, true => some .decs
  | 3, false => some .decsNohp
  | 4, true => some .decl
  | 4, false => some .declNohp
  | 5, true => some .encip
  | 5, false => some .encipNohp
  | _, _ => none

/-- Decoding a command word; `none` is an illegal word, by the selector of rule R84: "the word is legal if
and only if (word & 0xFFFFFEF8) == 0 and word[2:0] is in 1..5". Nothing but the word matters (R87). -/
def decode (w : Word) : Option Instr :=
  if w &&& 0xFFFFFEF8 = 0 then instrOf (w &&& 7).toNat (w.getLsbD 8) else none

/-- The word of a command, from its fields (rule R81). -/
def encode (i : Instr) : Word := i.fields.toWord

/-- The decoder on a word of the opcode table, numbered as the table numbers its bits. Every command is
one 32-bit word (rule R87), so the bits above `nbits` are zero up to bit 31; a longer word is none. -/
def decodeTableWord (nbits w : Nat) : Option Instr :=
  if nbits ≤ 32 then decode (BitVec.ofNat 32 (w % 2 ^ nbits)) else none

end Sys2Proof
end

