-- ==== Sys2Proof/Machine/State.lean ====
section
/-! DEFINITION. The state of the machine: the blocks of the platform, memory, the open parameters, and the
schedule of what happens next (10_state.md; 20_memory.md; 00_scope.md rules R9, R15). -/

namespace Sys2Proof.Machine

/-- The phases of the engine, `E.PH` (10_state.md rule R46). -/
inductive Phase where
  | idle | check | eRun | eFin | dCode | dCopy | iScan | iFin
deriving DecidableEq, Repr

/-- The result codes, `STATUS.RESULT` (30_encoding.md rule R88). Codes 9 to 15 are never produced. -/
inductive ResultCode where
  | ok | outputBufferNull | badOutputLength | badPayload | zeroByteInInput
  | eofInInput | zeroBeyondBuffer | illegalCommand | busError
deriving DecidableEq, Repr

/-- One codec block: its window's base, its host-visible registers (10_state.md rules R30 to R36) and its
engine's internal registers (rule R45). -/
structure Block where
  /-- `CODEC_BASE`, where the host finds the register window (R30). -/
  codecBase : Word
  /-- `CMD` (R32). -/
  cmd : Word
  /-- `STATUS.BUSY` (R33). -/
  busy : Bool
  /-- `STATUS.DONE` (R33). -/
  done : Bool
  /-- `STATUS.RESULT` (R33, R88). -/
  result : ResultCode
  /-- `CTRL.IE` (R34). -/
  ie : Bool
  /-- `SRC_ADDR` (R35). -/
  srcAddr : Word
  /-- `SRC_LEN` (R35). -/
  srcLen : Word
  /-- `DST_ADDR` (R35). -/
  dstAddr : Word
  /-- `DST_CAP` (R36). -/
  dstCap : Word
  /-- `E.PH` (R45, R46). -/
  ph : Phase
  /-- `E.RD`, the read cursor, or `cur`. -/
  rd : Nat
  /-- `E.WR`, the write cursor. -/
  wr : Nat
  /-- `E.CP`, the code slot, or `patch`. -/
  cp : Nat
  /-- `E.CODE`, the pending code, or the current group's code byte. -/
  code : Byte
  /-- `E.CNT`, data bytes of the group still to copy. -/
  cnt : Byte
  /-- `E.ZP`, whether the group last completed emitted a reconstructed zero. -/
  zp : Bool
  /-- The model's own (log 10): addresses the host had written without cache maintenance when the
  command was accepted. Always empty where `HOST_COHERENT = true`. -/
  unseen : List Nat
deriving DecidableEq, Repr

/-- A block after reset (10_state.md rule R50). The internal registers are unspecified there: the values
named here are the model's, DESIGN CHOICE, log 3. -/
def Block.reset (base : Word) : Block :=
  { codecBase := base, cmd := 0, busy := false, done := false, result := .ok, ie := false
    srcAddr := 0, srcLen := 0, dstAddr := 0, dstCap := 0
    ph := .idle, rd := 0, wr := 0, cp := 0, code := 1, cnt := 0, zp := false, unseen := [] }

/-- What the host can do (70_reset_and_hazards.md rule R252), and its own cache maintenance (20_memory.md
rules R72, R76). Register accesses carry their bus address and their width in bytes. Addresses are exact, with no
wrap-around (00_scope.md rule R11). -/
inductive HostAction where
  /-- A read that touches a register window: (a), or (e) if not a 32-bit aligned word. -/
  | regRead (a : Nat) (width : Nat)
  /-- A write that touches a register window: (b), or (e) if not a 32-bit aligned word. -/
  | regWrite (a : Nat) (width : Nat) (v : Word)
  /-- (c): a read of one byte. -/
  | memRead (a : Nat)
  /-- (d): a write of one byte. -/
  | memWrite (a : Nat) (v : Byte)
  /-- The host's cache maintenance, where `HOST_COHERENT = false` needs it. -/
  | cacheMaintenance
deriving DecidableEq, Repr

/-- One step of one agent (00_scope.md rule R15). -/
inductive Event where
  /-- The engine of block `k` takes one step (70_reset_and_hazards.md rule R251). -/
  | engine (k : Nat)
  /-- The host takes one step (rule R252). -/
  | host (h : HostAction)
  /-- The platform's reset (rule R240). -/
  | reset
  /-- The host polls `STATUS` of block `k` until `BUSY = 0` (30_encoding.md rule R91, `WAIT`; log 16). -/
  | wait (k : Nat)
deriving DecidableEq, Repr

/-- Memory: the bytes that differ from what an unlisted address reads as, addresses strictly rising. -/
abbrev Memory := List Host.Cell

/-- The whole machine. -/
structure State where
  /-- The open parameters of rule R9; no step changes them. -/
  plat : Platform
  /-- The blocks before the one in focus. -/
  left : List Block
  /-- The block in focus: the one whose command `exec` runs. -/
  dev : Block
  /-- The blocks after the one in focus. -/
  right : List Block
  /-- Memory (20_memory.md rule R60). -/
  mem : Memory
  /-- Addresses the host wrote and has not maintained; only with `HOST_COHERENT = false` (log 10). -/
  hostDirty : List Nat
  /-- Addresses an engine wrote that the host has not maintained; only with `HOST_COHERENT = false` (log 10). -/
  engineDirty : List Nat
  /-- What host reads returned, newest first (log 17). -/
  observed : List Word
  /-- How many free values have been drawn (log 9). -/
  draws : Nat
  /-- What happens next, in order (log 5). -/
  schedule : List Event
deriving DecidableEq, Repr

/-- Why the machine stops where no rule gives a step. Each is safe: the model stops where the spec says nothing. -/
inductive Fault where
  /-- An engine access that breaks the precondition `DMA_OK(addr)` (20_memory.md rules R62, R63), raised by
  the engine's byte read and write. CHECK rules it out on every run. Safe. -/
  | dmaViolation
  /-- A command in a phase that its rules never enter (10_state.md rule R46), raised by every meaning and by
  the step of an illegal word. No run reaches it. Safe. -/
  | phaseMismatch
  /-- An event that names a block the platform does not have (60_exceptions.md rule R213). Safe. -/
  | noSuchBlock
  /-- A register access at a bus address that touches no window (10_state.md rule R30). Safe. -/
  | outsideWindow
  /-- A host access to a byte at or past address 2^32, which the memory space does not have (20_memory.md rule R60;
  00_scope.md rule R11), raised by the host's byte read and write. Safe. -/
  | outsideMemory
deriving DecidableEq, Repr

/-- Why the model gives no meaning. All but the first are the reasons of `REFUSE`
(70_reset_and_hazards.md rule R250): safe, since no claim about a refused run can be proved. -/
inductive Refusal where
  /-- An instruction without a meaning yet, by its mnemonic; raised by `exec` alone. Safe. -/
  | notModelled (mnemonic : String)
  /-- A host access to a window that is not one aligned 32-bit word (R31, R252 (e)). Safe. -/
  | narrowOrMisalignedRegisterAccess
  /-- Input and output extents of one command overlap, found at CHECK (R77, R102, R132). Safe. -/
  | overlappingBuffers
  /-- An access that needed cache maintenance the host did not do (R72). Safe. -/
  | incoherentBuffers
  /-- A host write to an extent of a running command (R255 (a)). Safe. -/
  | hostWriteToBusyExtent
  /-- Two busy blocks share an extent that one of them writes (R256). Safe. -/
  | instancesShareExtent
deriving DecidableEq, Repr

/-- The machine of a platform `p` right after power-on and reset, with one block at each of `base :: more`
(10_state.md rule R50; 60_exceptions.md rule R213, "all instances come out of reset together"). -/
def State.resetOn (p : Platform) (base : Word) (more : List Word) : State :=
  { plat := p, left := [], dev := Block.reset base, right := more.map Block.reset
    mem := [], hostDirty := [], engineDirty := [], observed := [], draws := 0, schedule := [] }

/-- The machine right after reset, on the platform that log 1 and log 2 name. -/
def State.reset : State := State.resetOn Config.platform Config.codecBase []

end Sys2Proof.Machine
end

