-- ==== Sys2Proof/Machine/Operands.lean ====
section
/-! DEFINITION. The operands of a command (30_encoding.md rule R85), the capacities it needs (rules R101, R130),
the extents it may touch (20_memory.md rules R64, R65) and the tests on them (rules R65, R77). -/

namespace Sys2Proof.Machine

/-- `L = SRC_LEN` (rule R85). -/
def Block.len (b : Block) : Nat := b.srcLen.toNat
/-- `CAP = DST_CAP` (rule R85). -/
def Block.cap (b : Block) : Nat := b.dstCap.toNat
/-- `src = SRC_ADDR` (rule R85). -/
def Block.src (b : Block) : Nat := b.srcAddr.toNat
/-- `dst = DST_ADDR` (rule R85). -/
def Block.dst (b : Block) : Nat := b.dstAddr.toNat

/-- `ceil(a / b)` for `b > 0` (00_scope.md rule R11). -/
def ceilDiv (a b : Nat) : Nat := (a + b - 1) / b

/-- `NeedEnc(L, K) = L + ceil(L / 254) + K` (40_encode.md rule R101). -/
def needEnc (len k : Nat) : Nat := len + ceilDiv len 254 + k

/-- `NeedDec(L) = L -. 1` (41_decode.md rule R130). -/
def needDec (len : Nat) : Nat := len - 1

/-- `Disjoint(a, n, b, m)` (20_memory.md rule R77). -/
def disjoint (a n b m : Nat) : Bool := n == 0 || m == 0 || decide (a + n ≤ b) || decide (b + m ≤ a)

end Sys2Proof.Machine

namespace Sys2Proof

/-- The address lies in the region. -/
def Region.has (r : Region) (a : Nat) : Bool := decide (r.base ≤ a) && decide (a < r.base + r.size)

/-- Two regions share an address. -/
def Region.meets (r q : Region) : Bool := !Machine.disjoint r.base r.size q.base q.size

end Sys2Proof

namespace Sys2Proof.Machine

/-- `DMA_OK(a)`: an address of the space (rule R60) outside every hole (log 13). -/
def dmaOk (p : Platform) (a : Nat) : Bool := decide (a < addrSpace) && !p.dmaHoles.any (fun h => h.has a)

/-- `ExtentOK(base, n)` (20_memory.md rule R65): empty, or inside the address space and clear of every hole of
`DMA_OK`. Laws/Operands.lean proves it to be the rule's test of every address. -/
def extentOk (p : Platform) (base n : Nat) : Bool :=
  n == 0 || (decide (base + n ≤ addrSpace) && !p.dmaHoles.any (fun h => Region.meets ⟨base, n⟩ h))

/-- The input extent and the output extent of the command (rule R64): for ENCIP the buffer, as input, and no
output extent; none for an illegal word. A null-handle form is the same operation (R84, log 12). -/
def Block.extentsOf (b : Block) : Option Instr → Region × Region
  | none => (⟨0, 0⟩, ⟨0, 0⟩)
  | some .enc | some .encNohp => (⟨b.src, b.len⟩, ⟨b.dst, needEnc b.len 1⟩)
  | some .encd | some .encdNohp => (⟨b.src, b.len⟩, ⟨b.dst, needEnc b.len 2⟩)
  | some .decs | some .decsNohp | some .decl | some .declNohp => (⟨b.src, b.len⟩, ⟨b.dst, needDec b.len⟩)
  | some .encip | some .encipNohp => (⟨b.src, b.len⟩, ⟨0, 0⟩)

/-- The command works in its input buffer (ENCIP). -/
def inPlace : Option Instr → Bool
  | some .encip | some .encipNohp => true
  | none | some .enc | some .encNohp | some .encd | some .encdNohp
  | some .decs | some .decsNohp | some .decl | some .declNohp => false

/-- The input extent of the block's command, or the ENCIP buffer. -/
def Block.inExtent (b : Block) : Region := (b.extentsOf (decode b.cmd)).1

/-- The extent the block's command writes: its output extent, or the ENCIP buffer. -/
def Block.outExtent (b : Block) : Region :=
  if inPlace (decode b.cmd) then b.inExtent else (b.extentsOf (decode b.cmd)).2

/-- The address lies in an extent of the block's command. -/
def Block.touches (b : Block) (a : Nat) : Bool := b.inExtent.has a || b.outExtent.has a

/-- An extent one of the two blocks writes meets an extent of the other (70_reset_and_hazards.md rule R256). -/
def Block.conflicts (b c : Block) : Bool :=
  b.outExtent.meets c.inExtent || b.outExtent.meets c.outExtent || b.inExtent.meets c.outExtent

end Sys2Proof.Machine
end

