-- ==== Sys2Proof/Machine/Flags.lean ====
section
/-! DEFINITION. The status and control words, the interrupt line, and how acceptance and `Finish` set them
(10_state.md rules R33, R34, R39, R48; 30_encoding.md rule R88; 60_exceptions.md rules R205, R206). -/

namespace Sys2Proof.Machine

/-- The number of a result code (30_encoding.md rule R88). -/
def ResultCode.bits : ResultCode → BitVec 4
  | .ok => 0
  | .outputBufferNull => 1
  | .badOutputLength => 2
  | .badPayload => 3
  | .zeroByteInInput => 4
  | .eofInInput => 5
  | .zeroBeyondBuffer => 6
  | .illegalCommand => 7
  | .busError => 8

/-- The result gives a length in `DST_CAP` (30_encoding.md rule R89): success, and the non-fatal `EofInInput`. -/
def ResultCode.givesLength : ResultCode → Bool
  | .ok | .eofInInput => true
  | .outputBufferNull | .badOutputLength | .badPayload | .zeroByteInInput
  | .zeroBeyondBuffer | .illegalCommand | .busError => false

/-- `STATUS` as the host reads it: BUSY in bit 0, DONE in bit 1, RESULT in bits 7:4, the rest zero (rule R33). -/
def Block.status (b : Block) : Word :=
  (0 : BitVec 24) ++ b.result.bits ++ (0 : BitVec 2) ++ BitVec.ofBool b.done ++ BitVec.ofBool b.busy

/-- `CTRL` as the host reads it: IE in bit 0, the rest zero (rule R34). -/
def Block.ctrl (b : Block) : Word := (0 : BitVec 31) ++ BitVec.ofBool b.ie

/-- The interrupt output, a function of two bits (rules R39, R206). -/
def Block.irq (b : Block) : Bool := b.ie && b.done

/-- A host write to `STATUS`: only bit 1 acts, clearing DONE if it is 1 (rule R33). -/
def Block.writeStatus (b : Block) (v : Word) : Block := { b with done := b.done && !v.getLsbD 1 }

/-- A host write to `CTRL`: only bit 0 acts (rule R34). -/
def Block.writeCtrl (b : Block) (v : Word) : Block := { b with ie := v.getLsbD 0 }

/-- Command acceptance (rule R48). `unseen` is what the host wrote and did not maintain before (log 10). -/
def Block.accept (b : Block) (v : Word) (unseen : List Nat) : Block :=
  { b with cmd := v, busy := true, done := false, result := .ok, ph := .check, unseen := unseen }

/-- `Finish(code)` (60_exceptions.md rule R205). -/
def Block.finish (b : Block) (r : ResultCode) : Block :=
  { b with result := r, busy := false, done := true, ph := .idle }

/-- `Finish(code, n)`: `DST_CAP <- n`, then `Finish(code)` (rule R205). -/
def Block.finishLen (b : Block) (r : ResultCode) (n : Nat) : Block :=
  Block.finish { b with dstCap := BitVec.ofNat 32 n } r

end Sys2Proof.Machine
end

