-- ==== Sys2Proof/Machine/Ops.lean ====
section
/-! DEFINITION. The shared operations: memory, the engine's byte read and write (20_memory.md rules R62, R63),
`Finish` on the machine (60_exceptions.md rule R205: what this block has in place of taking an exception, rule
R207; there is no return from one, R208), moving the focus between blocks, and reset. -/

namespace Sys2Proof.Machine

/-- Runs `f` on the answer of a step that went on, and passes a stop through. -/
def andThen {α β : Type} (o : Host.Outcome α Fault Refusal) (f : α → Host.Outcome β Fault Refusal) :
    Host.Outcome β Fault Refusal :=
  match o with
  | .next a => f a
  | .fault r => .fault r
  | .refused r => .refused r

/-- What a byte that nothing has written reads as. DESIGN CHOICE, log 4. -/
def Memory.blank : Byte := 0x00

/-- The byte at an address. -/
def Memory.read : Memory → Nat → Byte
  | [], _ => Memory.blank
  | c :: m, a => if c.1 = a then c.2 else Memory.read m a

/-- Memory with the byte at an address set, in canonical form. -/
def Memory.write : Memory → Nat → Byte → Memory
  | [], a, v => if v = Memory.blank then [] else [(a, v)]
  | c :: m, a, v =>
    if a < c.1 then (if v = Memory.blank then c :: m else (a, v) :: c :: m)
    else if a = c.1 then (if v = Memory.blank then m else (a, v) :: m)
    else c :: Memory.write m a v

/-- The canonical form: addresses strictly rising and in the space, no entry equal to an unlisted byte. -/
abbrev Memory.wf (m : Memory) : Prop :=
  m.Pairwise (fun c d => c.1 < d.1) ∧ ∀ c ∈ m, c.1 < addrSpace ∧ c.2 ≠ Memory.blank

/-- The bytes at `base, base + 1, …`, `n` of them (20_memory.md rule R67). -/
def Memory.bytes (m : Memory) (base : Nat) : Nat → List Byte
  | 0 => []
  | n + 1 => m.read base :: Memory.bytes m (base + 1) n

/-- A set of addresses, rising, with one more. -/
def insertAddr (a : Nat) : List Nat → List Nat
  | [] => [a]
  | b :: l => if a < b then a :: b :: l else if a = b then b :: l else b :: insertAddr a l

/-- The machine with the block in focus replaced. -/
def State.withDev (s : State) (b : Block) : State := { s with dev := b }

/-- The machine after an engine write of one byte (rule R63). Where the host does not see engine writes by
itself, the address is noted (rule R72, log 10). -/
def State.poke (s : State) (a : Nat) (v : Byte) : State :=
  { s with
    mem := s.mem.write a v
    engineDirty := if s.plat.hostCoherent then s.engineDirty else insertAddr a s.engineDirty }

/-- The engine's access to an address needs a host write that was never made visible (rule R72, log 10). -/
def State.incoherentAt (s : State) (a : Nat) : Bool := !s.plat.hostCoherent && s.dev.unseen.contains a

/-- `MemRead(addr, 1)` (rule R62). -/
def memRead (s : State) (a : Nat) : Host.Outcome Byte Fault Refusal :=
  if !dmaOk s.plat a then .fault .dmaViolation
  else if s.incoherentAt a then .refused .incoherentBuffers
  else .next (s.mem.read a)

/-- `MemWrite(addr, 1, v)` (rule R63). -/
def memWrite (s : State) (a : Nat) (v : Byte) : Host.Outcome State Fault Refusal :=
  if !dmaOk s.plat a then .fault .dmaViolation
  else if s.incoherentAt a then .refused .incoherentBuffers
  else .next (s.poke a v)

/-- `Finish(code)` for the block in focus (60_exceptions.md rule R205). -/
def State.finish (s : State) (r : ResultCode) : State := s.withDev (s.dev.finish r)

/-- `Finish(code, n)` for the block in focus (rule R205). -/
def State.finishLen (s : State) (r : ResultCode) (n : Nat) : State := s.withDev (s.dev.finishLen r n)

/-- The blocks of the platform, in order (60_exceptions.md rule R213). -/
def State.blocks (s : State) : List Block := s.left ++ s.dev :: s.right

/-- The other blocks than the one in focus. -/
def State.others (s : State) : List Block := s.left ++ s.right

/-- The machine with block `k` in focus. -/
def State.focus (s : State) (k : Nat) : Option State :=
  match s.blocks.drop k with
  | [] => none
  | b :: r => some { s with left := s.blocks.take k, dev := b, right := r }

/-- An engine step is enabled exactly when the phase is not IDLE (10_state.md rule R47). -/
def Block.enabled (b : Block) : Bool := b.ph != .idle

/-- A running command of some block writes the address: in an output extent or an ENCIP buffer (R255). -/
def State.busyWrites (s : State) (a : Nat) : Bool :=
  s.blocks.any fun b => b.busy && b.outExtent.has a

/-- A running command of some block touches the address. -/
def State.busyTouches (s : State) (a : Nat) : Bool := s.blocks.any fun b => b.busy && b.touches a

/-- The platform's reset: every register and internal register of every block to its reset value, memory
unchanged (70_reset_and_hazards.md rules R240, R241; 60_exceptions.md rule R213; log 18). -/
def State.resetAll (s : State) : State :=
  { s with
    left := s.left.map fun b => Block.reset b.codecBase
    dev := Block.reset s.dev.codecBase
    right := s.right.map fun b => Block.reset b.codecBase }

end Sys2Proof.Machine
end

