-- ==== Sys2Proof/Machine/Decoder.lean ====
section
/-! DEFINITION. DECS and DECL (41_decode.md). One call of a meaning is one engine step (log 6). -/

namespace Sys2Proof.Machine

/-- The CHECK step of DECS and DECL (rule R132). -/
def decCheck (hp : Bool) (s : State) : Host.Outcome State Fault Refusal :=
  let b := s.dev
  let need := needDec b.len
  if !hp then .next (s.finish .outputBufferNull)
  else if b.cap < need then .next (s.finish .badOutputLength)
  else if !extentOk s.plat b.src b.len || !extentOk s.plat b.dst need then .next (s.finish .busError)
  else if !disjoint b.src b.len b.dst need then .refused .overlappingBuffers
  else .next (s.withDev { b with rd := 0, wr := 0, zp := false, ph := .dCode })

/-- The D_CODE step: the next code byte, or the end of input (rules R133, R135). -/
def decCode (strict : Bool) (s : State) : Host.Outcome State Fault Refusal :=
  let b := s.dev
  if b.rd = b.len then .next (s.finishLen .ok b.wr)
  else andThen (memRead s (b.src + b.rd)) fun c =>
    if c = delim then
      if strict then .next (s.finish .zeroByteInInput)
      else .next (s.finishLen .eofInInput (b.wr - b.zp.toNat))
    else if b.rd + c.toNat > b.len ∧ c ≠ 1 then .next (s.finish .zeroBeyondBuffer)
    else .next (s.withDev { b with code := c, cnt := c - 1, rd := b.rd + 1, zp := false, ph := .dCopy })

/-- The D_COPY step: one data byte, or the decision on the reconstructed zero (rules R134, R138). -/
def decCopy (s : State) : Host.Outcome State Fault Refusal :=
  let b := s.dev
  if b.cnt ≠ 0 then
    andThen (memRead s (b.src + b.rd)) fun x =>
      andThen (memWrite s (b.dst + b.wr) x) fun t =>
        .next (t.withDev { b with rd := b.rd + 1, wr := b.wr + 1, cnt := b.cnt - 1 })
  else if b.code ≠ fullCode ∧ b.rd ≠ b.len then
    andThen (memWrite s (b.dst + b.wr) delim) fun t =>
      .next (t.withDev { b with wr := b.wr + 1, zp := true, ph := .dCode })
  else .next (s.withDev { b with ph := .dCode })

/-- One engine step of DECS or DECL (rules R145, R146). An idle block takes no step (10_state.md rule R47). -/
def decStep (strict hp : Bool) (s : State) : Host.Outcome State Fault Refusal :=
  match s.dev.ph with
  | .idle => .next s
  | .check => decCheck hp s
  | .dCode => decCode strict s
  | .dCopy => decCopy s
  | .eRun | .eFin | .iScan | .iFin => .fault .phaseMismatch

/-- `DECS`, the strict policy (rule R145). -/
def execDecs (s : State) : Host.Outcome State Fault Refusal := decStep true true s

/-- `DECS.NOHP`: the same operation with a null handle (30_encoding.md rule R84). -/
def execDecsNohp (s : State) : Host.Outcome State Fault Refusal := decStep true false s

/-- `DECL`, the lenient policy (rule R146). -/
def execDecl (s : State) : Host.Outcome State Fault Refusal := decStep false true s

/-- `DECL.NOHP`: the same operation with a null handle (30_encoding.md rule R84). -/
def execDeclNohp (s : State) : Host.Outcome State Fault Refusal := decStep false false s

end Sys2Proof.Machine
end

