-- ==== Sys2Proof/Machine/Encoder.lean ====
section
/-! DEFINITION. ENC and ENCD (40_encode.md). One call of a meaning is one engine step (log 6). -/

namespace Sys2Proof.Machine

/-- The CHECK step of ENC (`k = 1`) and ENCD (`k = 2`) (rule R102). -/
def encCheck (k : Nat) (hp : Bool) (s : State) : Host.Outcome State Fault Refusal :=
  let b := s.dev
  let need := needEnc b.len k
  if !hp then .next (s.finish .outputBufferNull)
  else if b.cap < need then .next (s.finish .badOutputLength)
  else if !extentOk s.plat b.src b.len || !extentOk s.plat b.dst need then .next (s.finish .busError)
  else if !disjoint b.src b.len b.dst need then .refused .overlappingBuffers
  else .next (s.withDev { b with rd := 0, cp := 0, wr := 1, code := 1, ph := .eRun })

/-- The E_RUN step: one input byte, or the end of input (rule R103). -/
def encRun (s : State) : Host.Outcome State Fault Refusal :=
  let b := s.dev
  if b.rd = b.len then .next (s.withDev { b with ph := .eFin })
  else andThen (memRead s (b.src + b.rd)) fun x =>
    if x = delim then
      andThen (memWrite s (b.dst + b.cp) b.code) fun t =>
        .next (t.withDev { b with rd := b.rd + 1, cp := b.wr, wr := b.wr + 1, code := 1 })
    else
      andThen (memWrite s (b.dst + b.wr) x) fun t =>
        if b.code + 1 = fullCode then
          andThen (memWrite t (b.dst + b.cp) fullCode) fun u =>
            .next (u.withDev { b with rd := b.rd + 1, cp := b.wr + 1, wr := b.wr + 2, code := 1 })
        else .next (t.withDev { b with rd := b.rd + 1, wr := b.wr + 1, code := b.code + 1 })

/-- The E_FIN step: the last code byte, for ENCD the delimiter, then `Finish(OK, E.WR)` (rule R104). -/
def encFin (k : Nat) (s : State) : Host.Outcome State Fault Refusal :=
  let b := s.dev
  andThen (memWrite s (b.dst + b.cp) b.code) fun t =>
    if k = 2 then
      andThen (memWrite t (b.dst + b.wr) delim) fun u =>
        .next ((u.withDev { b with wr := b.wr + 1 }).finishLen .ok (b.wr + 1))
    else .next (t.finishLen .ok b.wr)

/-- One engine step of ENC or ENCD (rules R110, R111). An idle block takes no step (10_state.md rule R47). -/
def encStep (k : Nat) (hp : Bool) (s : State) : Host.Outcome State Fault Refusal :=
  match s.dev.ph with
  | .idle => .next s
  | .check => encCheck k hp s
  | .eRun => encRun s
  | .eFin => encFin k s
  | .dCode | .dCopy | .iScan | .iFin => .fault .phaseMismatch

/-- `ENC` (rule R110). -/
def execEnc (s : State) : Host.Outcome State Fault Refusal := encStep 1 true s

/-- `ENC.NOHP`: the same operation with a null handle (30_encoding.md rule R84). -/
def execEncNohp (s : State) : Host.Outcome State Fault Refusal := encStep 1 false s

/-- `ENCD` (rule R111). -/
def execEncd (s : State) : Host.Outcome State Fault Refusal := encStep 2 true s

/-- `ENCD.NOHP`: the same operation with a null handle (30_encoding.md rule R84). -/
def execEncdNohp (s : State) : Host.Outcome State Fault Refusal := encStep 2 false s

end Sys2Proof.Machine
end

