-- ==== Sys2Proof/Machine/InPlace.lean ====
section
/-! DEFINITION. ENCIP (42_inplace.md). One call of a meaning is one engine step (log 6). -/

namespace Sys2Proof.Machine

/-- `IP_MAX_OFFSET` (00_scope.md rule R8). -/
def ipMaxOffset : Nat := 255

/-- The CHECK step of ENCIP (rule R162). -/
def ipCheck (hp : Bool) (s : State) : Host.Outcome State Fault Refusal :=
  let b := s.dev
  if !hp then .next (s.finish .outputBufferNull)
  else if b.len < 2 then .next (s.finish .badOutputLength)
  else if !extentOk s.plat b.src b.len then .next (s.finish .busError)
  else andThen (memRead s b.src) fun first =>
    andThen (memRead s (b.src + b.len - 1)) fun last =>
      if first ≠ s.plat.sentinel ∨ last ≠ s.plat.sentinel then .next (s.finish .badPayload)
      else .next (s.withDev { b with cp := 0, rd := 1, ph := .iScan })

/-- The I_SCAN step: one position, or the end of the scan (rule R163). -/
def ipScan (s : State) : Host.Outcome State Fault Refusal :=
  let b := s.dev
  if b.rd < b.len - 1 then
    andThen (memRead s (b.src + b.rd)) fun x =>
      if x = delim then
        if b.rd - b.cp > ipMaxOffset then .next (s.finish .badPayload)
        else andThen (memWrite s (b.src + b.cp) (BitVec.ofNat 8 (b.rd - b.cp))) fun t =>
          .next (t.withDev { b with cp := b.rd, rd := b.rd + 1 })
      else .next (s.withDev { b with rd := b.rd + 1 })
  else .next (s.withDev { b with ph := .iFin })

/-- The I_FIN step: the final code byte, the delimiter, `Finish(OK)` (rule R164). -/
def ipFin (s : State) : Host.Outcome State Fault Refusal :=
  let b := s.dev
  if b.rd - b.cp > ipMaxOffset then .next (s.finish .badPayload)
  else andThen (memWrite s (b.src + b.cp) (BitVec.ofNat 8 (b.rd - b.cp))) fun t =>
    andThen (memWrite t (b.src + b.len - 1) delim) fun u => .next (u.finish .ok)

/-- One engine step of ENCIP (rule R170). An idle block takes no step (10_state.md rule R47). -/
def ipStep (hp : Bool) (s : State) : Host.Outcome State Fault Refusal :=
  match s.dev.ph with
  | .idle => .next s
  | .check => ipCheck hp s
  | .iScan => ipScan s
  | .iFin => ipFin s
  | .eRun | .eFin | .dCode | .dCopy => .fault .phaseMismatch

/-- `ENCIP` (rule R170). -/
def execEncip (s : State) : Host.Outcome State Fault Refusal := ipStep true s

/-- `ENCIP.NOHP`: the same operation with a null buffer (30_encoding.md rule R84). -/
def execEncipNohp (s : State) : Host.Outcome State Fault Refusal := ipStep false s

end Sys2Proof.Machine
end

