-- ==== Sys2Proof/Machine/Dispatch.lean ====
section
/-! DEFINITION. The dispatch of a command's engine step to its meaning (30_encoding.md rule R90). -/

namespace Sys2Proof.Machine

def exec (i : Instr) (s : State) : Host.Outcome State Fault Refusal :=
  match i with
  | .enc => Sys2Proof.Machine.execEnc s
  | .encNohp => Sys2Proof.Machine.execEncNohp s
  | .encd => Sys2Proof.Machine.execEncd s
  | .encdNohp => Sys2Proof.Machine.execEncdNohp s
  | .decs => Sys2Proof.Machine.execDecs s
  | .decsNohp => Sys2Proof.Machine.execDecsNohp s
  | .decl => Sys2Proof.Machine.execDecl s
  | .declNohp => Sys2Proof.Machine.execDeclNohp s
  | .encip => Sys2Proof.Machine.execEncip s
  | .encipNohp => Sys2Proof.Machine.execEncipNohp s

end Sys2Proof.Machine
end

