-- ==== Sys2Proof/Machine/HostBus.lean ====
section
/-! DEFINITION. The host's steps (70_reset_and_hazards.md rule R252): register accesses in a window
(10_state.md rules R30 to R38, R48) and byte accesses to memory (rule R255; 20_memory.md rule R72). -/

namespace Sys2Proof.Machine

/-- `REG_WINDOW` (00_scope.md rule R8). -/
def regWindow : Nat := 0x40

/-- The access of `width` bytes at bus address `a` touches the block's window (rule R30). -/
def Block.windowTouched (b : Block) (a : Nat) (width : Nat) : Bool :=
  decide (a < b.codecBase.toNat + regWindow) && decide (b.codecBase.toNat < a + width)

/-- The register at an offset as the host reads it (rules R30, R32 to R37). -/
def Block.readReg (b : Block) (off : Nat) : Word :=
  match off with
  | 0x00 => b.cmd
  | 0x04 => b.status
  | 0x08 => b.ctrl
  | 0x0C => b.srcAddr
  | 0x10 => b.srcLen
  | 0x14 => b.dstAddr
  | 0x18 => b.dstCap
  | _ => 0

/-- A host write to a register other than `CMD` (rules R33 to R38): the argument registers ignore it while
`BUSY = 1`, `STATUS` and `CTRL` do not, and reserved offsets always do. -/
def Block.writeReg (b : Block) (off : Nat) (v : Word) : Block :=
  match off with
  | 0x04 => b.writeStatus v
  | 0x08 => b.writeCtrl v
  | 0x0C => if b.busy then b else { b with srcAddr := v }
  | 0x10 => if b.busy then b else { b with srcLen := v }
  | 0x14 => if b.busy then b else { b with dstAddr := v }
  | 0x18 => if b.busy then b else { b with dstCap := v }
  | _ => b

/-- Acceptance of the word `v` by the block in focus (rule R48). -/
def State.accept (s : State) (v : Word) : State :=
  s.withDev (s.dev.accept v (if s.plat.hostCoherent then [] else s.hostDirty))

/-- A host write to `CMD`: ignored while `BUSY = 1` (rule R38), else acceptance (R48). Two busy blocks that
share an extent one of them writes have no meaning (70_reset_and_hazards.md rule R256, log 11). -/
def writeCmd (s : State) (v : Word) : Host.Outcome State Fault Refusal :=
  if s.dev.busy then .next s
  else if s.others.any (fun c => c.busy && (s.accept v).dev.conflicts c) then .refused .instancesShareExtent
  else .next (s.accept v)

/-- A host write to offset `off` of the block in focus. -/
def writeRegister (s : State) (off : Nat) (v : Word) : Host.Outcome State Fault Refusal :=
  if off = 0x00 then writeCmd s v else .next (s.withDev (s.dev.writeReg off v))

/-- The host has read a value. -/
def State.observe (s : State) (v : Word) : State := { s with observed := v :: s.observed }

/-- A register access at bus address `a`: the block whose window it touches comes into focus, and `f` acts on
the offset. An access that is not one aligned 32-bit word has no meaning (rule R31). -/
def regAccess (s : State) (a : Nat) (width : Nat) (f : State → Nat → Host.Outcome State Fault Refusal) :
    Host.Outcome State Fault Refusal :=
  match s.blocks.findIdx? (fun b => b.windowTouched a width) with
  | none => .fault .outsideWindow
  | some k =>
    match s.focus k with
    | none => .fault .noSuchBlock
    | some t =>
      if width = 4 ∧ a % 4 = 0 then f t (a - t.dev.codecBase.toNat)
      else .refused .narrowOrMisalignedRegisterAccess

/-- The byte access lies in some register window, where only aligned words have a meaning (rule R252 (e)). -/
def State.inWindow (s : State) (a : Nat) : Bool := s.blocks.any fun b => b.windowTouched a 1

/-- A host read of one byte (rules R252 (c), R255 (b), (c)) at an address of the space (R60): any value where a
running command writes, else the byte of memory, which must have been made visible to the host (rule R72). -/
def hostMemRead (s : State) (a : Nat) : Host.Outcome State Fault Refusal :=
  if s.inWindow a then .refused .narrowOrMisalignedRegisterAccess
  else if addrSpace ≤ a then .fault .outsideMemory
  else if s.busyWrites a then
    .next { s.observe ((Config.freeByte s.draws).setWidth 32) with draws := s.draws + 1 }
  else if !s.plat.hostCoherent && s.engineDirty.contains a then .refused .incoherentBuffers
  else .next (s.observe ((s.mem.read a).setWidth 32))

/-- A host write of one byte (rules R252 (d), R255 (a)) at an address of the space (R60). -/
def hostMemWrite (s : State) (a : Nat) (v : Byte) : Host.Outcome State Fault Refusal :=
  if s.inWindow a then .refused .narrowOrMisalignedRegisterAccess
  else if addrSpace ≤ a then .fault .outsideMemory
  else if s.busyTouches a then .refused .hostWriteToBusyExtent
  else .next { s with
    mem := s.mem.write a v
    hostDirty := if s.plat.hostCoherent then s.hostDirty else insertAddr a s.hostDirty }

/-- The host's cache maintenance (rules R72, R76): its writes are made visible to the engine, and the writes
of commands that have finished to the host (log 10). -/
def State.maintain (s : State) : State :=
  { s with hostDirty := [], engineDirty := s.engineDirty.filter fun a => s.busyWrites a }

/-- One step of the host (rule R252). -/
def hostStep (h : HostAction) (s : State) : Host.Outcome State Fault Refusal :=
  match h with
  | .regRead a width => regAccess s a width fun t off => .next (t.observe (t.dev.readReg off))
  | .regWrite a width v => regAccess s a width fun t off => writeRegister t off v
  | .memRead a => hostMemRead s a
  | .memWrite a v => hostMemWrite s a v
  | .cacheMaintenance => .next s.maintain

end Sys2Proof.Machine
end

