-- ==== Sys2Proof/Machine/Schedule.lean ====
section
/-! DEFINITION. Which agent steps, and one step of it (00_scope.md rule R15; 70_reset_and_hazards.md rules R251,
R252, R240, R261). -/

namespace Sys2Proof.Machine

/-- The engine step of an illegal word: CHECK ends it (30_encoding.md rules R86, R90). -/
def illegalStep (s : State) : Host.Outcome State Fault Refusal :=
  match s.dev.ph with
  | .idle => .next s
  | .check => .next (s.finish .illegalCommand)
  | .eRun | .eFin | .dCode | .dCopy | .iScan | .iFin => .fault .phaseMismatch

/-- One engine step of the block in focus (10_state.md rule R47): the step of the command in `CMD`. -/
def engineStep (s : State) : Host.Outcome State Fault Refusal :=
  if s.dev.enabled then
    match decode s.dev.cmd with
    | none => illegalStep s
    | some i => exec i s
  else .next s

/-- One engine step of block `k`. -/
def engineStepOf (k : Nat) (s : State) : Host.Outcome State Fault Refusal :=
  match s.focus k with
  | none => .fault .noSuchBlock
  | some t => engineStep t

/-- With nothing scheduled, a busy engine steps: the one in focus, else the first (rule R261, log 5). If all
are idle, nothing is enabled and nothing changes. -/
def progress (s : State) : Host.Outcome State Fault Refusal :=
  if s.dev.enabled then engineStep s
  else match s.blocks.findIdx? Block.enabled with
    | none => .next s
    | some k => engineStepOf k s

/-- `WAIT` (30_encoding.md rule R91): while the block is busy its engine steps and the host goes on waiting;
then the host reads `STATUS` with `BUSY = 0` (log 16). -/
def waitStep (k : Nat) (rest : List Event) (s : State) : Host.Outcome State Fault Refusal :=
  match s.focus k with
  | none => .fault .noSuchBlock
  | some t =>
    if t.dev.enabled then engineStep t
    else .next { t.observe t.dev.status with schedule := rest }

/-- One step of the machine: the next event of the schedule, or progress. -/
def machineStep (s : State) : Host.Outcome State Fault Refusal :=
  match s.schedule with
  | [] => progress s
  | .engine k :: rest => engineStepOf k { s with schedule := rest }
  | .host h :: rest => hostStep h { s with schedule := rest }
  | .reset :: rest => .next { s.resetAll with schedule := rest }
  | .wait k :: rest => waitStep k rest s

/-- The machine with the word `w` just accepted by the block in focus and its engine to step next: how a
command is "fetched" (rule R48, log 8). -/
def State.issue (s : State) (w : Word) : State := { s.accept w with schedule := [] }

end Sys2Proof.Machine
end

