-- ==== Sys2Proof/Machine/ClosedForm.lean ====
section
/-! DEFINITION. The whole-command functions of the spec, on byte sequences: what the step machine must come to
(40_encode.md rule R107, 41_decode.md rules R131 to R135, 42_inplace.md rules R165, R169). `step` does not use them. -/

namespace Sys2Proof.Machine

/-- The segments of `p` at its zero bytes: `p = s_0 ++ [00] ++ s_1 ++ … ++ [00] ++ s_k` (rules R105, R107). -/
def segments : List Byte → List (List Byte)
  | [] => [[]]
  | x :: p =>
    if x = delim then [] :: segments p
    else match segments p with
      | [] => [[x]]
      | s :: r => (x :: s) :: r

/-- `Seg(s)` of rule R107, with fuel for the number of full groups. -/
def segFuel : Nat → List Byte → List Byte
  | 0, s => BitVec.ofNat 8 (s.length + 1) :: s
  | f + 1, s =>
    if 254 ≤ s.length then fullCode :: s.take 254 ++ segFuel f (s.drop 254)
    else BitVec.ofNat 8 (s.length + 1) :: s

/-- `Seg(s)` of rule R107. -/
def seg (s : List Byte) : List Byte := segFuel s.length s

/-- `Enc(p, K)` of rule R107. -/
def encoded (p : List Byte) (k : Nat) : List Byte :=
  (segments p).flatMap seg ++ (if k = 2 then [delim] else [])

/-- What a decode command comes to: its result code, the bytes written from output index 0, the length it
reports in `DST_CAP` if it reports one, and its number of groups' steps. -/
structure Decoded where
  result : ResultCode
  out : List Byte
  length : Option Nat
  steps : Nat
deriving DecidableEq, Repr

/-- The decoder's walk over the rest of the input, one code group a turn (rules R131 to R135): `out` is what is
written so far, `zp` whether its last byte is the placeholder, `steps` the steps taken (rule R260). -/
def decodeWalk (strict : Bool) : Nat → List Byte → List Byte → Bool → Nat → Decoded
  | _, [], out, _, n => ⟨.ok, out, some out.length, n + 1⟩
  | 0, _ :: _, out, _, n => ⟨.ok, out, none, n⟩
  | f + 1, c :: rest, out, zp, n =>
    if c = delim then
      if strict then ⟨.zeroByteInInput, out, none, n + 1⟩
      else ⟨.eofInInput, out, some (out.length - zp.toNat), n + 1⟩
    else if rest.length < c.toNat - 1 then ⟨.zeroBeyondBuffer, out, none, n + 1⟩
    else
      let data := rest.take (c.toNat - 1)
      let rest' := rest.drop (c.toNat - 1)
      let zero := decide (c ≠ fullCode) && !rest'.isEmpty
      decodeWalk strict f rest' (out ++ data ++ (if zero then [delim] else [])) zero (n + (c.toNat + 1))

/-- What DECS (strict) or DECL makes of the input, CHECK's step counted (rules R131, R260). The fuel is the
input's length, which no walk uses up: each turn takes at least one byte. -/
def decoded (strict : Bool) (input : List Byte) : Decoded := decodeWalk strict input.length input [] false 1

/-- Every segment is representable in place: at most 254 bytes (rule R165). -/
def ipFits (p : List Byte) : Bool := (segments p).all fun s => decide (s.length < 255)

/-- The frame an `OK` ENCIP leaves (rule R165). -/
def ipFrame (p : List Byte) : List Byte :=
  ((segments p).flatMap fun s => BitVec.ofNat 8 (s.length + 1) :: s) ++ [delim]

/-- The ENCIP buffer after the command, segment by segment (rules R165, R169). `slot` is the byte at the code
position before its backfill, `sentinel` the byte at the end. The first segment of 255 bytes or more ends the
command with `BadPayload`: its code position and all that follows keep their bytes. -/
def ipWalk (sentinel slot : Byte) : List (List Byte) → ResultCode × List Byte
  | [] => (.ok, [delim])
  | s :: rest =>
    if 255 ≤ s.length then (.badPayload, slot :: s ++ (rest.flatMap fun t => delim :: t) ++ [sentinel])
    else
      let r := ipWalk sentinel delim rest
      (r.1, BitVec.ofNat 8 (s.length + 1) :: s ++ r.2)

/-- What ENCIP makes of a buffer with payload `p` between correct sentinels. -/
def inPlaced (sentinel : Byte) (p : List Byte) : ResultCode × List Byte := ipWalk sentinel sentinel (segments p)

end Sys2Proof.Machine
end

