-- ==== Sys2Proof/Safety.lean ====
section
/-! DEFINITION. The terms of claims about runs: what the host can see of a block, where an engine step stores, and
the invariants. -/

namespace Sys2Proof.Machine

/-- `n` steps of the machine, stopping at the first fault or refusal. Laws/Run.lean proves it to be the host
interface's run of `Sys2Proof.core`. -/
def runSteps : Nat → State → Host.Outcome State Fault Refusal
  | 0, s => .next s
  | n + 1, s => andThen (step s) (runSteps n)

/-- The block with its unreadable internal registers blanked: what the host can observe of it
(60_exceptions.md rule R214). The phase is kept: it says whether a step is enabled. -/
def Block.hostView (b : Block) : Block :=
  { b with rd := 0, wr := 0, cp := 0, code := 1, cnt := 0, zp := false }

/-- The machine with every block's unreadable internal registers blanked. -/
def State.hostView (s : State) : State :=
  { s with left := s.left.map Block.hostView, dev := s.dev.hostView, right := s.right.map Block.hostView }

/-- What a run shows the host: the stop, or the state it ends in without the unreadable registers. -/
def outcomeView (o : Host.Outcome State Fault Refusal) : Host.Outcome State Fault Refusal :=
  match o with
  | .next t => .next t.hostView
  | .fault r => .fault r
  | .refused r => .refused r

/-- The engine of the block in focus may access the address: `DMA_OK` holds there (rule R62), and no host write
to it was left invisible (rule R72). -/
def State.reaches (s : State) (a : Nat) : Prop := dmaOk s.plat a = true ∧ s.incoherentAt a = false

/-- The addresses the next engine step of command `i` stores to: the same expressions the meanings use
(rules R103, R104, R134, R163, R164). -/
def storesOf (i : Instr) (s : State) : List Nat :=
  let b := s.dev
  let run :=
    if b.rd = b.len then []
    else if s.mem.read (b.src + b.rd) = delim then [b.dst + b.cp]
    else if b.code + 1 = fullCode then [b.dst + b.wr, b.dst + b.cp]
    else [b.dst + b.wr]
  let copy :=
    if b.cnt ≠ 0 then [b.dst + b.wr]
    else if b.code ≠ fullCode ∧ b.rd ≠ b.len then [b.dst + b.wr]
    else []
  let scan :=
    if b.rd < b.len - 1 ∧ s.mem.read (b.src + b.rd) = delim ∧ b.rd - b.cp ≤ ipMaxOffset then [b.src + b.cp] else []
  let fin := if b.rd - b.cp ≤ ipMaxOffset then [b.src + b.cp, b.src + b.len - 1] else []
  match i, b.ph with
  | .enc, .eRun | .encNohp, .eRun | .encd, .eRun | .encdNohp, .eRun => run
  | .enc, .eFin | .encNohp, .eFin => [b.dst + b.cp]
  | .encd, .eFin | .encdNohp, .eFin => [b.dst + b.cp, b.dst + b.wr]
  | .decs, .dCopy | .decsNohp, .dCopy | .decl, .dCopy | .declNohp, .dCopy => copy
  | .encip, .iScan | .encipNohp, .iScan => scan
  | .encip, .iFin | .encipNohp, .iFin => fin
  | _, _ => []

/-- What CHECK secures for an encode command (rule R102). -/
def Block.encReady (p : Platform) (b : Block) (k : Nat) : Prop :=
  needEnc b.len k ≤ b.cap ∧ extentOk p b.src b.len = true ∧ extentOk p b.dst (needEnc b.len k) = true ∧
    disjoint b.src b.len b.dst (needEnc b.len k) = true

/-- What CHECK secures for a decode command (rule R132). -/
def Block.decReady (p : Platform) (b : Block) : Prop :=
  needDec b.len ≤ b.cap ∧ extentOk p b.src b.len = true ∧ extentOk p b.dst (needDec b.len) = true ∧
    disjoint b.src b.len b.dst (needDec b.len) = true

/-- What CHECK secures for ENCIP (rule R162), the sentinels apart. -/
def Block.ipReady (p : Platform) (b : Block) : Prop := 2 ≤ b.len ∧ extentOk p b.src b.len = true

/-- The command is an encode command past CHECK. -/
def Block.encoding (p : Platform) (b : Block) : Prop :=
  (decode b.cmd = some .enc ∧ b.encReady p 1) ∨ (decode b.cmd = some .encd ∧ b.encReady p 2)

/-- The command is a decode command past CHECK. -/
def Block.decoding (p : Platform) (b : Block) : Prop :=
  (decode b.cmd = some .decs ∨ decode b.cmd = some .decl) ∧ b.decReady p

/-- The encoder's cursors (rules R103, R105): the open group starts at `E.CP` and holds `E.CODE - 1` data bytes,
and every forced split took 254 input bytes. -/
def Block.encCursors (b : Block) : Prop :=
  1 ≤ b.code.toNat ∧ b.code.toNat ≤ 254 ∧ b.wr = b.cp + b.code.toNat ∧ b.rd + 1 ≤ b.wr ∧
    254 * (b.wr - b.rd - 1) + (b.code.toNat - 1) ≤ b.rd

/-- What holds of the internal registers in each phase (rules R46, R136, R163). -/
def Block.phaseInv (p : Platform) (b : Block) : Prop :=
  match b.ph with
  | .idle | .check => True
  | .eRun => b.encoding p ∧ b.encCursors ∧ b.rd ≤ b.len
  | .eFin => b.encoding p ∧ b.encCursors ∧ b.rd = b.len
  | .dCode => b.decoding p ∧ b.rd ≤ b.len ∧ b.wr ≤ b.rd ∧ (b.zp = true → 1 ≤ b.wr)
  | .dCopy => b.decoding p ∧ 1 ≤ b.code.toNat ∧ b.cnt.toNat + 1 ≤ b.code.toNat ∧ b.rd + b.cnt.toNat ≤ b.len ∧
      b.wr + 1 ≤ b.rd ∧ b.zp = false
  | .iScan => decode b.cmd = some .encip ∧ b.ipReady p ∧ b.cp < b.rd ∧ b.rd ≤ b.len - 1
  | .iFin => decode b.cmd = some .encip ∧ b.ipReady p ∧ b.cp < b.rd ∧ b.rd = b.len - 1

/-- The invariant of one block: rule R47, and what each phase relies on. -/
def Block.Inv (p : Platform) (b : Block) : Prop :=
  (b.busy = true ↔ b.ph ≠ .idle) ∧ (b.busy = true → b.done = false ∧ b.result = .ok) ∧ b.phaseInv p ∧
    (p.hostCoherent = true → b.unseen = [])

/-- The invariant of the machine: memory in canonical form, every block's invariant, and nothing tracked for
coherence where host and engines see one memory. -/
def State.Inv (s : State) : Prop :=
  s.mem.wf ∧ (∀ b ∈ s.blocks, b.Inv s.plat) ∧
    (s.plat.hostCoherent = true → s.hostDirty = [] ∧ s.engineDirty = [])

/-- No two busy blocks share an extent that one of them writes (70_reset_and_hazards.md rule R256). -/
def State.apart (s : State) : Prop :=
  s.blocks.Pairwise fun b c => b.busy = true → c.busy = true → b.conflicts c = false

end Sys2Proof.Machine
end

