-- ==== Sys2Proof/Certificates/Slice0/Obligations.lean ====
section
/-! DEFINITION. The statements about the model, for the provers: each a `def Obligations.<Name> : Prop`, with the
rule of spec/ it formalises in its docstring. -/

open Sys2Proof Sys2Proof.Machine

/-- A step is the engine step of the command in `CMD`, in whichever way it is scheduled: nothing scheduled, the
engine's own event (which is consumed), or a host waiting for it (which goes on waiting). The schedule and the grain
of `exec` are the model's (logs 5, 6, 16). -/
def Obligations.StepRunsDecodedCommand : Prop :=
  ∀ (s t : State) (i : Instr) (k : Nat) (rest : List Event),
    decode t.dev.cmd = some i → t.dev.ph ≠ .idle →
      (s.schedule = [] → s = t → step s = exec i t) ∧
      (s.schedule = .engine k :: rest → s.focus k = some t → step s = exec i { t with schedule := rest }) ∧
      (s.schedule = .wait k :: rest → s.focus k = some t → step s = exec i t)

/-- A command word placed by `withFetchWord` is the one the very next step runs, from its CHECK phase (log 8). -/
def Obligations.FetchedWordRunsNext : Prop :=
  ∀ (s : State) (w : Nat) (i : Instr), w < 2 ^ 32 → decode (BitVec.ofNat 32 w) = some i →
    step (s.withFetchWord 32 w) = exec i (s.withFetchWord 32 w) ∧
      (s.withFetchWord 32 w).dev.ph = .check ∧ (s.withFetchWord 32 w).dev.cmd = BitVec.ofNat 32 w

/-- The ten command words, written out from the table of rule R84, decode to their commands. -/
def Obligations.TableWordsDecode : Prop :=
  decode 0x00000101 = some .enc ∧ decode 0x00000001 = some .encNohp ∧
  decode 0x00000102 = some .encd ∧ decode 0x00000002 = some .encdNohp ∧
  decode 0x00000103 = some .decs ∧ decode 0x00000003 = some .decsNohp ∧
  decode 0x00000104 = some .decl ∧ decode 0x00000004 = some .declNohp ∧
  decode 0x00000105 = some .encip ∧ decode 0x00000005 = some .encipNohp

/-- Decode and encode agree, both ways: a word decodes to a command exactly when it is that command's word. -/
def Obligations.DecodeEncodeAgree : Prop :=
  ∀ (w : Word) (i : Instr), decode w = some i ↔ w = encode i

/-- Rule R84: the table, the selector ("the word is legal if and only if `(word & 0xFFFFFEF8) == 0` and
`word[2:0]` is in `1..5`"), the fields of a legal word, and the null-handle forms, which always finish with
`OutputBufferNull` before any other check. -/
def Obligations.LegalWordSelector : Prop :=
  Obligations.TableWordsDecode ∧
  (∀ w : Word, (decode w).isSome = true ↔
    w &&& 0xFFFFFEF8 = 0 ∧ 1 ≤ (w.extractLsb' 0 3).toNat ∧ (w.extractLsb' 0 3).toNat ≤ 5) ∧
  (∀ (w : Word) (i : Instr), decode w = some i →
    i.fields.op = w.extractLsb' 0 3 ∧ i.fields.hp = w.extractLsb' 8 1) ∧
  (∀ (s : State) (i : Instr), s.dev.ph = .check → decode s.dev.cmd = some i → i.fields.hp = 0 →
    engineStep s = .next (s.finish .outputBufferNull))

/-- Rule R86: a word is illegal if `OP` is 0, 6 or 7 or a reserved bit is 1; it is accepted like any other, and its
CHECK step ends it with `IllegalCommand`, without memory access and with `DST_CAP` unchanged. -/
def Obligations.IllegalWordsEndAtCheck : Prop :=
  (∀ w : Word, decode w = none ↔
    (Cmdw.ofWord w).op = 0 ∨ (Cmdw.ofWord w).op = 6 ∨ (Cmdw.ofWord w).op = 7 ∨
      (Cmdw.ofWord w).mid ≠ 0 ∨ (Cmdw.ofWord w).high ≠ 0) ∧
  (∀ (s : State) (w : Word), decode w = none → s.dev.busy = false → writeRegister s 0x00 w = .next (s.accept w)) ∧
  (∀ s : State, s.dev.ph = .check → decode s.dev.cmd = none →
    engineStep s = .next { s with dev := { s.dev with result := .illegalCommand, busy := false, done := true,
                                                      ph := .idle } })

/-- Rule R205: what `Finish` writes, and with it `STATUS` reads `2 + 16 * RESULT` (the numbers of rule R88). -/
def Obligations.FinishWritesStatus : Prop :=
  ∀ (s : State) (r : ResultCode) (n : Nat),
    s.finish r = { s with dev := { s.dev with result := r, busy := false, done := true, ph := .idle } } ∧
    s.finishLen r n = { s with dev := { s.dev with
      dstCap := BitVec.ofNat 32 n, result := r, busy := false, done := true, ph := .idle } } ∧
    (n < 2 ^ 32 → (s.finishLen r n).dev.cap = n) ∧
    (s.finish r).dev.status.toNat = 2 + 16 * r.bits.toNat ∧
    [ResultCode.ok, .outputBufferNull, .badOutputLength, .badPayload, .zeroByteInInput, .eofInInput,
      .zeroBeyondBuffer, .illegalCommand, .busError].map (fun c => c.bits.toNat) = [0, 1, 2, 3, 4, 5, 6, 7, 8]

/-- Rule R33: the fields of `STATUS`, and a host write to it, which acts on `DONE` alone and whether or not
`BUSY = 1`; it has no effect while `BUSY = 1` (with the invariant, which has `DONE = 0` then). -/
def Obligations.StatusFieldsWriteOneToClear : Prop :=
  (∀ b : Block, b.readReg 0x04 = b.status ∧ b.status.getLsbD 0 = b.busy ∧ b.status.getLsbD 1 = b.done ∧
    b.status.extractLsb' 2 2 = 0 ∧ b.status.extractLsb' 4 4 = b.result.bits ∧ b.status.extractLsb' 8 24 = 0) ∧
  (∀ (s : State) (v : Word), writeRegister s 0x04 v =
    .next { s with dev := { s.dev with done := if v.getLsbD 1 then false else s.dev.done } }) ∧
  (∀ (s : State) (v : Word), s.Inv → s.dev.busy = true → writeRegister s 0x04 v = .next s)

/-- Rule R34: `CTRL` has `IE` in bit 0 and nothing else; a write sets it at any time; it enables the interrupt
output; it resets to zero. -/
def Obligations.ControlInterruptEnable : Prop :=
  (∀ b : Block, b.readReg 0x08 = b.ctrl ∧ b.ctrl.getLsbD 0 = b.ie ∧ b.ctrl.extractLsb' 1 31 = 0) ∧
  (∀ (s : State) (v : Word), writeRegister s 0x08 v = .next { s with dev := { s.dev with ie := v.getLsbD 0 } }) ∧
  (∀ b : Block, b.irq = true → b.ie = true) ∧ (∀ base : Word, (Block.reset base).ctrl = 0)

/-- Rules R39 and R206: `irq = CTRL.IE and STATUS.DONE`; `Finish` with any code sets `DONE` and raises it if enabled,
enabling it later raises it at once, and writing 1 to `STATUS` bit 1 or accepting a command clears it. -/
def Obligations.InterruptLine : Prop :=
  (∀ b : Block, b.irq = true ↔ b.ie = true ∧ b.done = true) ∧
  (∀ (b : Block) (r : ResultCode), (b.finish r).done = true ∧ (b.finish r).irq = b.ie) ∧
  (∀ (b : Block) (v : Word), b.done = true → (b.writeReg 0x08 v).irq = v.getLsbD 0) ∧
  (∀ (b : Block) (v : Word), v.getLsbD 1 = true → (b.writeReg 0x04 v).irq = false) ∧
  (∀ (b : Block) (v : Word) (u : List Nat), (b.accept v u).irq = false)

/-- Rule R48: a host write to `CMD` while `BUSY = 0` accepts the word, whatever it is (unless rule R256 refuses it).
The field `unseen` is the model's own (log 10). -/
def Obligations.CommandAcceptance : Prop :=
  ∀ (s : State) (v : Word), s.dev.busy = false →
    (∀ c ∈ s.others, c.busy = true → (s.accept v).dev.conflicts c = false) →
    writeRegister s 0x00 v = .next { s with dev := { s.dev with
      cmd := v, busy := true, done := false, result := .ok, ph := .check,
      unseen := if s.plat.hostCoherent then [] else s.hostDirty } }

/-- Rule R38: while `BUSY = 1` host writes to `CMD` and the argument registers are ignored, so they hold what they
held at acceptance through every step that leaves the command running; and every register can be read at any time
(the value read is recorded in `observed`, log 17).
`t` is the machine with the accessed block in focus. -/
def Obligations.BusyWritesIgnored : Prop :=
  (∀ (s t : State) (v : Word) (a k : Nat),
    s.blocks.findIdx? (fun b => b.windowTouched a 4) = some k → s.focus k = some t → a % 4 = 0 →
    t.blocks = s.blocks ∧ t.mem = s.mem ∧
    (t.dev.busy = true → a - t.dev.codecBase.toNat ∈ [0x00, 0x0C, 0x10, 0x14, 0x18] →
      hostStep (.regWrite a 4 v) s = .next t) ∧
    hostStep (.regRead a 4) s =
      .next { t with observed := t.dev.readReg (a - t.dev.codecBase.toNat) :: t.observed }) ∧
  (∀ (s t : State) (k : Nat) (b c : Block), step s = .next t → s.blocks[k]? = some b → t.blocks[k]? = some c →
    b.busy = true → c.busy = true →
    c.cmd = b.cmd ∧ c.srcAddr = b.srcAddr ∧ c.srcLen = b.srcLen ∧ c.dstAddr = b.dstAddr ∧ c.dstCap = b.dstCap)

/-- Rules R30, R32, R35, R36: which register each offset reads, and that a write to an argument register while
`BUSY = 0` stores the whole word and nothing else. -/
def Obligations.ArgumentRegisters : Prop :=
  ∀ (s : State) (v : Word),
    s.dev.readReg 0x00 = s.dev.cmd ∧ s.dev.readReg 0x0C = s.dev.srcAddr ∧ s.dev.readReg 0x10 = s.dev.srcLen ∧
    s.dev.readReg 0x14 = s.dev.dstAddr ∧ s.dev.readReg 0x18 = s.dev.dstCap ∧
    (s.dev.busy = false →
      writeRegister s 0x0C v = .next { s with dev := { s.dev with srcAddr := v } } ∧
      writeRegister s 0x10 v = .next { s with dev := { s.dev with srcLen := v } } ∧
      writeRegister s 0x14 v = .next { s with dev := { s.dev with dstAddr := v } } ∧
      writeRegister s 0x18 v = .next { s with dev := { s.dev with dstCap := v } })

/-- Rule R37: offsets 0x1C to 0x3F read as zero and ignore writes. -/
def Obligations.ReservedOffsets : Prop :=
  ∀ (s : State) (off : Nat) (v : Word), 0x1C ≤ off → off < 0x40 →
    s.dev.readReg off = 0 ∧ writeRegister s off v = .next s

/-- Rules R31 and R252 (e): a host access to a window that is not one aligned 32-bit word has no meaning. -/
def Obligations.NarrowRegisterAccessRefused : Prop :=
  ∀ (s : State) (v : Word) (x : Byte) (a width : Nat),
    ((∃ b ∈ s.blocks, b.windowTouched a width = true) → ¬(width = 4 ∧ a % 4 = 0) →
      hostStep (.regRead a width) s = .refused .narrowOrMisalignedRegisterAccess ∧
      hostStep (.regWrite a width v) s = .refused .narrowOrMisalignedRegisterAccess) ∧
    ((∃ b ∈ s.blocks, b.windowTouched a 1 = true) →
      hostStep (.memRead a) s = .refused .narrowOrMisalignedRegisterAccess ∧
      hostStep (.memWrite a x) s = .refused .narrowOrMisalignedRegisterAccess)

/-- Rule R255, and R252 (c) and (d) around it, at every address outside the windows: past the top of the space (R60,
R11: no address wraps) an access stops by name (log 15); a host write to an extent of a running command is refused; a
host read where a running command writes returns a free value (any value: nothing is known of `Config.freeByte`); any
other read returns the byte of memory, unless it waits for cache maintenance (IncoherentBuffersRefused), and any other
write stores it, noted for maintenance where `HOST_COHERENT = false` (log 10). The free value's form is log 9, and the
extents of null-handle and illegal words are log 12. -/
def Obligations.HostMemoryAccess : Prop :=
  ∀ (s : State) (a : Nat) (x : Byte), s.inWindow a = false →
    (2 ^ 32 ≤ a → hostStep (.memRead a) s = .fault .outsideMemory ∧
      hostStep (.memWrite a x) s = .fault .outsideMemory) ∧
    (a < 2 ^ 32 →
      ((∃ b ∈ s.blocks, b.busy = true ∧ (b.inExtent.has a = true ∨ b.outExtent.has a = true)) →
        hostStep (.memWrite a x) s = .refused .hostWriteToBusyExtent) ∧
      ((∃ b ∈ s.blocks, b.busy = true ∧ b.outExtent.has a = true) →
        hostStep (.memRead a) s =
          .next { s with observed := (Config.freeByte s.draws).setWidth 32 :: s.observed, draws := s.draws + 1 }) ∧
      ((∀ b ∈ s.blocks, b.busy = true → b.outExtent.has a = false) →
        (s.plat.hostCoherent = true ∨ s.engineDirty.contains a = false) →
        hostStep (.memRead a) s = .next { s with observed := (s.mem.read a).setWidth 32 :: s.observed }) ∧
      ((∀ b ∈ s.blocks, b.busy = true → b.inExtent.has a = false ∧ b.outExtent.has a = false) →
        hostStep (.memWrite a x) s = .next { s with
          mem := s.mem.write a x
          hostDirty := if s.plat.hostCoherent then s.hostDirty else insertAddr a s.hostDirty }))

/-- Rule R256: a command is refused at acceptance when an extent it or another busy block writes holds an address of
an extent of the other (that the test stands at acceptance is log 11, which extents a word has is log 12). -/
def Obligations.SharedExtentRefused : Prop :=
  ∀ (s : State) (v : Word) (c : Block), s.dev.busy = false → c ∈ s.others → c.busy = true →
    (∃ a, ((s.accept v).dev.outExtent.has a = true ∧ c.touches a = true) ∨
      ((s.accept v).dev.touches a = true ∧ c.outExtent.has a = true)) →
    writeRegister s 0x00 v = .refused .instancesShareExtent

/-- Rule R256, as an invariant: no step of the machine brings two busy blocks to share an extent one of them
writes (logs 11, 12). -/
def Obligations.BusyBlocksStayApart : Prop :=
  ∀ s t : State, s.apart → step s = .next t → t.apart

/-- Isolation: the engine step of one block changes no byte in an extent of another busy block. -/
def Obligations.EngineSparesOtherBlocks : Prop :=
  ∀ (s t : State) (c : Block) (a : Nat), s.Inv → s.apart → engineStep s = .next t → c ∈ s.others → c.busy = true →
    c.touches a = true → t.mem.read a = s.mem.read a

/-- Rule R72, both halves (the bookkeeping is log 10). With `HOST_COHERENT = true` no step is refused as incoherent.
Without it:
* an engine access to a byte the host wrote and did not make visible before the command write is refused, and after
  the host's maintenance it goes on;
* a byte an engine wrote stays marked through every step but the host's maintenance, and while it is marked a host read
  of it (where no command is running that writes it) is refused; after maintenance the read returns the byte. -/
def Obligations.IncoherentBuffersRefused : Prop :=
  (∀ s : State, s.plat.hostCoherent = true → step s ≠ .refused .incoherentBuffers) ∧
  (∀ (s t : State) (a : Nat) (x : Byte), s.plat.hostCoherent = false → hostMemWrite s a x = .next t →
    ∀ v : Word, (t.accept v).dev.unseen.contains a = true ∧
      (t.maintain.accept v).dev.unseen = [] ∧
      (dmaOk s.plat a = true → memRead (t.accept v) a = .refused .incoherentBuffers ∧
        memRead (t.maintain.accept v) a = .next (t.mem.read a))) ∧
  (∀ (s t : State) (a : Nat) (x : Byte), s.plat.hostCoherent = false → memWrite s a x = .next t →
    t.engineDirty.contains a = true) ∧
  (∀ (s t : State) (a : Nat), step s = .next t → (∀ rest, s.schedule ≠ .host .cacheMaintenance :: rest) →
    s.engineDirty.contains a = true → t.engineDirty.contains a = true) ∧
  (∀ (s : State) (a : Nat), s.plat.hostCoherent = false → s.engineDirty.contains a = true → s.inWindow a = false →
    a < 2 ^ 32 → (∀ b ∈ s.blocks, b.busy = true → b.outExtent.has a = false) →
    hostStep (.memRead a) s = .refused .incoherentBuffers ∧
      hostStep (.memRead a) s.maintain =
        .next { s.maintain with observed := (s.mem.read a).setWidth 32 :: s.observed })

/-- Rule R64: the extents of each command. `outExtent` is the extent the command writes; for ENCIP, which has no output
extent, that is the buffer. -/
def Obligations.CommandExtents : Prop :=
  ∀ b : Block,
    (decode b.cmd = some .enc → b.inExtent = ⟨b.src, b.len⟩ ∧ b.outExtent = ⟨b.dst, b.len + (b.len + 253) / 254 + 1⟩) ∧
    (decode b.cmd = some .encd → b.inExtent = ⟨b.src, b.len⟩ ∧ b.outExtent = ⟨b.dst, b.len + (b.len + 253) / 254 + 2⟩) ∧
    (decode b.cmd = some .decs ∨ decode b.cmd = some .decl →
      b.inExtent = ⟨b.src, b.len⟩ ∧ b.outExtent = ⟨b.dst, b.len - 1⟩) ∧
    (decode b.cmd = some .encip → b.inExtent = ⟨b.src, b.len⟩ ∧ b.outExtent = ⟨b.src, b.len⟩ ∧
      (b.extentsOf (decode b.cmd)).2.size = 0)

/-- Rule R65: `ExtentOK(base, n)` is the test of every address, with no wrap past the top. -/
def Obligations.ExtentOkTestsEveryAddress : Prop :=
  ∀ (p : Platform) (base n : Nat), extentOk p base n = true ↔
    n = 0 ∨ (base + n ≤ 2 ^ 32 ∧ ∀ i < n, dmaOk p (base + i) = true)

/-- Rule R77: `Disjoint` on exact values, and what it says: no address lies in both ranges. -/
def Obligations.DisjointSharesNoAddress : Prop :=
  ∀ a n b m : Nat, (disjoint a n b m = true ↔ n = 0 ∨ m = 0 ∨ a + n ≤ b ∨ b + m ≤ a) ∧
    (disjoint a n b m = true ↔ ∀ x, ¬(a ≤ x ∧ x < a + n ∧ b ≤ x ∧ x < b + m))

/-- Rules R62 and R63: after an engine write the byte is read back, every other address reads as before, nothing but
memory and the engine-written addresses of log 10 changes, and memory keeps its canonical form. -/
def Obligations.EngineWriteThenRead : Prop :=
  ∀ (s t : State) (a : Nat) (v : Byte), s.mem.wf → memWrite s a v = .next t →
    memRead t a = .next v ∧ (∀ x, x ≠ a → memRead t x = memRead s x) ∧ t.mem.wf ∧
      t = { s with mem := t.mem, engineDirty := t.engineDirty }

/-- Rule R102: the CHECK step of ENC (`K = 1`) and ENCD (`K = 2`), in the order of its tests; the null-handle forms
are those with `CMD.HP = 0`. -/
def Obligations.EncoderCheckStep : Prop :=
  (∀ (s : State) (i : Instr), i = .encNohp ∨ i = .encdNohp → s.dev.ph = .check →
    exec i s = .next (s.finish .outputBufferNull)) ∧
  ∀ (s : State) (i : Instr) (k : Nat), (i = .enc ∧ k = 1) ∨ (i = .encd ∧ k = 2) → s.dev.ph = .check →
    (s.dev.cap < needEnc s.dev.len k → exec i s = .next (s.finish .badOutputLength)) ∧
    (needEnc s.dev.len k ≤ s.dev.cap →
      ((extentOk s.plat s.dev.src s.dev.len = false ∨ extentOk s.plat s.dev.dst (needEnc s.dev.len k) = false) →
        exec i s = .next (s.finish .busError)) ∧
      (extentOk s.plat s.dev.src s.dev.len = true → extentOk s.plat s.dev.dst (needEnc s.dev.len k) = true →
        (disjoint s.dev.src s.dev.len s.dev.dst (needEnc s.dev.len k) = false →
          exec i s = .refused .overlappingBuffers) ∧
        (disjoint s.dev.src s.dev.len s.dev.dst (needEnc s.dev.len k) = true →
          exec i s = .next { s with dev := { s.dev with rd := 0, cp := 0, wr := 1, code := 1, ph := .eRun } })))

/-- Rule R103: the E_RUN step of ENC and ENCD. It completes wherever the addresses it accesses are reachable:
end of input; a zero byte, which finalizes the pending code; a data byte; a data byte that fills the group. With the
invariant the pending code never exceeds 254 before the step, so 255 after it, before it is reset. -/
def Obligations.EncoderRunStep : Prop :=
  ∀ (s : State) (i : Instr), i = .enc ∨ i = .encd → s.dev.ph = .eRun →
    (s.dev.rd = s.dev.len → exec i s = .next { s with dev := { s.dev with ph := .eFin } }) ∧
    (s.dev.rd ≠ s.dev.len → s.reaches (s.dev.src + s.dev.rd) →
      (s.mem.read (s.dev.src + s.dev.rd) = 0x00 → s.reaches (s.dev.dst + s.dev.cp) →
        exec i s = .next ((s.poke (s.dev.dst + s.dev.cp) s.dev.code).withDev
          { s.dev with rd := s.dev.rd + 1, cp := s.dev.wr, wr := s.dev.wr + 1, code := 1 })) ∧
      (s.mem.read (s.dev.src + s.dev.rd) ≠ 0x00 → s.reaches (s.dev.dst + s.dev.wr) →
        (s.dev.code.toNat + 1 ≠ 255 → s.dev.code.toNat + 1 ≤ 255 →
          exec i s = .next ((s.poke (s.dev.dst + s.dev.wr) (s.mem.read (s.dev.src + s.dev.rd))).withDev
            { s.dev with rd := s.dev.rd + 1, wr := s.dev.wr + 1, code := BitVec.ofNat 8 (s.dev.code.toNat + 1) })) ∧
        (s.dev.code.toNat + 1 = 255 → s.reaches (s.dev.dst + s.dev.cp) →
          exec i s = .next (((s.poke (s.dev.dst + s.dev.wr) (s.mem.read (s.dev.src + s.dev.rd))).poke
            (s.dev.dst + s.dev.cp) 0xFF).withDev
            { s.dev with rd := s.dev.rd + 1, cp := s.dev.wr + 1, wr := s.dev.wr + 2, code := 1 })))) ∧
    (s.Inv → 1 ≤ s.dev.code.toNat ∧ s.dev.code.toNat + 1 ≤ 255)

/-- Rule R104: the E_FIN step: the last code byte, for ENCD the delimiter, then `Finish(OK, E.WR)`. This is where
ENC and ENCD complete. -/
def Obligations.EncoderFinalStep : Prop :=
  ∀ s : State, s.dev.ph = .eFin → s.reaches (s.dev.dst + s.dev.cp) →
    exec .enc s = .next ((s.poke (s.dev.dst + s.dev.cp) s.dev.code).withDev { s.dev with
      dstCap := BitVec.ofNat 32 s.dev.wr, result := .ok, busy := false, done := true, ph := .idle }) ∧
    (s.reaches (s.dev.dst + s.dev.wr) →
      exec .encd s = .next (((s.poke (s.dev.dst + s.dev.cp) s.dev.code).poke (s.dev.dst + s.dev.wr) 0x00).withDev
        { s.dev with wr := s.dev.wr + 1, dstCap := BitVec.ofNat 32 (s.dev.wr + 1), result := .ok, busy := false,
                     done := true, ph := .idle }))

/-- Rule R132: the CHECK step of DECS and DECL, in the order of its tests; the null-handle forms are those with
`CMD.HP = 0`. -/
def Obligations.DecoderCheckStep : Prop :=
  (∀ (s : State) (i : Instr), i = .decsNohp ∨ i = .declNohp → s.dev.ph = .check →
    exec i s = .next (s.finish .outputBufferNull)) ∧
  ∀ (s : State) (i : Instr), i = .decs ∨ i = .decl → s.dev.ph = .check →
    (s.dev.cap < s.dev.len - 1 → exec i s = .next (s.finish .badOutputLength)) ∧
    (s.dev.len - 1 ≤ s.dev.cap →
      ((extentOk s.plat s.dev.src s.dev.len = false ∨ extentOk s.plat s.dev.dst (s.dev.len - 1) = false) →
        exec i s = .next (s.finish .busError)) ∧
      (extentOk s.plat s.dev.src s.dev.len = true → extentOk s.plat s.dev.dst (s.dev.len - 1) = true →
        (disjoint s.dev.src s.dev.len s.dev.dst (s.dev.len - 1) = false →
          exec i s = .refused .overlappingBuffers) ∧
        (disjoint s.dev.src s.dev.len s.dev.dst (s.dev.len - 1) = true →
          exec i s = .next { s with dev := { s.dev with rd := 0, wr := 0, zp := false, ph := .dCode } })))

/-- Rules R133 and R135: the D_CODE step: end of input, where DECS and DECL complete; the embedded delimiter, an
error for DECS and an early end for DECL; a group that does not fit; a group. -/
def Obligations.DecoderCodeStep : Prop :=
  ∀ s : State, s.dev.ph = .dCode →
    (s.dev.rd = s.dev.len → ∀ i, i = .decs ∨ i = .decl → exec i s = .next (s.finishLen .ok s.dev.wr)) ∧
    (s.dev.rd ≠ s.dev.len → s.reaches (s.dev.src + s.dev.rd) →
      ∀ c, c = s.mem.read (s.dev.src + s.dev.rd) →
      (c = 0x00 → exec .decs s = .next (s.finish .zeroByteInInput) ∧
        exec .decl s = .next (s.finishLen .eofInInput (s.dev.wr - if s.dev.zp then 1 else 0))) ∧
      (c ≠ 0x00 → ∀ i, i = .decs ∨ i = .decl →
        (s.dev.len < s.dev.rd + c.toNat ∧ c ≠ 1 → exec i s = .next (s.finish .zeroBeyondBuffer)) ∧
        (s.dev.rd + c.toNat ≤ s.dev.len ∨ c = 1 →
          exec i s = .next { s with dev := { s.dev with
            code := c, cnt := c - 1, rd := s.dev.rd + 1, zp := false, ph := .dCopy } })))

/-- Rules R134 and R138: the D_COPY step: a data byte, copied as it is; then the reconstructed zero, unless the code
is `0xFF` or the input has ended. With the invariant the reads stay inside the input. -/
def Obligations.DecoderCopyStep : Prop :=
  ∀ (s : State) (i : Instr), i = .decs ∨ i = .decl → s.dev.ph = .dCopy →
    (s.dev.cnt ≠ 0 → s.reaches (s.dev.src + s.dev.rd) → s.reaches (s.dev.dst + s.dev.wr) →
      exec i s = .next ((s.poke (s.dev.dst + s.dev.wr) (s.mem.read (s.dev.src + s.dev.rd))).withDev
        { s.dev with rd := s.dev.rd + 1, wr := s.dev.wr + 1, cnt := s.dev.cnt - 1 })) ∧
    (s.dev.cnt = 0 → s.dev.code ≠ 0xFF → s.dev.rd ≠ s.dev.len → s.reaches (s.dev.dst + s.dev.wr) →
      exec i s = .next ((s.poke (s.dev.dst + s.dev.wr) 0x00).withDev
        { s.dev with wr := s.dev.wr + 1, zp := true, ph := .dCode })) ∧
    (s.dev.cnt = 0 → s.dev.code = 0xFF ∨ s.dev.rd = s.dev.len →
      exec i s = .next { s with dev := { s.dev with ph := .dCode } }) ∧
    (s.Inv → s.dev.cnt ≠ 0 → s.dev.rd < s.dev.len)

/-- Rule R162: the CHECK step of ENCIP, in the order of its tests; the null-handle form is that with `CMD.HP = 0`. -/
def Obligations.InPlaceCheckStep : Prop :=
  ∀ s : State, s.dev.ph = .check →
    exec .encipNohp s = .next (s.finish .outputBufferNull) ∧
    (s.dev.len < 2 → exec .encip s = .next (s.finish .badOutputLength)) ∧
    (2 ≤ s.dev.len →
      (extentOk s.plat s.dev.src s.dev.len = false → exec .encip s = .next (s.finish .busError)) ∧
      (extentOk s.plat s.dev.src s.dev.len = true → s.reaches s.dev.src →
        s.reaches (s.dev.src + s.dev.len - 1) →
        ((s.mem.read s.dev.src ≠ s.plat.sentinel ∨ s.mem.read (s.dev.src + s.dev.len - 1) ≠ s.plat.sentinel) →
          exec .encip s = .next (s.finish .badPayload)) ∧
        (s.mem.read s.dev.src = s.plat.sentinel → s.mem.read (s.dev.src + s.dev.len - 1) = s.plat.sentinel →
          exec .encip s = .next { s with dev := { s.dev with cp := 0, rd := 1, ph := .iScan } })))

/-- Rule R163: the I_SCAN step: a zero byte backfills the code position, or ends the command if its offset is
beyond 255; any other byte is passed; after position `L - 2` the scan ends. With the invariant the byte a backfill
writes is not zero. -/
def Obligations.InPlaceScanStep : Prop :=
  ∀ s : State, s.dev.ph = .iScan →
    (s.dev.rd < s.dev.len - 1 → s.reaches (s.dev.src + s.dev.rd) →
      (s.mem.read (s.dev.src + s.dev.rd) = 0x00 →
        (255 < s.dev.rd - s.dev.cp → exec .encip s = .next (s.finish .badPayload)) ∧
        (s.dev.rd - s.dev.cp ≤ 255 → s.reaches (s.dev.src + s.dev.cp) →
          exec .encip s = .next
            ((s.poke (s.dev.src + s.dev.cp) (BitVec.ofNat 8 (s.dev.rd - s.dev.cp))).withDev
              { s.dev with cp := s.dev.rd, rd := s.dev.rd + 1 }))) ∧
      (s.mem.read (s.dev.src + s.dev.rd) ≠ 0x00 →
        exec .encip s = .next { s with dev := { s.dev with rd := s.dev.rd + 1 } })) ∧
    (s.dev.len - 1 ≤ s.dev.rd → exec .encip s = .next { s with dev := { s.dev with ph := .iFin } }) ∧
    (s.Inv → s.dev.rd - s.dev.cp ≤ 255 → BitVec.ofNat 8 (s.dev.rd - s.dev.cp) ≠ 0x00)

/-- Rule R164: the I_FIN step: the last backfill with the same test, the delimiter, `Finish(OK)` with `DST_CAP` not
written. This is where ENCIP completes. -/
def Obligations.InPlaceFinalStep : Prop :=
  ∀ s : State, s.dev.ph = .iFin →
    (255 < s.dev.rd - s.dev.cp → exec .encip s = .next (s.finish .badPayload)) ∧
    (s.dev.rd - s.dev.cp ≤ 255 → s.reaches (s.dev.src + s.dev.cp) → s.reaches (s.dev.src + s.dev.len - 1) →
      exec .encip s = .next
        (((s.poke (s.dev.src + s.dev.cp) (BitVec.ofNat 8 (s.dev.rd - s.dev.cp))).poke
          (s.dev.src + s.dev.len - 1) 0x00).withDev
          { s.dev with result := .ok, busy := false, done := true, ph := .idle }))

/-- Rules R82 and R84: the whole effect of a null-handle form is to finish with `OutputBufferNull` at CHECK, in any
state: this is where the five null-handle forms complete. -/
def Obligations.NullHandleFormsFinish : Prop :=
  ∀ (s : State) (i : Instr),
    i = .encNohp ∨ i = .encdNohp ∨ i = .decsNohp ∨ i = .declNohp ∨ i = .encipNohp → s.dev.ph = .check →
    exec i s = .next { s with dev := { s.dev with
      result := .outputBufferNull, busy := false, done := true, ph := .idle } }

/-- Where a command stops by name, in states no run reaches (log 14): a phase its rules never enter, and an access
outside `DMA_OK`. The overlap of R77 stands in the CHECK statements. -/
def Obligations.StopsByName : Prop :=
  (∀ (s : State) (i : Instr),
    (i ∈ [Instr.enc, .encNohp, .encd, .encdNohp] ∧ s.dev.ph ∈ [Phase.dCode, .dCopy, .iScan, .iFin]) ∨
    (i ∈ [Instr.decs, .decsNohp, .decl, .declNohp] ∧ s.dev.ph ∈ [Phase.eRun, .eFin, .iScan, .iFin]) ∨
    (i ∈ [Instr.encip, .encipNohp] ∧ s.dev.ph ∈ [Phase.eRun, .eFin, .dCode, .dCopy]) →
    exec i s = .fault .phaseMismatch) ∧
  (∀ (s : State) (a : Nat) (v : Byte), dmaOk s.plat a = false →
    memRead s a = .fault .dmaViolation ∧ memWrite s a v = .fault .dmaViolation)

/-- The frame of ENC and ENCD, in every form and phase: what an engine step leaves unchanged. `DST_CAP` changes in
E_FIN alone, `STATUS` by `Finish` alone, and memory at the addresses `storesOf` computes alone. -/
def Obligations.EncoderFrame : Prop :=
  ∀ (s t : State) (i : Instr), i ∈ [Instr.enc, .encNohp, .encd, .encdNohp] → exec i s = .next t →
    (∀ a, a ∉ storesOf i s → t.mem.read a = s.mem.read a) ∧
    t = { s with dev := t.dev, mem := t.mem, engineDirty := t.engineDirty } ∧
    t.dev = { s.dev with
      rd := t.dev.rd, wr := t.dev.wr, cp := t.dev.cp, code := t.dev.code, ph := t.dev.ph
      dstCap := if s.dev.ph = .eFin then t.dev.dstCap else s.dev.dstCap
      busy := if t.dev.ph = .idle then t.dev.busy else s.dev.busy
      done := if t.dev.ph = .idle then t.dev.done else s.dev.done
      result := if t.dev.ph = .idle then t.dev.result else s.dev.result } ∧
    (s.dev.ph ≠ .idle → t.dev.ph = .idle → t.dev.busy = false ∧ t.dev.done = true) ∧
    (s.dev.ph = .idle → t = s)

/-- The frame of DECS and DECL, in every form and phase. `DST_CAP` changes in D_CODE alone. -/
def Obligations.DecoderFrame : Prop :=
  ∀ (s t : State) (i : Instr), i ∈ [Instr.decs, .decsNohp, .decl, .declNohp] → exec i s = .next t →
    (∀ a, a ∉ storesOf i s → t.mem.read a = s.mem.read a) ∧
    t = { s with dev := t.dev, mem := t.mem, engineDirty := t.engineDirty } ∧
    t.dev = { s.dev with
      rd := t.dev.rd, wr := t.dev.wr, code := t.dev.code, cnt := t.dev.cnt, zp := t.dev.zp, ph := t.dev.ph
      dstCap := if s.dev.ph = .dCode then t.dev.dstCap else s.dev.dstCap
      busy := if t.dev.ph = .idle then t.dev.busy else s.dev.busy
      done := if t.dev.ph = .idle then t.dev.done else s.dev.done
      result := if t.dev.ph = .idle then t.dev.result else s.dev.result } ∧
    (s.dev.ph ≠ .idle → t.dev.ph = .idle → t.dev.busy = false ∧ t.dev.done = true) ∧
    (s.dev.ph = .idle → t = s)

/-- The frame of ENCIP, in both forms and every phase. `DST_CAP` never changes (rule R162). -/
def Obligations.InPlaceFrame : Prop :=
  ∀ (s t : State) (i : Instr), i ∈ [Instr.encip, .encipNohp] → exec i s = .next t →
    (∀ a, a ∉ storesOf i s → t.mem.read a = s.mem.read a) ∧
    t = { s with dev := t.dev, mem := t.mem, engineDirty := t.engineDirty } ∧
    t.dev = { s.dev with
      rd := t.dev.rd, cp := t.dev.cp, ph := t.dev.ph
      busy := if t.dev.ph = .idle then t.dev.busy else s.dev.busy
      done := if t.dev.ph = .idle then t.dev.done else s.dev.done
      result := if t.dev.ph = .idle then t.dev.result else s.dev.result } ∧
    (s.dev.ph ≠ .idle → t.dev.ph = .idle → t.dev.busy = false ∧ t.dev.done = true) ∧
    (s.dev.ph = .idle → t = s)

/-- Rules R36 and R89: an engine step changes `DST_CAP` only by finishing with `OK`, or DECL with `EofInInput`; ENCIP
never does. -/
def Obligations.CapacityWrittenOnlyOnResult : Prop :=
  ∀ (s t : State) (i : Instr), exec i s = .next t → t.dev.dstCap ≠ s.dev.dstCap →
    t.dev.ph = .idle ∧ i ≠ .encip ∧ i ≠ .encipNohp ∧
      (t.dev.result = .ok ∨ (t.dev.result = .eofInInput ∧ (i = .decl ∨ i = .declNohp)))

/-- Rules R9 and R213: no step of any agent changes a parameter of the platform, the number of its blocks or where
their windows are. -/
def Obligations.PlatformIsConstant : Prop :=
  ∀ s t : State, step s = .next t →
    t.plat = s.plat ∧ t.blocks.map (fun b => b.codecBase) = s.blocks.map (fun b => b.codecBase)

/-- Rules R50 and R240: the reset event takes every block to the reset values of R50 and IDLE with `irq = 0`, whatever
was running, and leaves memory unchanged. (R50 leaves the internal registers unspecified: nothing is said of them. That
the event reaches every block is rule R213's "All instances come out of reset together with the platform", log 18.) -/
def Obligations.ResetEvent : Prop :=
  ∀ (s : State) (rest : List Event), s.schedule = .reset :: rest →
    ∃ t, step s = .next t ∧ t.mem = s.mem ∧ t.plat = s.plat ∧ t.schedule = rest ∧
      t.blocks.map (fun b => b.codecBase) = s.blocks.map (fun b => b.codecBase) ∧
      ∀ b ∈ t.blocks, b.cmd = 0 ∧ b.status = 0 ∧ b.ctrl = 0 ∧ b.srcAddr = 0 ∧ b.srcLen = 0 ∧ b.dstAddr = 0 ∧
        b.dstCap = 0 ∧ b.irq = false ∧ b.ph = .idle

/-- Rule R50: the machine right after reset, on every platform: the registers, and the invariants. -/
def Obligations.ResetMeetsInvariant : Prop :=
  ∀ (p : Platform) (base : Word) (more : List Word),
    (State.resetOn p base more).Inv ∧ (State.resetOn p base more).apart ∧
    (State.resetOn p base more).blocks.length = more.length + 1 ∧
    ∀ b ∈ (State.resetOn p base more).blocks, b.cmd = 0 ∧ b.status = 0 ∧ b.ctrl = 0 ∧ b.srcAddr = 0 ∧
      b.srcLen = 0 ∧ b.dstAddr = 0 ∧ b.dstCap = 0 ∧ b.irq = false ∧ b.ph = .idle

/-- Every step of every agent keeps the invariant: memory in canonical form, and for each block rule R47 and what
its phase relies on. -/
def Obligations.StepKeepsInvariant : Prop :=
  ∀ s t : State, s.Inv → step s = .next t → t.Inv

/-- Rules R62, R66 and R109: where the invariant holds no engine step faults, and past CHECK with
`HOST_COHERENT = true` every engine step goes on. -/
def Obligations.EngineNeverFaults : Prop :=
  ∀ s : State, s.Inv →
    (∀ f : Fault, engineStep s ≠ .fault f) ∧
    (s.plat.hostCoherent = true → s.dev.ph ≠ .check → ∃ t, engineStep s = .next t) ∧
    (s.plat.hostCoherent = true → ∀ r, engineStep s = .refused r → r = .overlappingBuffers)

/-- Rule R66: an engine step writes only inside the command's output extent, or the ENCIP buffer. -/
def Obligations.EngineWritesInsideOutput : Prop :=
  ∀ (s t : State) (a : Nat), s.Inv → engineStep s = .next t → s.dev.outExtent.has a = false →
    t.mem.read a = s.mem.read a

/-- Rule R66: an engine step reads only inside the command's input extent, or the ENCIP buffer: over any memory that
agrees there it does the same to the block and to all else but memory, and stores the same bytes. -/
def Obligations.EngineReadsInsideInput : Prop :=
  ∀ (s t : State) (m : Memory), s.Inv → m.wf → (∀ a, s.dev.inExtent.has a = true → m.read a = s.mem.read a) →
    engineStep s = .next t →
    ∃ u, engineStep { s with mem := m } = .next u ∧ u = { t with mem := u.mem } ∧
      (∀ i, decode s.dev.cmd = some i → storesOf i { s with mem := m } = storesOf i s ∧
        (∀ a ∈ storesOf i s, u.mem.read a = t.mem.read a) ∧ ∀ a, a ∉ storesOf i s → u.mem.read a = m.read a) ∧
      (decode s.dev.cmd = none → u.mem = m)

/-- Rules R107, R110 and R111, and R260's count, with nothing else scheduled (log 5): an encode command that passes CHECK takes `L + 3` steps to `OK`,
leaves `Enc(p, K)` at the output and its length in `DST_CAP`, and changes nothing else the host can see. -/
def Obligations.EncodeCommandRun : Prop :=
  ∀ (s : State) (k : Nat) (out : List Byte),
    (decode s.dev.cmd = some .enc ∧ k = 1) ∨ (decode s.dev.cmd = some .encd ∧ k = 2) →
    s.schedule = [] → s.dev.ph = .check → s.mem.wf → s.plat.hostCoherent = true → s.dev.encReady s.plat k →
    out = encoded (s.mem.bytes s.dev.src s.dev.len) k →
    ∃ t, runSteps (s.dev.len + 3) s = .next t ∧
      t.dev.hostView = (s.dev.finishLen .ok out.length).hostView ∧
      t.mem.bytes s.dev.dst out.length = out ∧
      (∀ a, a < s.dev.dst ∨ s.dev.dst + out.length ≤ a → t.mem.read a = s.mem.read a) ∧
      t = { s with dev := t.dev, mem := t.mem }

/-- Rules R131, R139, R145, R146, and R260's count, with nothing else scheduled (log 5): a decode command that passes CHECK does what the walk over the
code groups says, in the steps it counts, errors and partial output included. -/
def Obligations.DecodeCommandRun : Prop :=
  ∀ (s : State) (strict : Bool) (d : Decoded),
    (decode s.dev.cmd = some .decs ∧ strict = true) ∨ (decode s.dev.cmd = some .decl ∧ strict = false) →
    s.schedule = [] → s.dev.ph = .check → s.mem.wf → s.plat.hostCoherent = true → s.dev.decReady s.plat →
    d = decoded strict (s.mem.bytes s.dev.src s.dev.len) →
    ∃ t, runSteps d.steps s = .next t ∧
      (∀ n, d.length = some n → t.dev.hostView = (s.dev.finishLen d.result n).hostView) ∧
      (d.length = none → t.dev.hostView = (s.dev.finish d.result).hostView) ∧
      t.mem.bytes s.dev.dst d.out.length = d.out ∧
      (∀ a, a < s.dev.dst ∨ s.dev.dst + d.out.length ≤ a → t.mem.read a = s.mem.read a) ∧
      t = { s with dev := t.dev, mem := t.mem }

/-- Rules R165, R169, R170, and R260's count, with nothing else scheduled (log 5): ENCIP over a buffer with correct sentinels does what the walk over the
payload's segments says, `BadPayload` and the partly backfilled buffer included. -/
def Obligations.InPlaceCommandRun : Prop :=
  ∀ (s : State) (r : ResultCode × List Byte),
    decode s.dev.cmd = some .encip → s.schedule = [] → s.dev.ph = .check → s.mem.wf →
    s.plat.hostCoherent = true → s.dev.ipReady s.plat →
    s.mem.read s.dev.src = s.plat.sentinel → s.mem.read (s.dev.src + s.dev.len - 1) = s.plat.sentinel →
    r = inPlaced s.plat.sentinel (s.mem.bytes (s.dev.src + 1) (s.dev.len - 2)) →
    ∃ n t, runSteps n s = .next t ∧ n ≤ s.dev.len + 1 ∧ (r.1 = .ok → n = s.dev.len + 1) ∧
      t.dev.hostView = (s.dev.finish r.1).hostView ∧
      t.mem.bytes s.dev.src s.dev.len = r.2 ∧
      (∀ a, a < s.dev.src ∨ s.dev.src + s.dev.len ≤ a → t.mem.read a = s.mem.read a) ∧
      t = { s with dev := t.dev, mem := t.mem }

/-- Rule R105: the exact size of the encoded bytes, that it is at most the required capacity, when it equals it, and
the size for a payload without zeros (the correction of conflict C1). -/
def Obligations.EncodedSize : Prop :=
  ∀ (p : List Byte) (k : Nat), k = 1 ∨ k = 2 →
    (encoded p k).length = p.length + 1 + ((segments p).map fun s => s.length / 254).sum + (k - 1) ∧
    (encoded p k).length ≤ p.length + p.length / 254 + k ∧
    p.length + p.length / 254 + k ≤ needEnc p.length k ∧
    ((encoded p k).length = needEnc p.length k ↔ (∀ x ∈ p, x ≠ 0x00) ∧ p.length % 254 = 0) ∧
    ((∀ x ∈ p, x ≠ 0x00) → (encoded p k).length = p.length + p.length / 254 + k)

/-- Rule R106: the encoded bytes hold no zero but ENCD's final delimiter. -/
def Obligations.NoInteriorZero : Prop :=
  ∀ p : List Byte, (∀ x ∈ encoded p 1, x ≠ 0x00) ∧ encoded p 2 = encoded p 1 ++ [0x00]

/-- Rule R108's boundary: 254 non-zero bytes and a zero are a full group, then a fresh code byte for each of the
empty runs. -/
def Obligations.FullGroupBoundary : Prop :=
  ∀ p : List Byte, p.length = 254 → (∀ x ∈ p, x ≠ 0x00) →
    encoded (p ++ [0x00]) 1 = 0xFF :: p ++ [0x01, 0x01] ∧ encoded p 1 = 0xFF :: p ++ [0x01]

/-- Rule R140: the round trips (a) to (d) of decoding with encoding. -/
def Obligations.RoundTrip : Prop :=
  ∀ p : List Byte,
    (∀ strict, (decoded strict (encoded p 1)).result = .ok ∧ (decoded strict (encoded p 1)).out = p ∧
      (decoded strict (encoded p 1)).length = some p.length) ∧
    ((decoded false (encoded p 2)).result = .eofInInput ∧
      (decoded false (encoded p 2)).length = some p.length ∧
      (decoded false (encoded p 2)).out.take p.length = p) ∧
    (decoded true (encoded p 2)).result = .zeroByteInInput ∧
    ((decoded true ((encoded p 2).take ((encoded p 2).length - 1))).result = .ok ∧
      (decoded true ((encoded p 2).take ((encoded p 2).length - 1))).out = p)

/-- Rules R165 and R166: ENCIP is `OK` exactly when every segment has at most 254 bytes, then leaves the frame of
R165, which has the buffer's length, and this always holds in buffers of at most 256 bytes. -/
def Obligations.InPlaceClosedForm : Prop :=
  ∀ (sentinel : Byte) (p : List Byte),
    ((inPlaced sentinel p).1 = .ok ↔ ∀ s ∈ segments p, s.length ≤ 254) ∧
    ((inPlaced sentinel p).1 ≠ .ok → (inPlaced sentinel p).1 = .badPayload) ∧
    ((inPlaced sentinel p).1 = .ok → (inPlaced sentinel p).2 = ipFrame p) ∧
    (inPlaced sentinel p).2.length = p.length + 2 ∧
    (p.length + 2 ≤ 256 → (inPlaced sentinel p).1 = .ok)

/-- Rule R167: up to the safe size ENCIP's frame is ENCD's, but for a payload of exactly 254 non-zero bytes. -/
def Obligations.InPlaceAgainstEncd : Prop :=
  ∀ p : List Byte, p.length + 2 ≤ 256 →
    (¬(p.length = 254 ∧ ∀ x ∈ p, x ≠ 0x00) → ipFrame p = encoded p 2) ∧
    (p.length = 254 → (∀ x ∈ p, x ≠ 0x00) →
      ipFrame p = 0xFF :: p ++ [0x00] ∧ encoded p 2 = 0xFF :: p ++ [0x01, 0x00])

/-- Rule R168 (and conflict C5): DECS of the frame without its delimiter, and DECL of the whole frame, give the
payload back if and only if no segment but the last has exactly 254 bytes, and so up to the safe size. -/
def Obligations.InPlaceInverse : Prop :=
  ∀ p : List Byte, (∀ s ∈ segments p, s.length ≤ 254) →
    (((decoded true ((ipFrame p).take (p.length + 1))).result = .ok ∧
        (decoded true ((ipFrame p).take (p.length + 1))).out = p ∧
        (decoded false (ipFrame p)).result = .eofInInput ∧
        (decoded false (ipFrame p)).length = some p.length ∧
        (decoded false (ipFrame p)).out.take p.length = p) ↔
      ∀ s ∈ (segments p).dropLast, s.length ≠ 254) ∧
    (p.length + 2 ≤ 256 → ∀ s ∈ (segments p).dropLast, s.length ≠ 254)

/-- Rules R200, R260 and R261: with nothing else scheduled (log 5), every accepted command that is not refused for its
buffers ends, within `2 L + 3` engine steps, with `BUSY = 0` and `DONE = 1`. -/
def Obligations.EveryCommandFinishes : Prop :=
  ∀ s : State, s.Inv → s.schedule = [] → s.dev.ph = .check → s.plat.hostCoherent = true →
    step s ≠ .refused .overlappingBuffers →
    ∃ n t, n ≤ 2 * s.dev.len + 3 ∧ runSteps n s = .next t ∧ t.dev.ph = .idle ∧ t.dev.busy = false ∧
      t.dev.done = true

/-- Rules R45, R50 and R214: what the internal registers hold when a command is accepted, or before, is never
observable: runs that differ only there show the host the same, under any schedule. -/
def Obligations.InternalsNeverObservable : Prop :=
  ∀ (s : State) (b : Block) (n : Nat), s.dev.ph = .idle ∨ s.dev.ph = .check → b.hostView = s.dev.hostView →
    outcomeView (runSteps n (s.withDev b)) = outcomeView (runSteps n s)

/-- Rules R47, R91 and R215: an idle machine with nothing scheduled does not change, an idle block takes no engine
step, and a host that waits for an idle block reads its `STATUS` and goes on (logs 5, 16, 17). -/
def Obligations.IdleTakesNoStep : Prop :=
  (∀ s : State, s.schedule = [] → (∀ b ∈ s.blocks, b.ph = .idle) → step s = .next s) ∧
  (∀ (s : State) (i : Instr), s.dev.ph = .idle → engineStep s = .next s ∧ exec i s = .next s) ∧
  (∀ (s t : State) (k : Nat) (rest : List Event), s.schedule = .wait k :: rest → s.focus k = some t →
    t.dev.ph = .idle → step s = .next { t with observed := t.dev.status :: t.observed, schedule := rest })

/-- Rule R252: what a host event of the schedule does. A scheduled host step is taken, and consumed; an aligned word
read or write in a window is the read or write of the register at its offset, of the block whose window it is (the
register statements say what that does), and so for the block in focus at its base and an offset; a register access that touches no window stops by name (log 15); and cache
maintenance makes the host's writes visible, and the bytes engines wrote but where a running command writes (log 10). -/
def Obligations.HostEventsTakeEffect : Prop :=
  (∀ (s : State) (h : HostAction) (rest : List Event), s.schedule = .host h :: rest →
    step s = hostStep h { s with schedule := rest }) ∧
  (∀ (s t : State) (v : Word) (a k : Nat),
    s.blocks.findIdx? (fun b => b.windowTouched a 4) = some k → s.focus k = some t → a % 4 = 0 →
    hostStep (.regWrite a 4 v) s = writeRegister t (a - t.dev.codecBase.toNat) v ∧
    hostStep (.regRead a 4) s =
      .next { t with observed := t.dev.readReg (a - t.dev.codecBase.toNat) :: t.observed }) ∧
  (∀ (s : State) (v : Word) (off : Nat), off < 0x40 → off % 4 = 0 → s.dev.codecBase.toNat % 4 = 0 →
    (∀ c ∈ s.left, c.windowTouched (s.dev.codecBase.toNat + off) 4 = false) →
    hostStep (.regWrite (s.dev.codecBase.toNat + off) 4 v) s = writeRegister s off v ∧
    hostStep (.regRead (s.dev.codecBase.toNat + off) 4) s =
      .next { s with observed := s.dev.readReg off :: s.observed }) ∧
  (∀ (s : State) (v : Word) (a width : Nat), (∀ b ∈ s.blocks, b.windowTouched a width = false) →
    hostStep (.regRead a width) s = .fault .outsideWindow ∧
    hostStep (.regWrite a width v) s = .fault .outsideWindow) ∧
  (∀ s : State, ∃ l, hostStep .cacheMaintenance s = .next { s with hostDirty := [], engineDirty := l } ∧
    ∀ a, a ∈ l ↔ a ∈ s.engineDirty ∧ ∃ b ∈ s.blocks, b.busy = true ∧ b.outExtent.has a = true)
end

