-- ==== Sys2Proof/Laws/State.lean ====
section
/-! SUPPORT. One lemma per field per update of State and of Block, each by rfl, so that no later proof unfolds a
record update. -/

namespace Sys2Proof.Machine

-- accept
@[simp] theorem Block.accept_codecBase (b : Block) (v : Word) (u : List Nat) : (b.accept v u).codecBase = b.codecBase := rfl
@[simp] theorem Block.accept_cmd (b : Block) (v : Word) (u : List Nat) : (b.accept v u).cmd = v := rfl
@[simp] theorem Block.accept_busy (b : Block) (v : Word) (u : List Nat) : (b.accept v u).busy = true := rfl
@[simp] theorem Block.accept_done (b : Block) (v : Word) (u : List Nat) : (b.accept v u).done = false := rfl
@[simp] theorem Block.accept_result (b : Block) (v : Word) (u : List Nat) : (b.accept v u).result = .ok := rfl
@[simp] theorem Block.accept_ie (b : Block) (v : Word) (u : List Nat) : (b.accept v u).ie = b.ie := rfl
@[simp] theorem Block.accept_srcAddr (b : Block) (v : Word) (u : List Nat) : (b.accept v u).srcAddr = b.srcAddr := rfl
@[simp] theorem Block.accept_srcLen (b : Block) (v : Word) (u : List Nat) : (b.accept v u).srcLen = b.srcLen := rfl
@[simp] theorem Block.accept_dstAddr (b : Block) (v : Word) (u : List Nat) : (b.accept v u).dstAddr = b.dstAddr := rfl
@[simp] theorem Block.accept_dstCap (b : Block) (v : Word) (u : List Nat) : (b.accept v u).dstCap = b.dstCap := rfl
@[simp] theorem Block.accept_ph (b : Block) (v : Word) (u : List Nat) : (b.accept v u).ph = .check := rfl
@[simp] theorem Block.accept_rd (b : Block) (v : Word) (u : List Nat) : (b.accept v u).rd = b.rd := rfl
@[simp] theorem Block.accept_wr (b : Block) (v : Word) (u : List Nat) : (b.accept v u).wr = b.wr := rfl
@[simp] theorem Block.accept_cp (b : Block) (v : Word) (u : List Nat) : (b.accept v u).cp = b.cp := rfl
@[simp] theorem Block.accept_code (b : Block) (v : Word) (u : List Nat) : (b.accept v u).code = b.code := rfl
@[simp] theorem Block.accept_cnt (b : Block) (v : Word) (u : List Nat) : (b.accept v u).cnt = b.cnt := rfl
@[simp] theorem Block.accept_zp (b : Block) (v : Word) (u : List Nat) : (b.accept v u).zp = b.zp := rfl
@[simp] theorem Block.accept_unseen (b : Block) (v : Word) (u : List Nat) : (b.accept v u).unseen = u := rfl

-- finish
@[simp] theorem Block.finish_codecBase (b : Block) (r : ResultCode) : (b.finish r).codecBase = b.codecBase := rfl
@[simp] theorem Block.finish_cmd (b : Block) (r : ResultCode) : (b.finish r).cmd = b.cmd := rfl
@[simp] theorem Block.finish_busy (b : Block) (r : ResultCode) : (b.finish r).busy = false := rfl
@[simp] theorem Block.finish_done (b : Block) (r : ResultCode) : (b.finish r).done = true := rfl
@[simp] theorem Block.finish_result (b : Block) (r : ResultCode) : (b.finish r).result = r := rfl
@[simp] theorem Block.finish_ie (b : Block) (r : ResultCode) : (b.finish r).ie = b.ie := rfl
@[simp] theorem Block.finish_srcAddr (b : Block) (r : ResultCode) : (b.finish r).srcAddr = b.srcAddr := rfl
@[simp] theorem Block.finish_srcLen (b : Block) (r : ResultCode) : (b.finish r).srcLen = b.srcLen := rfl
@[simp] theorem Block.finish_dstAddr (b : Block) (r : ResultCode) : (b.finish r).dstAddr = b.dstAddr := rfl
@[simp] theorem Block.finish_dstCap (b : Block) (r : ResultCode) : (b.finish r).dstCap = b.dstCap := rfl
@[simp] theorem Block.finish_ph (b : Block) (r : ResultCode) : (b.finish r).ph = .idle := rfl
@[simp] theorem Block.finish_rd (b : Block) (r : ResultCode) : (b.finish r).rd = b.rd := rfl
@[simp] theorem Block.finish_wr (b : Block) (r : ResultCode) : (b.finish r).wr = b.wr := rfl
@[simp] theorem Block.finish_cp (b : Block) (r : ResultCode) : (b.finish r).cp = b.cp := rfl
@[simp] theorem Block.finish_code (b : Block) (r : ResultCode) : (b.finish r).code = b.code := rfl
@[simp] theorem Block.finish_cnt (b : Block) (r : ResultCode) : (b.finish r).cnt = b.cnt := rfl
@[simp] theorem Block.finish_zp (b : Block) (r : ResultCode) : (b.finish r).zp = b.zp := rfl
@[simp] theorem Block.finish_unseen (b : Block) (r : ResultCode) : (b.finish r).unseen = b.unseen := rfl

-- finishLen
@[simp] theorem Block.finishLen_codecBase (b : Block) (r : ResultCode) (n : Nat) : (b.finishLen r n).codecBase = b.codecBase := rfl
@[simp] theorem Block.finishLen_cmd (b : Block) (r : ResultCode) (n : Nat) : (b.finishLen r n).cmd = b.cmd := rfl
@[simp] theorem Block.finishLen_busy (b : Block) (r : ResultCode) (n : Nat) : (b.finishLen r n).busy = false := rfl
@[simp] theorem Block.finishLen_done (b : Block) (r : ResultCode) (n : Nat) : (b.finishLen r n).done = true := rfl
@[simp] theorem Block.finishLen_result (b : Block) (r : ResultCode) (n : Nat) : (b.finishLen r n).result = r := rfl
@[simp] theorem Block.finishLen_ie (b : Block) (r : ResultCode) (n : Nat) : (b.finishLen r n).ie = b.ie := rfl
@[simp] theorem Block.finishLen_srcAddr (b : Block) (r : ResultCode) (n : Nat) : (b.finishLen r n).srcAddr = b.srcAddr := rfl
@[simp] theorem Block.finishLen_srcLen (b : Block) (r : ResultCode) (n : Nat) : (b.finishLen r n).srcLen = b.srcLen := rfl
@[simp] theorem Block.finishLen_dstAddr (b : Block) (r : ResultCode) (n : Nat) : (b.finishLen r n).dstAddr = b.dstAddr := rfl
@[simp] theorem Block.finishLen_dstCap (b : Block) (r : ResultCode) (n : Nat) : (b.finishLen r n).dstCap = BitVec.ofNat 32 n := rfl
@[simp] theorem Block.finishLen_ph (b : Block) (r : ResultCode) (n : Nat) : (b.finishLen r n).ph = .idle := rfl
@[simp] theorem Block.finishLen_rd (b : Block) (r : ResultCode) (n : Nat) : (b.finishLen r n).rd = b.rd := rfl
@[simp] theorem Block.finishLen_wr (b : Block) (r : ResultCode) (n : Nat) : (b.finishLen r n).wr = b.wr := rfl
@[simp] theorem Block.finishLen_cp (b : Block) (r : ResultCode) (n : Nat) : (b.finishLen r n).cp = b.cp := rfl
@[simp] theorem Block.finishLen_code (b : Block) (r : ResultCode) (n : Nat) : (b.finishLen r n).code = b.code := rfl
@[simp] theorem Block.finishLen_cnt (b : Block) (r : ResultCode) (n : Nat) : (b.finishLen r n).cnt = b.cnt := rfl
@[simp] theorem Block.finishLen_zp (b : Block) (r : ResultCode) (n : Nat) : (b.finishLen r n).zp = b.zp := rfl
@[simp] theorem Block.finishLen_unseen (b : Block) (r : ResultCode) (n : Nat) : (b.finishLen r n).unseen = b.unseen := rfl

-- writeStatus
@[simp] theorem Block.writeStatus_codecBase (b : Block) (v : Word) : (b.writeStatus v).codecBase = b.codecBase := rfl
@[simp] theorem Block.writeStatus_cmd (b : Block) (v : Word) : (b.writeStatus v).cmd = b.cmd := rfl
@[simp] theorem Block.writeStatus_busy (b : Block) (v : Word) : (b.writeStatus v).busy = b.busy := rfl
@[simp] theorem Block.writeStatus_done (b : Block) (v : Word) : (b.writeStatus v).done = (b.done && !v.getLsbD 1) := rfl
@[simp] theorem Block.writeStatus_result (b : Block) (v : Word) : (b.writeStatus v).result = b.result := rfl
@[simp] theorem Block.writeStatus_ie (b : Block) (v : Word) : (b.writeStatus v).ie = b.ie := rfl
@[simp] theorem Block.writeStatus_srcAddr (b : Block) (v : Word) : (b.writeStatus v).srcAddr = b.srcAddr := rfl
@[simp] theorem Block.writeStatus_srcLen (b : Block) (v : Word) : (b.writeStatus v).srcLen = b.srcLen := rfl
@[simp] theorem Block.writeStatus_dstAddr (b : Block) (v : Word) : (b.writeStatus v).dstAddr = b.dstAddr := rfl
@[simp] theorem Block.writeStatus_dstCap (b : Block) (v : Word) : (b.writeStatus v).dstCap = b.dstCap := rfl
@[simp] theorem Block.writeStatus_ph (b : Block) (v : Word) : (b.writeStatus v).ph = b.ph := rfl
@[simp] theorem Block.writeStatus_rd (b : Block) (v : Word) : (b.writeStatus v).rd = b.rd := rfl
@[simp] theorem Block.writeStatus_wr (b : Block) (v : Word) : (b.writeStatus v).wr = b.wr := rfl
@[simp] theorem Block.writeStatus_cp (b : Block) (v : Word) : (b.writeStatus v).cp = b.cp := rfl
@[simp] theorem Block.writeStatus_code (b : Block) (v : Word) : (b.writeStatus v).code = b.code := rfl
@[simp] theorem Block.writeStatus_cnt (b : Block) (v : Word) : (b.writeStatus v).cnt = b.cnt := rfl
@[simp] theorem Block.writeStatus_zp (b : Block) (v : Word) : (b.writeStatus v).zp = b.zp := rfl
@[simp] theorem Block.writeStatus_unseen (b : Block) (v : Word) : (b.writeStatus v).unseen = b.unseen := rfl

-- writeCtrl
@[simp] theorem Block.writeCtrl_codecBase (b : Block) (v : Word) : (b.writeCtrl v).codecBase = b.codecBase := rfl
@[simp] theorem Block.writeCtrl_cmd (b : Block) (v : Word) : (b.writeCtrl v).cmd = b.cmd := rfl
@[simp] theorem Block.writeCtrl_busy (b : Block) (v : Word) : (b.writeCtrl v).busy = b.busy := rfl
@[simp] theorem Block.writeCtrl_done (b : Block) (v : Word) : (b.writeCtrl v).done = b.done := rfl
@[simp] theorem Block.writeCtrl_result (b : Block) (v : Word) : (b.writeCtrl v).result = b.result := rfl
@[simp] theorem Block.writeCtrl_ie (b : Block) (v : Word) : (b.writeCtrl v).ie = v.getLsbD 0 := rfl
@[simp] theorem Block.writeCtrl_srcAddr (b : Block) (v : Word) : (b.writeCtrl v).srcAddr = b.srcAddr := rfl
@[simp] theorem Block.writeCtrl_srcLen (b : Block) (v : Word) : (b.writeCtrl v).srcLen = b.srcLen := rfl
@[simp] theorem Block.writeCtrl_dstAddr (b : Block) (v : Word) : (b.writeCtrl v).dstAddr = b.dstAddr := rfl
@[simp] theorem Block.writeCtrl_dstCap (b : Block) (v : Word) : (b.writeCtrl v).dstCap = b.dstCap := rfl
@[simp] theorem Block.writeCtrl_ph (b : Block) (v : Word) : (b.writeCtrl v).ph = b.ph := rfl
@[simp] theorem Block.writeCtrl_rd (b : Block) (v : Word) : (b.writeCtrl v).rd = b.rd := rfl
@[simp] theorem Block.writeCtrl_wr (b : Block) (v : Word) : (b.writeCtrl v).wr = b.wr := rfl
@[simp] theorem Block.writeCtrl_cp (b : Block) (v : Word) : (b.writeCtrl v).cp = b.cp := rfl
@[simp] theorem Block.writeCtrl_code (b : Block) (v : Word) : (b.writeCtrl v).code = b.code := rfl
@[simp] theorem Block.writeCtrl_cnt (b : Block) (v : Word) : (b.writeCtrl v).cnt = b.cnt := rfl
@[simp] theorem Block.writeCtrl_zp (b : Block) (v : Word) : (b.writeCtrl v).zp = b.zp := rfl
@[simp] theorem Block.writeCtrl_unseen (b : Block) (v : Word) : (b.writeCtrl v).unseen = b.unseen := rfl

-- withDev
@[simp] theorem State.withDev_plat (s : State) (b : Block) : (s.withDev b).plat = s.plat := rfl
@[simp] theorem State.withDev_left (s : State) (b : Block) : (s.withDev b).left = s.left := rfl
@[simp] theorem State.withDev_dev (s : State) (b : Block) : (s.withDev b).dev = b := rfl
@[simp] theorem State.withDev_right (s : State) (b : Block) : (s.withDev b).right = s.right := rfl
@[simp] theorem State.withDev_mem (s : State) (b : Block) : (s.withDev b).mem = s.mem := rfl
@[simp] theorem State.withDev_hostDirty (s : State) (b : Block) : (s.withDev b).hostDirty = s.hostDirty := rfl
@[simp] theorem State.withDev_engineDirty (s : State) (b : Block) : (s.withDev b).engineDirty = s.engineDirty := rfl
@[simp] theorem State.withDev_observed (s : State) (b : Block) : (s.withDev b).observed = s.observed := rfl
@[simp] theorem State.withDev_draws (s : State) (b : Block) : (s.withDev b).draws = s.draws := rfl
@[simp] theorem State.withDev_schedule (s : State) (b : Block) : (s.withDev b).schedule = s.schedule := rfl

-- poke
@[simp] theorem State.poke_plat (s : State) (a : Nat) (v : Byte) : (s.poke a v).plat = s.plat := rfl
@[simp] theorem State.poke_left (s : State) (a : Nat) (v : Byte) : (s.poke a v).left = s.left := rfl
@[simp] theorem State.poke_dev (s : State) (a : Nat) (v : Byte) : (s.poke a v).dev = s.dev := rfl
@[simp] theorem State.poke_right (s : State) (a : Nat) (v : Byte) : (s.poke a v).right = s.right := rfl
@[simp] theorem State.poke_mem (s : State) (a : Nat) (v : Byte) : (s.poke a v).mem = s.mem.write a v := rfl
@[simp] theorem State.poke_hostDirty (s : State) (a : Nat) (v : Byte) : (s.poke a v).hostDirty = s.hostDirty := rfl
@[simp] theorem State.poke_engineDirty (s : State) (a : Nat) (v : Byte) : (s.poke a v).engineDirty = (if s.plat.hostCoherent then s.engineDirty else insertAddr a s.engineDirty) := rfl
@[simp] theorem State.poke_observed (s : State) (a : Nat) (v : Byte) : (s.poke a v).observed = s.observed := rfl
@[simp] theorem State.poke_draws (s : State) (a : Nat) (v : Byte) : (s.poke a v).draws = s.draws := rfl
@[simp] theorem State.poke_schedule (s : State) (a : Nat) (v : Byte) : (s.poke a v).schedule = s.schedule := rfl

-- finish
@[simp] theorem State.finish_plat (s : State) (r : ResultCode) : (s.finish r).plat = s.plat := rfl
@[simp] theorem State.finish_left (s : State) (r : ResultCode) : (s.finish r).left = s.left := rfl
@[simp] theorem State.finish_dev (s : State) (r : ResultCode) : (s.finish r).dev = s.dev.finish r := rfl
@[simp] theorem State.finish_right (s : State) (r : ResultCode) : (s.finish r).right = s.right := rfl
@[simp] theorem State.finish_mem (s : State) (r : ResultCode) : (s.finish r).mem = s.mem := rfl
@[simp] theorem State.finish_hostDirty (s : State) (r : ResultCode) : (s.finish r).hostDirty = s.hostDirty := rfl
@[simp] theorem State.finish_engineDirty (s : State) (r : ResultCode) : (s.finish r).engineDirty = s.engineDirty := rfl
@[simp] theorem State.finish_observed (s : State) (r : ResultCode) : (s.finish r).observed = s.observed := rfl
@[simp] theorem State.finish_draws (s : State) (r : ResultCode) : (s.finish r).draws = s.draws := rfl
@[simp] theorem State.finish_schedule (s : State) (r : ResultCode) : (s.finish r).schedule = s.schedule := rfl

-- finishLen
@[simp] theorem State.finishLen_plat (s : State) (r : ResultCode) (n : Nat) : (s.finishLen r n).plat = s.plat := rfl
@[simp] theorem State.finishLen_left (s : State) (r : ResultCode) (n : Nat) : (s.finishLen r n).left = s.left := rfl
@[simp] theorem State.finishLen_dev (s : State) (r : ResultCode) (n : Nat) : (s.finishLen r n).dev = s.dev.finishLen r n := rfl
@[simp] theorem State.finishLen_right (s : State) (r : ResultCode) (n : Nat) : (s.finishLen r n).right = s.right := rfl
@[simp] theorem State.finishLen_mem (s : State) (r : ResultCode) (n : Nat) : (s.finishLen r n).mem = s.mem := rfl
@[simp] theorem State.finishLen_hostDirty (s : State) (r : ResultCode) (n : Nat) : (s.finishLen r n).hostDirty = s.hostDirty := rfl
@[simp] theorem State.finishLen_engineDirty (s : State) (r : ResultCode) (n : Nat) : (s.finishLen r n).engineDirty = s.engineDirty := rfl
@[simp] theorem State.finishLen_observed (s : State) (r : ResultCode) (n : Nat) : (s.finishLen r n).observed = s.observed := rfl
@[simp] theorem State.finishLen_draws (s : State) (r : ResultCode) (n : Nat) : (s.finishLen r n).draws = s.draws := rfl
@[simp] theorem State.finishLen_schedule (s : State) (r : ResultCode) (n : Nat) : (s.finishLen r n).schedule = s.schedule := rfl

-- accept
@[simp] theorem State.accept_plat (s : State) (v : Word) : (s.accept v).plat = s.plat := rfl
@[simp] theorem State.accept_left (s : State) (v : Word) : (s.accept v).left = s.left := rfl
@[simp] theorem State.accept_dev (s : State) (v : Word) : (s.accept v).dev = s.dev.accept v (if s.plat.hostCoherent then [] else s.hostDirty) := rfl
@[simp] theorem State.accept_right (s : State) (v : Word) : (s.accept v).right = s.right := rfl
@[simp] theorem State.accept_mem (s : State) (v : Word) : (s.accept v).mem = s.mem := rfl
@[simp] theorem State.accept_hostDirty (s : State) (v : Word) : (s.accept v).hostDirty = s.hostDirty := rfl
@[simp] theorem State.accept_engineDirty (s : State) (v : Word) : (s.accept v).engineDirty = s.engineDirty := rfl
@[simp] theorem State.accept_observed (s : State) (v : Word) : (s.accept v).observed = s.observed := rfl
@[simp] theorem State.accept_draws (s : State) (v : Word) : (s.accept v).draws = s.draws := rfl
@[simp] theorem State.accept_schedule (s : State) (v : Word) : (s.accept v).schedule = s.schedule := rfl

-- issue
@[simp] theorem State.issue_plat (s : State) (w : Word) : (s.issue w).plat = s.plat := rfl
@[simp] theorem State.issue_left (s : State) (w : Word) : (s.issue w).left = s.left := rfl
@[simp] theorem State.issue_dev (s : State) (w : Word) : (s.issue w).dev = s.dev.accept w (if s.plat.hostCoherent then [] else s.hostDirty) := rfl
@[simp] theorem State.issue_right (s : State) (w : Word) : (s.issue w).right = s.right := rfl
@[simp] theorem State.issue_mem (s : State) (w : Word) : (s.issue w).mem = s.mem := rfl
@[simp] theorem State.issue_hostDirty (s : State) (w : Word) : (s.issue w).hostDirty = s.hostDirty := rfl
@[simp] theorem State.issue_engineDirty (s : State) (w : Word) : (s.issue w).engineDirty = s.engineDirty := rfl
@[simp] theorem State.issue_observed (s : State) (w : Word) : (s.issue w).observed = s.observed := rfl
@[simp] theorem State.issue_draws (s : State) (w : Word) : (s.issue w).draws = s.draws := rfl
@[simp] theorem State.issue_schedule (s : State) (w : Word) : (s.issue w).schedule = [] := rfl

-- observe
@[simp] theorem State.observe_plat (s : State) (v : Word) : (s.observe v).plat = s.plat := rfl
@[simp] theorem State.observe_left (s : State) (v : Word) : (s.observe v).left = s.left := rfl
@[simp] theorem State.observe_dev (s : State) (v : Word) : (s.observe v).dev = s.dev := rfl
@[simp] theorem State.observe_right (s : State) (v : Word) : (s.observe v).right = s.right := rfl
@[simp] theorem State.observe_mem (s : State) (v : Word) : (s.observe v).mem = s.mem := rfl
@[simp] theorem State.observe_hostDirty (s : State) (v : Word) : (s.observe v).hostDirty = s.hostDirty := rfl
@[simp] theorem State.observe_engineDirty (s : State) (v : Word) : (s.observe v).engineDirty = s.engineDirty := rfl
@[simp] theorem State.observe_observed (s : State) (v : Word) : (s.observe v).observed = v :: s.observed := rfl
@[simp] theorem State.observe_draws (s : State) (v : Word) : (s.observe v).draws = s.draws := rfl
@[simp] theorem State.observe_schedule (s : State) (v : Word) : (s.observe v).schedule = s.schedule := rfl

-- maintain
@[simp] theorem State.maintain_plat (s : State) : (s.maintain).plat = s.plat := rfl
@[simp] theorem State.maintain_left (s : State) : (s.maintain).left = s.left := rfl
@[simp] theorem State.maintain_dev (s : State) : (s.maintain).dev = s.dev := rfl
@[simp] theorem State.maintain_right (s : State) : (s.maintain).right = s.right := rfl
@[simp] theorem State.maintain_mem (s : State) : (s.maintain).mem = s.mem := rfl
@[simp] theorem State.maintain_hostDirty (s : State) : (s.maintain).hostDirty = [] := rfl
@[simp] theorem State.maintain_engineDirty (s : State) : (s.maintain).engineDirty = s.engineDirty.filter fun a => s.busyWrites a := rfl
@[simp] theorem State.maintain_observed (s : State) : (s.maintain).observed = s.observed := rfl
@[simp] theorem State.maintain_draws (s : State) : (s.maintain).draws = s.draws := rfl
@[simp] theorem State.maintain_schedule (s : State) : (s.maintain).schedule = s.schedule := rfl

-- resetAll
@[simp] theorem State.resetAll_plat (s : State) : (s.resetAll).plat = s.plat := rfl
@[simp] theorem State.resetAll_left (s : State) : (s.resetAll).left = s.left.map fun b => Block.reset b.codecBase := rfl
@[simp] theorem State.resetAll_dev (s : State) : (s.resetAll).dev = Block.reset s.dev.codecBase := rfl
@[simp] theorem State.resetAll_right (s : State) : (s.resetAll).right = s.right.map fun b => Block.reset b.codecBase := rfl
@[simp] theorem State.resetAll_mem (s : State) : (s.resetAll).mem = s.mem := rfl
@[simp] theorem State.resetAll_hostDirty (s : State) : (s.resetAll).hostDirty = s.hostDirty := rfl
@[simp] theorem State.resetAll_engineDirty (s : State) : (s.resetAll).engineDirty = s.engineDirty := rfl
@[simp] theorem State.resetAll_observed (s : State) : (s.resetAll).observed = s.observed := rfl
@[simp] theorem State.resetAll_draws (s : State) : (s.resetAll).draws = s.draws := rfl
@[simp] theorem State.resetAll_schedule (s : State) : (s.resetAll).schedule = s.schedule := rfl

/-- `withFetchWord` is the acceptance of the word, with nothing scheduled. -/
theorem State.withFetchWord_eq_issue (s : State) (nbits w : Nat) :
    s.withFetchWord nbits w = s.issue (BitVec.ofNat 32 (w % 2 ^ nbits)) := rfl

@[simp] theorem State.withDev_withDev (s : State) (b c : Block) : (s.withDev b).withDev c = s.withDev c := rfl

@[simp] theorem State.withDev_dev_self (s : State) : s.withDev s.dev = s := rfl

end Sys2Proof.Machine
end

