-- ==== Sys2Proof/Laws/Memory.lean ====
section
/-! SUPPORT. The laws of memory: reading what was written, and the canonical form (20_memory.md rules R62, R63). -/

namespace Sys2Proof.Machine

theorem Memory.read_nil (a : Nat) : Memory.read [] a = Memory.blank := rfl

theorem Memory.read_cons (c : Host.Cell) (m : Memory) (a : Nat) :
    Memory.read (c :: m) a = if c.1 = a then c.2 else Memory.read m a := rfl

theorem Memory.read_of_not_listed {m : Memory} {a : Nat} (h : ∀ c ∈ m, c.1 ≠ a) : m.read a = Memory.blank := by
  induction m with
  | nil => rfl
  | cons c m ih =>
    rw [Memory.read_cons, if_neg (h c (by simp))]
    exact ih fun d hd => h d (by simp [hd])

/-- A write leaves every other address alone, in any list (rule R63). -/
theorem Memory.read_write_other (m : Memory) {a x : Nat} (v : Byte) (h : x ≠ a) :
    (m.write a v).read x = m.read x := by
  induction m with
  | nil => unfold Memory.write; split <;> simp [Memory.read, Ne.symm h]
  | cons c m ih =>
    unfold Memory.write
    split
    · split <;> simp [Memory.read, Ne.symm h]
    · split
      · rename_i hc
        split <;> simp [Memory.read, ← hc, Ne.symm h]
      · simp [Memory.read, ih]

theorem Memory.wf_tail {c : Host.Cell} {m : Memory} (h : Memory.wf (c :: m)) : Memory.wf m :=
  ⟨(List.pairwise_cons.1 h.1).2, fun d hd => h.2 d (by simp [hd])⟩

theorem Memory.wf_head_lt {c : Host.Cell} {m : Memory} (h : Memory.wf (c :: m)) : ∀ d ∈ m, c.1 < d.1 :=
  (List.pairwise_cons.1 h.1).1

/-- A read after a write of the same address gives the value written (rule R63). -/
theorem Memory.read_write_same {m : Memory} (h : m.wf) (a : Nat) (v : Byte) : (m.write a v).read a = v := by
  induction m with
  | nil =>
    unfold Memory.write
    split
    · next hv => rw [hv]; rfl
    · simp [Memory.read]
  | cons c m ih =>
    have hlt := Memory.wf_head_lt h
    unfold Memory.write
    split
    · next hac =>
      split
      · next hv =>
        rw [hv]
        refine Memory.read_of_not_listed fun d hd => ?_
        rcases List.mem_cons.1 hd with rfl | hd
        · omega
        · have := hlt d hd; omega
      · simp [Memory.read]
    · split
      · next hac =>
        split
        · next hv =>
          rw [hv]
          refine Memory.read_of_not_listed fun d hd => ?_
          have := hlt d hd; omega
        · simp [Memory.read]
      · next hac =>
        rw [Memory.read_cons, if_neg (fun e => hac e.symm)]
        exact ih (Memory.wf_tail h)

theorem Memory.mem_write {m : Memory} {a : Nat} {v : Byte} {c : Host.Cell} (h : c ∈ m.write a v) :
    c ∈ m ∨ (c = (a, v) ∧ v ≠ Memory.blank) := by
  induction m with
  | nil =>
    unfold Memory.write at h
    split at h
    · simp at h
    · next hv => exact .inr ⟨by simpa using h, hv⟩
  | cons d m ih =>
    unfold Memory.write at h
    split at h
    · split at h
      · exact .inl h
      · next hv =>
        rcases List.mem_cons.1 h with rfl | h
        · exact .inr ⟨rfl, hv⟩
        · exact .inl h
    · split at h
      · split at h
        · exact .inl (List.mem_cons_of_mem _ h)
        · next hv =>
          rcases List.mem_cons.1 h with rfl | h
          · exact .inr ⟨rfl, hv⟩
          · exact .inl (List.mem_cons_of_mem _ h)
      · rcases List.mem_cons.1 h with rfl | h
        · exact .inl (by simp)
        · exact (ih h).imp (List.mem_cons_of_mem _) id

/-- A write inside the address space keeps the canonical form. -/
theorem Memory.wf_write {m : Memory} (h : m.wf) {a : Nat} (ha : a < addrSpace) (v : Byte) : (m.write a v).wf := by
  refine ⟨?_, fun c hc => ?_⟩
  · induction m with
    | nil => unfold Memory.write; split <;> simp
    | cons c m ih =>
      have hlt := Memory.wf_head_lt h
      have ht := Memory.wf_tail h
      unfold Memory.write
      split
      · next hac =>
        split
        · exact h.1
        · refine List.pairwise_cons.2 ⟨fun d hd => ?_, h.1⟩
          rcases List.mem_cons.1 hd with rfl | hd
          · exact hac
          · exact lt_trans hac (hlt d hd)
      · split
        · next hac =>
          split
          · exact ht.1
          · exact List.pairwise_cons.2 ⟨fun d hd => by rw [hac]; exact hlt d hd, ht.1⟩
        · refine List.pairwise_cons.2 ⟨fun d hd => ?_, ih ht⟩
          rcases Memory.mem_write hd with hd | ⟨rfl, -⟩
          · exact hlt d hd
          · show c.1 < a; omega
  · rcases Memory.mem_write hc with hc | ⟨rfl, hv⟩
    · exact h.2 c hc
    · exact ⟨ha, hv⟩

@[simp] theorem Memory.bytes_zero (m : Memory) (base : Nat) : m.bytes base 0 = [] := rfl

theorem Memory.bytes_succ (m : Memory) (base n : Nat) :
    m.bytes base (n + 1) = m.read base :: m.bytes (base + 1) n := rfl

@[simp] theorem Memory.bytes_length (m : Memory) (base n : Nat) : (m.bytes base n).length = n := by
  induction n generalizing base with
  | zero => rfl
  | succ n ih => simp [Memory.bytes_succ, ih]

/-- The byte at index `i` of a buffer at `base` is the byte at address `base + i` (rule R67). -/
theorem Memory.bytes_getElem? (m : Memory) (base n i : Nat) (h : i < n) :
    (m.bytes base n)[i]? = some (m.read (base + i)) := by
  induction n generalizing base i with
  | zero => omega
  | succ n ih =>
    cases i with
    | zero => simp [Memory.bytes_succ]
    | succ i =>
      simp only [Memory.bytes_succ, List.getElem?_cons_succ]
      rw [ih (base + 1) i (by omega)]
      congr 2; omega

/-- Two memories that read alike over a range hold the same bytes there. -/
theorem Memory.bytes_congr {m n : Memory} (base k : Nat) (h : ∀ i < k, m.read (base + i) = n.read (base + i)) :
    m.bytes base k = n.bytes base k := by
  induction k generalizing base with
  | zero => rfl
  | succ k ih =>
    rw [Memory.bytes_succ, Memory.bytes_succ, ← Nat.add_zero base, h 0 (by omega)]
    congr 1
    refine ih _ fun i hi => ?_
    have := h (i + 1) (by omega)
    simpa [Nat.add_assoc, Nat.add_comm 1 i] using this

end Sys2Proof.Machine
end

