-- ==== Sys2Proof/Laws/Operands.lean ====
section
/-! SUPPORT. The laws of extents and of the tests on them (20_memory.md rules R64, R65, R77). -/

namespace Sys2Proof.Machine

theorem disjoint_iff (a n b m : Nat) :
    disjoint a n b m = true ↔ n = 0 ∨ m = 0 ∨ a + n ≤ b ∨ b + m ≤ a := by
  simp [disjoint, or_assoc]

theorem disjoint_comm (a n b m : Nat) : disjoint a n b m = disjoint b m a n := by
  rw [Bool.eq_iff_iff, disjoint_iff, disjoint_iff]; tauto

end Sys2Proof.Machine

namespace Sys2Proof

theorem Region.has_iff (r : Region) (a : Nat) : r.has a = true ↔ r.base ≤ a ∧ a < r.base + r.size := by
  simp [Region.has]

theorem Region.meets_comm (r q : Region) : r.meets q = q.meets r := by
  simp only [Region.meets]; rw [Machine.disjoint_comm]

/-- Regions that do not meet share no address. -/
theorem Region.not_has_of_not_meets {r q : Region} (h : r.meets q = false) {a : Nat} (ha : r.has a = true) :
    q.has a = false := by
  rw [Region.has_iff] at ha
  have h' : Machine.disjoint r.base r.size q.base q.size = true := by simpa [Region.meets] using h
  rw [Machine.disjoint_iff] at h'
  by_contra hq
  have hq' := (Region.has_iff q a).1 (by simpa using hq)
  omega

end Sys2Proof

namespace Sys2Proof.Machine

theorem Block.conflicts_comm (b c : Block) : b.conflicts c = c.conflicts b := by
  simp only [Block.conflicts, Region.meets_comm b.outExtent, Region.meets_comm b.inExtent]
  cases c.inExtent.meets b.outExtent <;> cases c.outExtent.meets b.outExtent <;>
    cases c.outExtent.meets b.inExtent <;> rfl

theorem dmaOk_iff (p : Platform) (a : Nat) :
    dmaOk p a = true ↔ a < addrSpace ∧ ∀ h ∈ p.dmaHoles, h.has a = false := by
  simp [dmaOk]

theorem dmaOk_lt {p : Platform} {a : Nat} (h : dmaOk p a = true) : a < addrSpace := ((dmaOk_iff p a).1 h).1

theorem extentOk_empty (p : Platform) (base : Nat) : extentOk p base 0 = true := by simp [extentOk]

/-- Every address of an OK extent may be accessed (rule R65, the direction accesses rely on). -/
theorem dmaOk_of_extentOk {p : Platform} {base n a : Nat} (h : extentOk p base n = true)
    (hl : base ≤ a) (hu : a < base + n) : dmaOk p a = true := by
  simp only [extentOk, Bool.or_eq_true, beq_iff_eq, Bool.and_eq_true, decide_eq_true_eq, Bool.not_eq_true',
    List.any_eq_false] at h
  rcases h with h | ⟨h1, h2⟩
  · omega
  · refine (dmaOk_iff p a).2 ⟨by omega, fun q hq => ?_⟩
    refine Region.not_has_of_not_meets (r := ⟨base, n⟩) (by simpa using h2 q hq) ?_
    rw [Region.has_iff]; exact ⟨hl, hu⟩

/-- `E.WR` of the encoder never passes the required capacity (rules R66, R105). -/
theorem le_needEnc (len k : Nat) : len + len / 254 + k ≤ needEnc len k := by
  simp only [needEnc, ceilDiv]; omega

end Sys2Proof.Machine
end

