-- ==== Sys2Proof/Laws/Ops.lean ====
section
/-! SUPPORT. What each shared operation can answer, said once (Machine/Ops.lean). -/

namespace Sys2Proof.Machine

@[simp] theorem andThen_next {α β : Type} (a : α) (f : α → Host.Outcome β Fault Refusal) :
    andThen (.next a) f = f a := rfl
@[simp] theorem andThen_fault {α β : Type} (r : Fault) (f : α → Host.Outcome β Fault Refusal) :
    andThen (.fault r) f = .fault r := rfl
@[simp] theorem andThen_refused {α β : Type} (r : Refusal) (f : α → Host.Outcome β Fault Refusal) :
    andThen (.refused r) f = .refused r := rfl

theorem andThen_eq_next {α β : Type} {o : Host.Outcome α Fault Refusal} {f : α → Host.Outcome β Fault Refusal}
    {b : β} : andThen o f = .next b ↔ ∃ a, o = .next a ∧ f a = .next b := by
  cases o <;> simp

theorem andThen_eq_fault {α β : Type} {o : Host.Outcome α Fault Refusal} {f : α → Host.Outcome β Fault Refusal}
    {r : Fault} : andThen o f = .fault r ↔ o = .fault r ∨ ∃ a, o = .next a ∧ f a = .fault r := by
  cases o <;> simp

theorem andThen_eq_refused {α β : Type} {o : Host.Outcome α Fault Refusal} {f : α → Host.Outcome β Fault Refusal}
    {r : Refusal} : andThen o f = .refused r ↔ o = .refused r ∨ ∃ a, o = .next a ∧ f a = .refused r := by
  cases o <;> simp

/-- Everything `MemRead` can answer (rule R62). -/
theorem memRead_cases (s : State) (a : Nat) :
    (dmaOk s.plat a = false ∧ memRead s a = .fault .dmaViolation) ∨
    (dmaOk s.plat a = true ∧ s.incoherentAt a = true ∧ memRead s a = .refused .incoherentBuffers) ∨
    (dmaOk s.plat a = true ∧ s.incoherentAt a = false ∧ memRead s a = .next (s.mem.read a)) := by
  unfold memRead
  cases h : dmaOk s.plat a <;> cases h' : s.incoherentAt a <;> simp

theorem memRead_eq_next {s : State} {a : Nat} {x : Byte} :
    memRead s a = .next x ↔ dmaOk s.plat a = true ∧ s.incoherentAt a = false ∧ x = s.mem.read a := by
  rcases memRead_cases s a with ⟨h, e⟩ | ⟨h, h', e⟩ | ⟨h, h', e⟩
  · simp [e, h]
  · simp [e, h']
  · simp only [e, h, h', Host.Outcome.next.injEq, true_and]; exact eq_comm

/-- Everything `MemWrite` can answer (rule R63). -/
theorem memWrite_cases (s : State) (a : Nat) (v : Byte) :
    (dmaOk s.plat a = false ∧ memWrite s a v = .fault .dmaViolation) ∨
    (dmaOk s.plat a = true ∧ s.incoherentAt a = true ∧ memWrite s a v = .refused .incoherentBuffers) ∨
    (dmaOk s.plat a = true ∧ s.incoherentAt a = false ∧ memWrite s a v = .next (s.poke a v)) := by
  unfold memWrite
  cases h : dmaOk s.plat a <;> cases h' : s.incoherentAt a <;> simp

theorem memWrite_eq_next {s t : State} {a : Nat} {v : Byte} :
    memWrite s a v = .next t ↔ dmaOk s.plat a = true ∧ s.incoherentAt a = false ∧ t = s.poke a v := by
  rcases memWrite_cases s a v with ⟨h, e⟩ | ⟨h, h', e⟩ | ⟨h, h', e⟩
  · simp [e, h]
  · simp [e, h']
  · simp only [e, h, h', Host.Outcome.next.injEq, true_and]; exact eq_comm

@[simp] theorem State.poke_incoherentAt (s : State) (a x : Nat) (v : Byte) :
    (s.poke a v).incoherentAt x = s.incoherentAt x := rfl

/-- Where host and engines see one memory, no access is incoherent (rule R72). -/
theorem State.incoherentAt_of_coherent {s : State} (h : s.plat.hostCoherent = true) (a : Nat) :
    s.incoherentAt a = false := by simp [State.incoherentAt, h]

/-- What a set of addresses with one more holds. -/
theorem mem_insertAddr {a x : Nat} {l : List Nat} : x ∈ insertAddr a l ↔ x = a ∨ x ∈ l := by
  induction l with
  | nil => simp [insertAddr]
  | cons b l ih =>
    simp only [insertAddr]
    split
    · simp
    · split
      · next h => subst h; simp
      · simp [ih]; tauto

/-- A write of one byte changes no other byte (rule R63). -/
theorem State.read_poke_other (s : State) {a x : Nat} (v : Byte) (h : x ≠ a) :
    (s.poke a v).mem.read x = s.mem.read x := Memory.read_write_other _ _ h

/-- A write of one byte is read back (rule R63). -/
theorem State.read_poke_same {s : State} (h : s.mem.wf) (a : Nat) (v : Byte) :
    (s.poke a v).mem.read a = v := Memory.read_write_same h _ _

/-- Two writes change no byte but theirs. -/
theorem State.read_poke_poke_other (s : State) {a b x : Nat} (v w : Byte) (ha : x ≠ a) (hb : x ≠ b) :
    ((s.poke a v).poke b w).mem.read x = s.mem.read x := by
  rw [State.read_poke_other _ _ hb, State.read_poke_other _ _ ha]

/-- Everything moving the focus can do: the blocks stay as they are, and so does all else. -/
theorem State.focus_cases (s : State) (k : Nat) :
    (s.focus k = none ∧ s.blocks.length ≤ k) ∨
    (∃ t, s.focus k = some t ∧ t.blocks = s.blocks ∧ s.blocks[k]? = some t.dev ∧ t.left.length = k ∧
      t.plat = s.plat ∧ t.mem = s.mem ∧ t.hostDirty = s.hostDirty ∧ t.engineDirty = s.engineDirty ∧
      t.observed = s.observed ∧ t.draws = s.draws ∧ t.schedule = s.schedule) := by
  unfold State.focus
  cases h : s.blocks.drop k with
  | nil => exact .inl ⟨rfl, by simpa using h⟩
  | cons b r =>
    have hk : k < s.blocks.length := by
      by_contra hk
      rw [List.drop_eq_nil_of_le (by omega)] at h
      cases h
    refine .inr ⟨_, rfl, ?_, ?_, ?_, rfl, rfl, rfl, rfl, rfl, rfl, rfl⟩
    · show s.blocks.take k ++ b :: r = s.blocks
      rw [← h]; exact List.take_append_drop k s.blocks
    · have := congrArg List.head? h
      simpa [List.head?_drop] using this
    · simp; omega

/-- The block already in focus stays in focus. -/
theorem State.focus_self (s : State) : s.focus s.left.length = some s := by
  unfold State.focus State.blocks
  simp

theorem State.mem_blocks {s : State} {b : Block} : b ∈ s.blocks ↔ b = s.dev ∨ b ∈ s.others := by
  simp [State.blocks, State.others]; tauto

end Sys2Proof.Machine
end

