-- ==== Sys2Proof/Laws/Commands.lean ====
section
/-! SUPPORT. What each phase step can do, said once: if it answers `next t`, one of these cases holds
(rules R102 to R104, R132 to R134, R162 to R164). Later proofs cite these and unfold no meaning. -/

namespace Sys2Proof.Machine

theorem encCheck_cases {k : Nat} {hp : Bool} {s t : State} (h : encCheck k hp s = .next t) :
    (hp = false ∧ t = s.finish .outputBufferNull) ∨
    (hp = true ∧ s.dev.cap < needEnc s.dev.len k ∧ t = s.finish .badOutputLength) ∨
    (hp = true ∧ needEnc s.dev.len k ≤ s.dev.cap ∧ (extentOk s.plat s.dev.src s.dev.len = false ∨
      extentOk s.plat s.dev.dst (needEnc s.dev.len k) = false) ∧ t = s.finish .busError) ∨
    (hp = true ∧ s.dev.encReady s.plat k ∧
      t = s.withDev { s.dev with rd := 0, cp := 0, wr := 1, code := 1, ph := .eRun }) := by
  unfold encCheck at h
  simp only [Bool.not_eq_true', Bool.or_eq_true] at h
  split at h
  · next hp0 => exact .inl ⟨hp0, by simpa using h.symm⟩
  · next hp1 =>
    have hp1 : hp = true := by simpa using hp1
    split at h
    · next hc => exact .inr (.inl ⟨hp1, hc, by simpa using h.symm⟩)
    · next hc =>
      split at h
      · next he => exact .inr (.inr (.inl ⟨hp1, by omega, he, by simpa using h.symm⟩))
      · next he =>
        split at h
        · cases h
        · next hd =>
          simp only [not_or, Bool.not_eq_false] at he hd
          exact .inr (.inr (.inr ⟨hp1, ⟨by omega, he.1, he.2, hd⟩, by simpa using h.symm⟩))

theorem encRun_cases {s t : State} (h : encRun s = .next t) :
    (s.dev.rd = s.dev.len ∧ t = s.withDev { s.dev with ph := .eFin }) ∨
    (s.dev.rd ≠ s.dev.len ∧ s.mem.read (s.dev.src + s.dev.rd) = delim ∧
      t = (s.poke (s.dev.dst + s.dev.cp) s.dev.code).withDev
        { s.dev with rd := s.dev.rd + 1, cp := s.dev.wr, wr := s.dev.wr + 1, code := 1 }) ∨
    (s.dev.rd ≠ s.dev.len ∧ s.mem.read (s.dev.src + s.dev.rd) ≠ delim ∧ s.dev.code + 1 = fullCode ∧
      t = ((s.poke (s.dev.dst + s.dev.wr) (s.mem.read (s.dev.src + s.dev.rd))).poke
        (s.dev.dst + s.dev.cp) fullCode).withDev
        { s.dev with rd := s.dev.rd + 1, cp := s.dev.wr + 1, wr := s.dev.wr + 2, code := 1 }) ∨
    (s.dev.rd ≠ s.dev.len ∧ s.mem.read (s.dev.src + s.dev.rd) ≠ delim ∧ s.dev.code + 1 ≠ fullCode ∧
      t = (s.poke (s.dev.dst + s.dev.wr) (s.mem.read (s.dev.src + s.dev.rd))).withDev
        { s.dev with rd := s.dev.rd + 1, wr := s.dev.wr + 1, code := s.dev.code + 1 }) := by
  unfold encRun at h
  simp only at h
  split at h
  · next hr => exact .inl ⟨hr, by simpa using h.symm⟩
  · next hr =>
    obtain ⟨x, hx, h⟩ := andThen_eq_next.1 h
    obtain ⟨-, -, rfl⟩ := memRead_eq_next.1 hx
    split at h
    · next hz =>
      obtain ⟨u, hu, h⟩ := andThen_eq_next.1 h
      obtain ⟨-, -, rfl⟩ := memWrite_eq_next.1 hu
      exact .inr (.inl ⟨hr, hz, by simpa using h.symm⟩)
    · next hz =>
      obtain ⟨u, hu, h⟩ := andThen_eq_next.1 h
      obtain ⟨-, -, rfl⟩ := memWrite_eq_next.1 hu
      split at h
      · next hf =>
        obtain ⟨v, hv, h⟩ := andThen_eq_next.1 h
        obtain ⟨-, -, rfl⟩ := memWrite_eq_next.1 hv
        exact .inr (.inr (.inl ⟨hr, hz, hf, by simpa using h.symm⟩))
      · next hf => exact .inr (.inr (.inr ⟨hr, hz, hf, by simpa using h.symm⟩))

theorem encFin_cases {k : Nat} {s t : State} (h : encFin k s = .next t) :
    (k = 2 ∧ t = (((s.poke (s.dev.dst + s.dev.cp) s.dev.code).poke (s.dev.dst + s.dev.wr) delim).withDev
      { s.dev with wr := s.dev.wr + 1 }).finishLen .ok (s.dev.wr + 1)) ∨
    (k ≠ 2 ∧ t = (s.poke (s.dev.dst + s.dev.cp) s.dev.code).finishLen .ok s.dev.wr) := by
  unfold encFin at h
  simp only at h
  obtain ⟨u, hu, h⟩ := andThen_eq_next.1 h
  obtain ⟨-, -, rfl⟩ := memWrite_eq_next.1 hu
  split at h
  · next hk =>
    obtain ⟨v, hv, h⟩ := andThen_eq_next.1 h
    obtain ⟨-, -, rfl⟩ := memWrite_eq_next.1 hv
    exact .inl ⟨hk, by simpa using h.symm⟩
  · next hk => exact .inr ⟨hk, by simpa using h.symm⟩

theorem decCheck_cases {hp : Bool} {s t : State} (h : decCheck hp s = .next t) :
    (hp = false ∧ t = s.finish .outputBufferNull) ∨
    (hp = true ∧ s.dev.cap < needDec s.dev.len ∧ t = s.finish .badOutputLength) ∨
    (hp = true ∧ needDec s.dev.len ≤ s.dev.cap ∧ (extentOk s.plat s.dev.src s.dev.len = false ∨
      extentOk s.plat s.dev.dst (needDec s.dev.len) = false) ∧ t = s.finish .busError) ∨
    (hp = true ∧ s.dev.decReady s.plat ∧
      t = s.withDev { s.dev with rd := 0, wr := 0, zp := false, ph := .dCode }) := by
  unfold decCheck at h
  simp only [Bool.not_eq_true', Bool.or_eq_true] at h
  split at h
  · next hp0 => exact .inl ⟨hp0, by simpa using h.symm⟩
  · next hp1 =>
    have hp1 : hp = true := by simpa using hp1
    split at h
    · next hc => exact .inr (.inl ⟨hp1, hc, by simpa using h.symm⟩)
    · next hc =>
      split at h
      · next he => exact .inr (.inr (.inl ⟨hp1, by omega, he, by simpa using h.symm⟩))
      · next he =>
        split at h
        · cases h
        · next hd =>
          simp only [not_or, Bool.not_eq_false] at he hd
          exact .inr (.inr (.inr ⟨hp1, ⟨by omega, he.1, he.2, hd⟩, by simpa using h.symm⟩))

theorem decCode_cases {strict : Bool} {s t : State} (h : decCode strict s = .next t) :
    (s.dev.rd = s.dev.len ∧ t = s.finishLen .ok s.dev.wr) ∨
    (s.dev.rd ≠ s.dev.len ∧ s.mem.read (s.dev.src + s.dev.rd) = delim ∧ strict = true ∧
      t = s.finish .zeroByteInInput) ∨
    (s.dev.rd ≠ s.dev.len ∧ s.mem.read (s.dev.src + s.dev.rd) = delim ∧ strict = false ∧
      t = s.finishLen .eofInInput (s.dev.wr - s.dev.zp.toNat)) ∨
    (s.dev.rd ≠ s.dev.len ∧ s.mem.read (s.dev.src + s.dev.rd) ≠ delim ∧
      s.dev.len < s.dev.rd + (s.mem.read (s.dev.src + s.dev.rd)).toNat ∧
      s.mem.read (s.dev.src + s.dev.rd) ≠ 1 ∧ t = s.finish .zeroBeyondBuffer) ∨
    (s.dev.rd ≠ s.dev.len ∧ s.mem.read (s.dev.src + s.dev.rd) ≠ delim ∧
      (s.dev.rd + (s.mem.read (s.dev.src + s.dev.rd)).toNat ≤ s.dev.len ∨
        s.mem.read (s.dev.src + s.dev.rd) = 1) ∧
      t = s.withDev { s.dev with
        code := s.mem.read (s.dev.src + s.dev.rd), cnt := s.mem.read (s.dev.src + s.dev.rd) - 1
        rd := s.dev.rd + 1, zp := false, ph := .dCopy }) := by
  unfold decCode at h
  simp only at h
  split at h
  · next hr => exact .inl ⟨hr, by simpa using h.symm⟩
  · next hr =>
    obtain ⟨x, hx, h⟩ := andThen_eq_next.1 h
    obtain ⟨-, -, rfl⟩ := memRead_eq_next.1 hx
    split at h
    · next hz =>
      split at h
      · next hs => exact .inr (.inl ⟨hr, hz, hs, by simpa using h.symm⟩)
      · next hs => exact .inr (.inr (.inl ⟨hr, hz, by simpa using hs, by simpa using h.symm⟩))
    · next hz =>
      split at h
      · next hf => exact .inr (.inr (.inr (.inl ⟨hr, hz, hf.1, hf.2, by simpa using h.symm⟩)))
      · next hf =>
        refine .inr (.inr (.inr (.inr ⟨hr, hz, ?_, by simpa using h.symm⟩)))
        rw [not_and_or, not_not] at hf
        exact hf.imp (by omega) id

theorem decCopy_cases {s t : State} (h : decCopy s = .next t) :
    (s.dev.cnt ≠ 0 ∧ t = (s.poke (s.dev.dst + s.dev.wr) (s.mem.read (s.dev.src + s.dev.rd))).withDev
      { s.dev with rd := s.dev.rd + 1, wr := s.dev.wr + 1, cnt := s.dev.cnt - 1 }) ∨
    (s.dev.cnt = 0 ∧ s.dev.code ≠ fullCode ∧ s.dev.rd ≠ s.dev.len ∧
      t = (s.poke (s.dev.dst + s.dev.wr) delim).withDev
        { s.dev with wr := s.dev.wr + 1, zp := true, ph := .dCode }) ∨
    (s.dev.cnt = 0 ∧ (s.dev.code = fullCode ∨ s.dev.rd = s.dev.len) ∧
      t = s.withDev { s.dev with ph := .dCode }) := by
  unfold decCopy at h
  simp only at h
  split at h
  · next hc =>
    obtain ⟨x, hx, h⟩ := andThen_eq_next.1 h
    obtain ⟨-, -, rfl⟩ := memRead_eq_next.1 hx
    obtain ⟨u, hu, h⟩ := andThen_eq_next.1 h
    obtain ⟨-, -, rfl⟩ := memWrite_eq_next.1 hu
    exact .inl ⟨hc, by simpa using h.symm⟩
  · next hc =>
    rw [not_not] at hc
    split at h
    · next hz =>
      obtain ⟨u, hu, h⟩ := andThen_eq_next.1 h
      obtain ⟨-, -, rfl⟩ := memWrite_eq_next.1 hu
      exact .inr (.inl ⟨hc, hz.1, hz.2, by simpa using h.symm⟩)
    · next hz =>
      rw [not_and_or, not_not, not_not] at hz
      exact .inr (.inr ⟨hc, hz, by simpa using h.symm⟩)

theorem ipCheck_cases {hp : Bool} {s t : State} (h : ipCheck hp s = .next t) :
    (hp = false ∧ t = s.finish .outputBufferNull) ∨
    (hp = true ∧ s.dev.len < 2 ∧ t = s.finish .badOutputLength) ∨
    (hp = true ∧ 2 ≤ s.dev.len ∧ extentOk s.plat s.dev.src s.dev.len = false ∧ t = s.finish .busError) ∨
    (hp = true ∧ s.dev.ipReady s.plat ∧ (s.mem.read s.dev.src ≠ s.plat.sentinel ∨
      s.mem.read (s.dev.src + s.dev.len - 1) ≠ s.plat.sentinel) ∧ t = s.finish .badPayload) ∨
    (hp = true ∧ s.dev.ipReady s.plat ∧ s.mem.read s.dev.src = s.plat.sentinel ∧
      s.mem.read (s.dev.src + s.dev.len - 1) = s.plat.sentinel ∧
      t = s.withDev { s.dev with cp := 0, rd := 1, ph := .iScan }) := by
  unfold ipCheck at h
  simp only [Bool.not_eq_true'] at h
  split at h
  · next hp0 => exact .inl ⟨hp0, by simpa using h.symm⟩
  · next hp1 =>
    have hp1 : hp = true := by simpa using hp1
    split at h
    · next hc => exact .inr (.inl ⟨hp1, hc, by simpa using h.symm⟩)
    · next hc =>
      split at h
      · next he => exact .inr (.inr (.inl ⟨hp1, by omega, he, by simpa using h.symm⟩))
      · next he =>
        have he : extentOk s.plat s.dev.src s.dev.len = true := by simpa using he
        obtain ⟨x, hx, h⟩ := andThen_eq_next.1 h
        obtain ⟨-, -, rfl⟩ := memRead_eq_next.1 hx
        obtain ⟨y, hy, h⟩ := andThen_eq_next.1 h
        obtain ⟨-, -, rfl⟩ := memRead_eq_next.1 hy
        split at h
        · next hb =>
          exact .inr (.inr (.inr (.inl ⟨hp1, ⟨by omega, he⟩, hb, by simpa using h.symm⟩)))
        · next hb =>
          rw [not_or, not_not, not_not] at hb
          exact .inr (.inr (.inr (.inr ⟨hp1, ⟨by omega, he⟩, hb.1, hb.2, by simpa using h.symm⟩)))

theorem ipScan_cases {s t : State} (h : ipScan s = .next t) :
    (s.dev.rd < s.dev.len - 1 ∧ s.mem.read (s.dev.src + s.dev.rd) = delim ∧
      ipMaxOffset < s.dev.rd - s.dev.cp ∧ t = s.finish .badPayload) ∨
    (s.dev.rd < s.dev.len - 1 ∧ s.mem.read (s.dev.src + s.dev.rd) = delim ∧
      s.dev.rd - s.dev.cp ≤ ipMaxOffset ∧
      t = (s.poke (s.dev.src + s.dev.cp) (BitVec.ofNat 8 (s.dev.rd - s.dev.cp))).withDev
        { s.dev with cp := s.dev.rd, rd := s.dev.rd + 1 }) ∨
    (s.dev.rd < s.dev.len - 1 ∧ s.mem.read (s.dev.src + s.dev.rd) ≠ delim ∧
      t = s.withDev { s.dev with rd := s.dev.rd + 1 }) ∨
    (s.dev.len - 1 ≤ s.dev.rd ∧ t = s.withDev { s.dev with ph := .iFin }) := by
  unfold ipScan at h
  simp only at h
  split at h
  · next hr =>
    obtain ⟨x, hx, h⟩ := andThen_eq_next.1 h
    obtain ⟨-, -, rfl⟩ := memRead_eq_next.1 hx
    split at h
    · next hz =>
      split at h
      · next ho => exact .inl ⟨hr, hz, ho, by simpa using h.symm⟩
      · next ho =>
        obtain ⟨u, hu, h⟩ := andThen_eq_next.1 h
        obtain ⟨-, -, rfl⟩ := memWrite_eq_next.1 hu
        exact .inr (.inl ⟨hr, hz, by omega, by simpa using h.symm⟩)
    · next hz => exact .inr (.inr (.inl ⟨hr, hz, by simpa using h.symm⟩))
  · next hr => exact .inr (.inr (.inr ⟨by omega, by simpa using h.symm⟩))

theorem ipFin_cases {s t : State} (h : ipFin s = .next t) :
    (ipMaxOffset < s.dev.rd - s.dev.cp ∧ t = s.finish .badPayload) ∨
    (s.dev.rd - s.dev.cp ≤ ipMaxOffset ∧
      t = ((s.poke (s.dev.src + s.dev.cp) (BitVec.ofNat 8 (s.dev.rd - s.dev.cp))).poke
        (s.dev.src + s.dev.len - 1) delim).finish .ok) := by
  unfold ipFin at h
  simp only at h
  split at h
  · next ho => exact .inl ⟨ho, by simpa using h.symm⟩
  · next ho =>
    obtain ⟨u, hu, h⟩ := andThen_eq_next.1 h
    obtain ⟨-, -, rfl⟩ := memWrite_eq_next.1 hu
    obtain ⟨v, hv, h⟩ := andThen_eq_next.1 h
    obtain ⟨-, -, rfl⟩ := memWrite_eq_next.1 hv
    exact .inr ⟨by omega, by simpa using h.symm⟩

/-- The delimiter constant `K` and the handle bit of an encode command. -/
theorem exec_enc (s : State) : exec .enc s = encStep 1 true s := rfl
theorem exec_encNohp (s : State) : exec .encNohp s = encStep 1 false s := rfl
theorem exec_encd (s : State) : exec .encd s = encStep 2 true s := rfl
theorem exec_encdNohp (s : State) : exec .encdNohp s = encStep 2 false s := rfl
theorem exec_decs (s : State) : exec .decs s = decStep true true s := rfl
theorem exec_decsNohp (s : State) : exec .decsNohp s = decStep true false s := rfl
theorem exec_decl (s : State) : exec .decl s = decStep false true s := rfl
theorem exec_declNohp (s : State) : exec .declNohp s = decStep false false s := rfl
theorem exec_encip (s : State) : exec .encip s = ipStep true s := rfl
theorem exec_encipNohp (s : State) : exec .encipNohp s = ipStep false s := rfl

end Sys2Proof.Machine
end

