-- ==== Sys2Proof/Laws/PerInstr.lean ====
section
/-! SUPPORT. Statements made of each command: its word is legal and holds its fields (30_encoding.md rules R81, R84). -/

namespace Sys2Proof.Laws

/-- The command is well formed, and the fields of its word are its fields. -/
def WordFields.Statement (i : Instr) : Prop := i.wellFormed = true ∧ Cmdw.ofWord (encode i) = i.fields

theorem WordFields.enc : WordFields.Statement .enc := by unfold WordFields.Statement; decide
theorem WordFields.encNohp : WordFields.Statement .encNohp := by unfold WordFields.Statement; decide
theorem WordFields.encd : WordFields.Statement .encd := by unfold WordFields.Statement; decide
theorem WordFields.encdNohp : WordFields.Statement .encdNohp := by unfold WordFields.Statement; decide
theorem WordFields.decs : WordFields.Statement .decs := by unfold WordFields.Statement; decide
theorem WordFields.decsNohp : WordFields.Statement .decsNohp := by unfold WordFields.Statement; decide
theorem WordFields.decl : WordFields.Statement .decl := by unfold WordFields.Statement; decide
theorem WordFields.declNohp : WordFields.Statement .declNohp := by unfold WordFields.Statement; decide
theorem WordFields.encip : WordFields.Statement .encip := by unfold WordFields.Statement; decide
theorem WordFields.encipNohp : WordFields.Statement .encipNohp := by unfold WordFields.Statement; decide

end Sys2Proof.Laws
end

