-- ==== Sys2Proof/Laws/Run.lean ====
section
/-! SUPPORT. Steps and runs of the machine, and the host's steps. -/

namespace Sys2Proof.Machine

/-- A block that is not idle, with nothing scheduled, takes its engine step (rule R261). -/
theorem step_progress {s : State} (hs : s.schedule = []) (he : s.dev.ph ≠ .idle) : step s = engineStep s := by
  have : s.dev.enabled = true := by simpa [Block.enabled] using he
  simp [step, machineStep, hs, progress, this]

/-- The engine step of a legal command is its meaning. -/
theorem engineStep_of_decode {s : State} {i : Instr} (he : s.dev.ph ≠ .idle) (hd : decode s.dev.cmd = some i) :
    engineStep s = exec i s := by
  have : s.dev.enabled = true := by simpa [Block.enabled] using he
  simp [engineStep, this, hd]

/-- An idle block takes no engine step (rules R47, R215). -/
theorem engineStep_idle {s : State} (he : s.dev.ph = .idle) : engineStep s = .next s := by
  simp [engineStep, Block.enabled, he]

@[simp] theorem runSteps_zero (s : State) : runSteps 0 s = .next s := rfl

theorem runSteps_succ (n : Nat) (s : State) : runSteps (n + 1) s = andThen (step s) (runSteps n) := rfl

theorem coreRun_next (M : Host.Core) (n : Nat) {s t : M.State} (h : M.step s = .next t) :
    M.run (n + 1) s = M.run n t := by rw [Host.Core.run, h]

theorem coreRun_fault (M : Host.Core) (n : Nat) {s : M.State} {r : M.Fault} (h : M.step s = .fault r) :
    M.run (n + 1) s = .fault r := by rw [Host.Core.run, h]

theorem coreRun_refused (M : Host.Core) (n : Nat) {s : M.State} {r : M.Refusal} (h : M.step s = .refused r) :
    M.run (n + 1) s = .refused r := by rw [Host.Core.run, h]

/-- A run is the host interface's run of the machine. -/
theorem runSteps_eq_core_run (n : Nat) (s : State) : runSteps n s = Host.Core.run Sys2Proof.core n s := by
  induction n generalizing s with
  | zero => rfl
  | succ n ih =>
    rw [runSteps_succ]
    cases h : step s with
    | next t => exact (ih t).trans (coreRun_next core n h).symm
    | fault r => exact (coreRun_fault core n h).symm
    | refused r => exact (coreRun_refused core n h).symm

/-- A run of `m + n` steps is a run of `m` and then one of `n`. -/
theorem runSteps_add (m n : Nat) (s : State) :
    runSteps (m + n) s = andThen (runSteps m s) (runSteps n) := by
  induction m generalizing s with
  | zero => simp
  | succ m ih =>
    rw [Nat.add_right_comm, runSteps_succ, runSteps_succ]
    cases step s with
    | next t => exact ih t
    | fault r => rfl
    | refused r => rfl

/-- Everything a register access can do (rules R30, R31, R252). -/
theorem regAccess_cases (s : State) (a : Nat) (width : Nat)
    (f : State → Nat → Host.Outcome State Fault Refusal) :
    ((∀ b ∈ s.blocks, b.windowTouched a width = false) ∧ regAccess s a width f = .fault .outsideWindow) ∨
    (∃ k t, s.blocks.findIdx? (fun b => b.windowTouched a width) = some k ∧ s.focus k = some t ∧
      t.dev.windowTouched a width = true ∧
      ((width = 4 ∧ a % 4 = 0 ∧ regAccess s a width f = f t (a - t.dev.codecBase.toNat)) ∨
       (¬(width = 4 ∧ a % 4 = 0) ∧
        regAccess s a width f = .refused .narrowOrMisalignedRegisterAccess))) := by
  unfold regAccess
  cases h : s.blocks.findIdx? (fun b => b.windowTouched a width) with
  | none => exact .inl ⟨by simpa [List.findIdx?_eq_none_iff] using h, rfl⟩
  | some k =>
    right
    obtain ⟨hk, hw, -⟩ := List.findIdx?_eq_some_iff_getElem.1 h
    rcases State.focus_cases s k with ⟨-, hl⟩ | ⟨t, ht, -, hd, -⟩
    · omega
    · refine ⟨k, t, rfl, ht, ?_, ?_⟩
      · rw [List.getElem?_eq_getElem hk] at hd
        rw [← Option.some.inj hd]; exact hw
      · simp only [ht]
        by_cases hc : width = 4 ∧ a % 4 = 0
        · exact .inl ⟨hc.1, hc.2, by simp [hc]⟩
        · exact .inr ⟨hc, by simp [hc]⟩

/-- Everything a host read of a byte can do (rules R60, R72, R252 (c), (e), R255). -/
theorem hostMemRead_cases (s : State) (a : Nat) :
    (s.inWindow a = true ∧ hostMemRead s a = .refused .narrowOrMisalignedRegisterAccess) ∨
    (s.inWindow a = false ∧ addrSpace ≤ a ∧ hostMemRead s a = .fault .outsideMemory) ∨
    (s.inWindow a = false ∧ a < addrSpace ∧ s.busyWrites a = true ∧ hostMemRead s a =
      .next { s with observed := (Config.freeByte s.draws).setWidth 32 :: s.observed, draws := s.draws + 1 }) ∨
    (s.inWindow a = false ∧ a < addrSpace ∧ s.busyWrites a = false ∧ s.plat.hostCoherent = false ∧
      s.engineDirty.contains a = true ∧ hostMemRead s a = .refused .incoherentBuffers) ∨
    (s.inWindow a = false ∧ a < addrSpace ∧ s.busyWrites a = false ∧
      (s.plat.hostCoherent = true ∨ s.engineDirty.contains a = false) ∧
      hostMemRead s a = .next { s with observed := (s.mem.read a).setWidth 32 :: s.observed }) := by
  unfold hostMemRead
  cases hw : s.inWindow a with
  | true => exact .inl ⟨rfl, by simp⟩
  | false =>
    by_cases ha : addrSpace ≤ a
    · exact .inr (.inl ⟨rfl, ha, by simp [ha]⟩)
    · have ha' : a < addrSpace := by omega
      cases hb : s.busyWrites a with
      | true => exact .inr (.inr (.inl ⟨rfl, ha', rfl, by simp [ha, State.observe]⟩))
      | false =>
        cases hc : s.plat.hostCoherent with
        | true => exact .inr (.inr (.inr (.inr ⟨rfl, ha', rfl, .inl rfl, by simp [ha, State.observe]⟩)))
        | false =>
          cases hd : s.engineDirty.contains a with
          | true => exact .inr (.inr (.inr (.inl ⟨rfl, ha', rfl, rfl, rfl, by simp [ha]⟩)))
          | false => exact .inr (.inr (.inr (.inr ⟨rfl, ha', rfl, .inr rfl, by simp [ha, State.observe]⟩)))

/-- Everything a host write of a byte can do (rules R60, R72, R252 (d), (e), R255 (a)). -/
theorem hostMemWrite_cases (s : State) (a : Nat) (v : Byte) :
    (s.inWindow a = true ∧ hostMemWrite s a v = .refused .narrowOrMisalignedRegisterAccess) ∨
    (s.inWindow a = false ∧ addrSpace ≤ a ∧ hostMemWrite s a v = .fault .outsideMemory) ∨
    (s.inWindow a = false ∧ a < addrSpace ∧ s.busyTouches a = true ∧
      hostMemWrite s a v = .refused .hostWriteToBusyExtent) ∨
    (s.inWindow a = false ∧ a < addrSpace ∧ s.busyTouches a = false ∧ hostMemWrite s a v =
      .next { s with
        mem := s.mem.write a v
        hostDirty := if s.plat.hostCoherent then s.hostDirty else insertAddr a s.hostDirty }) := by
  unfold hostMemWrite
  cases hw : s.inWindow a with
  | true => exact .inl ⟨rfl, by simp⟩
  | false =>
    by_cases ha : addrSpace ≤ a
    · exact .inr (.inl ⟨rfl, ha, by simp [ha]⟩)
    · have ha' : a < addrSpace := by omega
      cases hb : s.busyTouches a with
      | true => exact .inr (.inr (.inl ⟨rfl, ha', rfl, by simp [ha]⟩))
      | false => exact .inr (.inr (.inr ⟨rfl, ha', rfl, by simp [ha]⟩))

/-- Everything a write to `CMD` can do (rules R38, R48, R256). -/
theorem writeCmd_cases (s : State) (v : Word) :
    (s.dev.busy = true ∧ writeCmd s v = .next s) ∨
    (s.dev.busy = false ∧ (∃ c ∈ s.others, c.busy = true ∧ (s.accept v).dev.conflicts c = true) ∧
      writeCmd s v = .refused .instancesShareExtent) ∨
    (s.dev.busy = false ∧ (∀ c ∈ s.others, c.busy = true → (s.accept v).dev.conflicts c = false) ∧
      writeCmd s v = .next (s.accept v)) := by
  unfold writeCmd
  cases hb : s.dev.busy with
  | true => exact .inl ⟨rfl, by simp⟩
  | false =>
    cases hc : s.others.any fun c => c.busy && (s.accept v).dev.conflicts c with
    | true =>
      refine .inr (.inl ⟨rfl, ?_, by simp⟩)
      simpa [List.any_eq_true, Bool.and_eq_true] using hc
    | false =>
      refine .inr (.inr ⟨rfl, fun c hm hcb => ?_, by simp⟩)
      have := List.any_eq_false.1 hc c hm
      simpa [hcb] using this

end Sys2Proof.Machine
end

