-- ==== Sys2Proof/Machine/HostProgram.lean ====
section
/-! DEFINITION. The host program notation (30_encoding.md rules R91, R92): what each line makes the host do, as
events of the schedule, and the encoding of a program. -/

namespace Sys2Proof.Machine

/-- One line of a host program for one block (rule R91). A comment line has no effect and no constructor. -/
inductive HostLine where
  /-- `WR <REG>, <value>`, the register by its offset. -/
  | wr (off : Nat) (v : Word)
  /-- `WR CMD, <mnemonic>`. -/
  | wrCmd (i : Instr)
  /-- `RD <REG> -> <name>`. -/
  | rd (off : Nat)
  /-- `WAIT`. -/
  | wait
  /-- `MEMW <addr>, [<bytes>]`. -/
  | memw (a : Word) (bytes : List Byte)
  /-- `MEMR <addr>, <n> -> <name>`. -/
  | memr (a : Word) (n : Nat)
  /-- `RUN <word>`, the pseudo-operation of rule R92. -/
  | run (w : Word)
deriving DecidableEq, Repr

/-- The host's 32-bit write of a register at `CODEC_BASE + offset`. -/
def writeEvent (base : Word) (off : Nat) (v : Word) : Event := .host (.regWrite (base.toNat + off) 4 v)

/-- The host's 32-bit read of a register at `CODEC_BASE + offset`. -/
def readEvent (base : Word) (off : Nat) : Event := .host (.regRead (base.toNat + off) 4)

/-- Byte writes at `a, a + 1, …`, with no wrap past the top (00_scope.md rule R11). -/
def memwEvents (a : Nat) : List Byte → List Event
  | [] => []
  | v :: vs => .host (.memWrite a v) :: memwEvents (a + 1) vs

/-- Byte reads at `a, a + 1, …`, `n` of them, with no wrap past the top (00_scope.md rule R11). -/
def memrEvents (a : Nat) : Nat → List Event
  | 0 => []
  | n + 1 => .host (.memRead a) :: memrEvents (a + 1) n

/-- The events of a line, for block `k` whose window is at `base` (rules R91, R92). -/
def HostLine.events (k : Nat) (base : Word) : HostLine → List Event
  | .wr off v => [writeEvent base off v]
  | .wrCmd i => [writeEvent base 0x00 (encode i)]
  | .rd off => [readEvent base off]
  | .wait => [.wait k]
  | .memw a bytes => memwEvents a.toNat bytes
  | .memr a n => memrEvents a.toNat n
  | .run w => [writeEvent base 0x00 w, .wait k, readEvent base 0x04]

/-- The events of a program. -/
def programEvents (k : Nat) (base : Word) (p : List HostLine) : List Event := p.flatMap (HostLine.events k base)

/-- The register writes a line makes, as (offset, value): its encoding (rule R91). -/
def HostLine.encoding : HostLine → List (Nat × Word)
  | .wr off v => [(off, v)]
  | .wrCmd i => [(0x00, encode i)]
  | .run w => [(0x00, w)]
  | .rd _ | .wait | .memw _ _ | .memr _ _ => []

/-- The encoding of a program: "the list of (offset, value) register writes it makes" (rule R91). -/
def programEncoding (p : List HostLine) : List (Nat × Word) := p.flatMap HostLine.encoding

end Sys2Proof.Machine
end

