-- ==== Sys2Proof/Tests/Slice0.lean ====
section
/-! SUPPORT. Tests of the model against values the spec writes out, and for each statement with hypotheses a concrete
state and operands that meet them, clause by clause. -/

namespace Sys2Proof.Tests

open Sys2Proof Sys2Proof.Machine

/-- Bytes placed at rising addresses. -/
def load (m : Memory) (a : Nat) : List Byte → Memory
  | [] => m
  | v :: vs => load (m.write a v) (a + 1) vs

/-- One block in phase `ph` of the command word `w`, input at 0x1000 and output at 0x2000 (the conventions of
95_test_vectors.md), with `f` setting the cursors. -/
def stage (w : Word) (ph : Phase) (input : List Byte) (cap : Word) (f : Block → Block) : State :=
  { State.reset with
    mem := load [] 0x1000 input
    dev := f { Block.reset Config.codecBase with
      cmd := w, busy := ph != .idle, ph := ph, srcAddr := 0x1000, srcLen := BitVec.ofNat 32 input.length
      dstAddr := 0x2000, dstCap := cap } }

/-- The same with a second block, busy with ENC from 0x3000 to 0x4000, after the first. -/
def twoStage (w : Word) (ph : Phase) (input : List Byte) (cap : Word) (f : Block → Block) : State :=
  { stage w ph input cap f with
    right := [{ Block.reset 0x40000040 with
      cmd := 0x101, busy := true, ph := .check, srcAddr := 0x3000, srcLen := 2, dstAddr := 0x4000, dstCap := 4 }] }

/-- The answer is a next state with the property. -/
def nextWith (o : Host.Outcome State Fault Refusal) (p : State → Bool) : Bool :=
  match o with
  | .next t => p t
  | .fault _ => false
  | .refused _ => false

/-- The answer is this refusal. -/
def refusedWith (o : Host.Outcome State Fault Refusal) (r : Refusal) : Bool :=
  match o with
  | .refused q => q == r
  | .next _ => false
  | .fault _ => false

/-! ## Well-formedness: each check refuses an ill-formed term -/

theorem test_wf_high : Cmdw.wellFormed { high := 1, hp := 1, mid := 0, op := 1 } = false := by decide
theorem test_wf_mid : Cmdw.wellFormed { high := 0, hp := 1, mid := 1, op := 1 } = false := by decide
theorem test_wf_op_zero : Cmdw.wellFormed { high := 0, hp := 1, mid := 0, op := 0 } = false := by decide
theorem test_wf_op_six : Cmdw.wellFormed { high := 0, hp := 1, mid := 0, op := 6 } = false := by decide
theorem test_wf_op_seven : Cmdw.wellFormed { high := 0, hp := 1, mid := 0, op := 7 } = false := by decide
theorem test_wf_sentinel : Platform.wellFormed { Config.platform with sentinel := 0x00 } = false := by decide
theorem test_wf_base : baseAligned 0x40000020 = false := by decide
theorem test_wf_reset : Platform.wellFormed Config.platform = true ∧ baseAligned Config.codecBase = true := by decide

/-! ## Decoding: the words of opcode_table.json, bit by bit -/

theorem test_decode_enc : decode 0b00000000000000000000000100000001 = some .enc := by decide
theorem test_decode_encNohp : decode 0b00000000000000000000000000000001 = some .encNohp := by decide
theorem test_decode_encd : decode 0b00000000000000000000000100000010 = some .encd := by decide
theorem test_decode_encdNohp : decode 0b00000000000000000000000000000010 = some .encdNohp := by decide
theorem test_decode_decs : decode 0b00000000000000000000000100000011 = some .decs := by decide
theorem test_decode_decsNohp : decode 0b00000000000000000000000000000011 = some .decsNohp := by decide
theorem test_decode_decl : decode 0b00000000000000000000000100000100 = some .decl := by decide
theorem test_decode_declNohp : decode 0b00000000000000000000000000000100 = some .declNohp := by decide
theorem test_decode_encip : decode 0b00000000000000000000000100000101 = some .encip := by decide
theorem test_decode_encipNohp : decode 0b00000000000000000000000000000101 = some .encipNohp := by decide

/-- The illegal words of 95_test_vectors.md section 2. -/
theorem test_decode_illegal :
    [0x00000000, 0x00000006, 0x00000007, 0x00000106, 0x00000107, 0x00000109, 0x80000101, 0x00000301].map decode
      = List.replicate 8 none := by decide

/-- The table's numbering of a word's bits is the word's own; a longer word is refused. -/
theorem test_decodeTableWord :
    decodeTableWord 32 0x102 = some .encd ∧ decodeTableWord 16 0x102 = some .encd ∧
      decodeTableWord 32 0x109 = none ∧ decodeTableWord 64 0x102 = none := by decide

/-! ## One step of each command -/

/-- TE4, last step: `[02 11]`, `DST_CAP = 2`, `STATUS = 0x02`. -/
theorem test_enc_final :
    nextWith (execEnc (stage 0x101 .eFin [0x11] 3 fun b => { b with rd := 1, wr := 2, code := 2 }))
      (fun t => t.mem.read 0x2000 = 0x02 && t.dev.dstCap = 2 && t.dev.status = 0x02) = true := by decide

/-- TE9, the step that reads the 254th non-zero byte: the forced split of R103. -/
theorem test_enc_forced_split :
    nextWith (execEnc { stage 0x101 .eRun [] 256 fun b =>
        { b with srcLen := 254, rd := 253, wr := 254, code := 254 } with mem := [(0x10FD, 0x01)] })
      (fun t => t.mem.read 0x2000 = 0xFF && t.mem.read 0x20FE = 0x01 && t.dev.cp = 255 && t.dev.wr = 256 &&
        t.dev.code = 1) = true := by decide

/-- TE19, last step: `[02 11 00]` over a byte that was not zero, `DST_CAP = 3`. -/
theorem test_encd_final :
    nextWith (execEncd { stage 0x102 .eFin [0x11] 4 fun b => { b with rd := 1, wr := 2, code := 2 } with
        mem := [(0x2002, 0xAA)] })
      (fun t => t.mem.read 0x2000 = 0x02 && t.mem.read 0x2002 = 0x00 && t.dev.dstCap = 3) = true := by decide

/-- TE27: `BadOutputLength`, `STATUS = 0x22`, `DST_CAP` unchanged. -/
theorem test_encd_capacity :
    nextWith (execEncd (stage 0x102 .check [] 1 id)) (fun t => t.dev.status = 0x22 && t.dev.dstCap = 1) = true := by
  decide

/-- TE28: `OutputBufferNull`, `STATUS = 0x12`. -/
theorem test_encNohp :
    nextWith (execEncNohp (stage 0x001 .check [0x11, 0x22] 4 id))
      (fun t => t.dev.status = 0x12 && t.dev.dstCap = 4) = true := by decide

theorem test_encdNohp :
    nextWith (execEncdNohp (stage 0x002 .check [0x11, 0x22] 0 id)) (fun t => t.dev.status = 0x12) = true := by decide

/-- TD7, second step: `ZeroByteInInput`, `STATUS = 0x42`. -/
theorem test_decs_zero :
    nextWith (execDecs (stage 0x103 .dCode [0x00] 0 id)) (fun t => t.dev.status = 0x42 && t.dev.dstCap = 0) = true := by
  decide

/-- TD14, the third step: a zero in a data position is copied (R138). -/
theorem test_decs_data_zero :
    nextWith (execDecs { stage 0x103 .dCopy [0x02, 0x00, 0x01] 2 fun b => { b with rd := 1, code := 2, cnt := 1 } with
        mem := [(0x1000, 0x02), (0x1002, 0x01), (0x2000, 0xAA)] })
      (fun t => t.mem.read 0x2000 = 0x00 && t.dev.wr = 1 && t.dev.cnt = 0 && t.dev.ph = .dCopy) = true := by decide

/-- TD9, last step: `EofInInput`, `STATUS = 0x52`, the placeholder left out of `DST_CAP = 1`. -/
theorem test_decl_placeholder :
    nextWith (execDecl (stage 0x104 .dCode [0x01, 0x01, 0x00] 2 fun b => { b with rd := 2, wr := 2, zp := true }))
      (fun t => t.dev.status = 0x52 && t.dev.dstCap = 1) = true := by decide

/-- TD12, second step: `ZeroBeyondBuffer`, `STATUS = 0x62`. -/
theorem test_decl_beyond :
    nextWith (execDecl (stage 0x104 .dCode [0x05, 0x11, 0x22] 2 id))
      (fun t => t.dev.status = 0x62 && t.dev.dstCap = 2) = true := by decide

/-- TD19. -/
theorem test_decsNohp :
    nextWith (execDecsNohp (stage 0x003 .check [0x03, 0x11, 0x22, 0x02, 0x33] 4 id))
      (fun t => t.dev.status = 0x12 && t.dev.dstCap = 4) = true := by decide

theorem test_declNohp :
    nextWith (execDeclNohp (stage 0x004 .check [0x03, 0x11, 0x22, 0x02, 0x33] 4 id))
      (fun t => t.dev.status = 0x12 && t.dev.dstCap = 4) = true := by decide

/-- TI2, last step: `[02 11 00]`, `DST_CAP` kept. -/
theorem test_encip_final :
    nextWith (execEncip (stage 0x105 .iFin [0x5A, 0x11, 0x5A] 9 fun b => { b with rd := 2 }))
      (fun t => t.mem.bytes 0x1000 3 = [0x02, 0x11, 0x00] && t.dev.status = 0x02 && t.dev.dstCap = 9) = true := by
  decide

/-- TI9: `BadPayload`, `STATUS = 0x32`. -/
theorem test_encip_sentinel :
    nextWith (execEncip (stage 0x105 .check [0x00, 0x11, 0x5A] 9 id)) (fun t => t.dev.status = 0x32) = true := by
  decide

/-- TI16. -/
theorem test_encipNohp :
    nextWith (execEncipNohp (stage 0x005 .check [0x5A, 0x11, 0x5A] 9 id))
      (fun t => t.dev.status = 0x12 && t.mem.bytes 0x1000 3 = [0x5A, 0x11, 0x5A]) = true := by decide

/-! ## Registers -/

/-- P6: word 0 finishes with `STATUS = 0x72`. -/
theorem test_illegal : nextWith (step (State.reset.withFetchWord 32 0)) (fun t => t.dev.status = 0x72) = true := by
  decide

/-- TR2: writing 2 to `STATUS` clears `DONE` and keeps `RESULT`. -/
theorem test_status_w1c :
    nextWith (hostStep (.regWrite 0x40000004 4 0x2)
        (stage 0x101 .idle [] 0 fun b => { b with done := true, result := .badPayload, ie := true }))
      (fun t => t.dev.status = 0x30 && !t.dev.irq) = true := by decide

/-- TR5: only bit 1 acts. -/
theorem test_status_other_bits :
    nextWith (hostStep (.regWrite 0x40000004 4 0xFFFFFFFD) (stage 0x101 .idle [] 0 fun b => { b with done := true }))
      (fun t => t.dev.status = 0x02) = true := by decide

/-- TR7: a 16-bit read of `STATUS`. -/
theorem test_narrow :
    refusedWith (hostStep (.regRead 0x40000004 2) State.reset) .narrowOrMisalignedRegisterAccess = true := by decide

/-- TE33: overlap. -/
theorem test_overlap :
    refusedWith (execEnc (stage 0x101 .check [0x11] 3 fun b => { b with dstAddr := 0x1000 })) .overlappingBuffers
      = true := by decide

/-- TE29: the output extent wraps: `BusError`, `STATUS = 0x82`. -/
theorem test_bus_error :
    nextWith (execEnc (stage 0x101 .check [0x11, 0x22] 4 fun b => { b with dstAddr := 0xFFFFFFFE }))
      (fun t => t.dev.status = 0x82) = true := by decide

/-- P1's first step as an event: a scheduled register write is taken and consumed. -/
theorem test_host_event :
    nextWith (step { State.reset with schedule := [writeEvent 0x40000000 0x0C 0x1000] })
      (fun t => t.dev.srcAddr = 0x1000 && t.schedule == []) = true := by decide

/-- R11: addresses do not wrap, so the second byte of a MEMW line at the last address is no byte of memory. -/
theorem test_memw_no_wrap :
    HostLine.events 0 0x40000000 (.memw 0xFFFFFFFF [0x11, 0x22])
        = [.host (.memWrite 0xFFFFFFFF 0x11), .host (.memWrite 0x100000000 0x22)] ∧
      nextWith (hostStep (.memWrite 0xFFFFFFFF 0x11) State.reset) (fun t => t.mem = [(0xFFFFFFFF, 0x11)]) = true ∧
      nextWith (hostStep (.memWrite 0x100000000 0x22) State.reset) (fun _ => true) = false := by decide

/-! ## Closed forms: the worked examples of the spec -/

/-- W3. -/
theorem test_encoded : encoded [0x11, 0x22, 0x00, 0x33] 2 = [0x03, 0x11, 0x22, 0x02, 0x33, 0x00] := by decide

/-- TD8, TD13. -/
theorem test_decoded :
    decoded false [0x03, 0x11, 0x22, 0x02, 0x33, 0x00]
        = ⟨.eofInInput, [0x11, 0x22, 0x00, 0x33, 0x00], some 4, 9⟩ ∧
      decoded true [0x02, 0x11, 0x04, 0x22] = ⟨.zeroBeyondBuffer, [0x11, 0x00], none, 5⟩ := by decide

/-- TI6. -/
theorem test_inPlaced : inPlaced 0x5A [0x11, 0x22, 0x00, 0x33] = (.ok, [0x03, 0x11, 0x22, 0x02, 0x33, 0x00]) := by
  decide

/-! ## Witnesses: for each statement with hypotheses, a state and operands that meet them, clause by clause -/

theorem witness_StepRunsDecodedCommand :
    let s := stage 0x101 .eRun [0x11] 3 id
    decode s.dev.cmd = some .enc ∧ s.dev.ph ≠ .idle ∧ s.schedule = [] ∧
      { s with schedule := [.engine 0] }.focus 0 = some { s with schedule := [.engine 0] } ∧
      { s with schedule := [.wait 0] }.focus 0 = some { s with schedule := [.wait 0] } := by decide

theorem witness_FetchedWordRunsNext :
    (0x105 : Nat) < 2 ^ 32 ∧ decode (BitVec.ofNat 32 0x105) = some .encip := by decide

theorem witness_LegalWordSelector :
    decode 0x105 = some .encip ∧ (stage 0x001 .check [] 0 id).dev.ph = .check ∧
      decode (stage 0x001 .check [] 0 id).dev.cmd = some .encNohp ∧ Instr.encNohp.fields.hp = 0 := by decide

theorem witness_IllegalWordsEndAtCheck :
    decode 0x109 = none ∧ State.reset.dev.busy = false ∧ (stage 0x109 .check [] 0 id).dev.ph = .check ∧
      decode (stage 0x109 .check [] 0 id).dev.cmd = none := by decide

theorem witness_FinishWritesStatus : (2 ^ 32 - 1 : Nat) < 2 ^ 32 := by decide

theorem witness_InterruptLine :
    ((Block.reset 0).finish .ok).done = true ∧ (0x2 : Word).getLsbD 1 = true := by decide

theorem witness_CommandAcceptance :
    let s := twoStage 0 .idle [0x11] 3 id
    s.dev.busy = false ∧ s.others ≠ [] ∧ ∀ c ∈ s.others, c.busy = true → (s.accept 0x101).dev.conflicts c = false := by
  decide

theorem witness_ArgumentRegisters : State.reset.dev.busy = false := by decide

theorem witness_ReservedOffsets : (0x1C ≤ (0x1C : Nat) ∧ (0x1C : Nat) < 0x40) ∧ 0x1C ≤ (0x3F : Nat) ∧ (0x3F : Nat) < 0x40 := by
  decide

/-- Every register offset the first clause names, and a step that leaves a command running. -/
theorem witness_BusyWritesIgnored :
    let s := stage 0x101 .eRun [0x11] 3 id
    (∀ off ∈ [0x00, 0x0C, 0x10, 0x14, 0x18],
      s.blocks.findIdx? (fun b => b.windowTouched (0x40000000 + off) 4) = some 0 ∧
      s.focus 0 = some s ∧ (0x40000000 + off) % 4 = 0 ∧ s.dev.busy = true ∧
      0x40000000 + off - s.dev.codecBase.toNat = off) ∧
    s.blocks[0]? = some s.dev ∧ nextWith (step s) (fun t => (t.blocks[0]?).any (·.busy)) = true := by decide

/-- Too narrow; misaligned; a byte access at the window's last address. -/
theorem witness_NarrowRegisterAccessRefused :
    let s := State.reset
    (∃ b ∈ s.blocks, b.windowTouched 0x40000000 2 = true) ∧ ¬(2 = 4 ∧ 0x40000000 % 4 = 0) ∧
      (∃ b ∈ s.blocks, b.windowTouched 0x4000003E 4 = true) ∧ ¬(4 = 4 ∧ 0x4000003E % 4 = 0) ∧
      (∃ b ∈ s.blocks, b.windowTouched 0x4000003F 1 = true) := by decide

/-- The first address of the input extent, the last of the output extent, the first after it, and both sides of the
top of the space. -/
theorem witness_HostMemoryAccess :
    let s := stage 0x101 .eRun [0x11] 3 id
    s.inWindow 0x1000 = false ∧ s.inWindow 0x2002 = false ∧ s.inWindow 0x2003 = false ∧
      s.inWindow (2 ^ 32 - 1) = false ∧ s.inWindow (2 ^ 32) = false ∧ (2 ^ 32 - 1 : Nat) < 2 ^ 32 ∧
      (∃ b ∈ s.blocks, b.busy = true ∧ (b.inExtent.has 0x1000 = true ∨ b.outExtent.has 0x1000 = true)) ∧
      (∃ b ∈ s.blocks, b.busy = true ∧ b.outExtent.has 0x2002 = true) ∧
      (∀ b ∈ s.blocks, b.busy = true → b.outExtent.has 0x1000 = false) ∧ s.plat.hostCoherent = true ∧
      (∀ b ∈ s.blocks, b.busy = true → b.inExtent.has 0x2003 = false ∧ b.outExtent.has 0x2003 = false) := by decide

/-- The first block's output meets the other's input at one address. -/
theorem witness_SharedExtentRefused :
    let s := twoStage 0 .idle [0x11] 3 fun b => { b with dstAddr := 0x3001 }
    s.dev.busy = false ∧ ∃ c ∈ s.others, c.busy = true ∧
      (s.accept 0x101).dev.outExtent.has 0x3001 = true ∧ c.touches 0x3001 = true := by decide

theorem witness_BusyBlocksStayApart :
    (twoStage 0x101 .eRun [0x11] 3 id).apart ∧
      nextWith (step (twoStage 0x101 .eRun [0x11] 3 id)) (fun _ => true) = true := by
  unfold State.apart; decide

/-- A host write not made visible; an engine write; a marked byte where no command is running, and its maintenance. -/
theorem witness_IncoherentBuffersRefused :
    let s := { State.reset with plat := { Config.platform with hostCoherent := false } }
    let e := { stage 0x101 .eFin [] 1 id with plat := s.plat }
    let d := { s with engineDirty := [0x2000] }
    Config.platform.hostCoherent = true ∧ s.plat.hostCoherent = false ∧
      nextWith (hostMemWrite s 0x1000 0x11) (fun _ => true) = true ∧ dmaOk s.plat 0x1000 = true ∧
      nextWith (memWrite e 0x2000 0x01) (fun t => t.engineDirty.contains 0x2000) = true ∧
      nextWith (step d) (fun _ => true) = true ∧ d.schedule = [] ∧ d.engineDirty.contains 0x2000 = true ∧
      d.inWindow 0x2000 = false ∧ (∀ b ∈ d.blocks, b.busy = true → b.outExtent.has 0x2000 = false) := by decide

theorem witness_CommandExtents :
    decode 0x101 = some .enc ∧ decode 0x102 = some .encd ∧ decode 0x103 = some .decs ∧ decode 0x104 = some .decl ∧
      decode 0x105 = some .encip := by decide

theorem witness_EngineWriteThenRead :
    State.reset.mem.wf ∧ nextWith (memWrite State.reset 0xFFFFFFFF 0x11) (fun _ => true) = true := by decide

/-- One short of the capacity; a bad extent; an overlap; CHECK passed. -/
theorem witness_EncoderCheckStep :
    let s := stage 0x101 .check [0x11, 0x22] 4 id
    let bad := stage 0x101 .check [0x11, 0x22] 4 fun b => { b with dstAddr := 0xFFFFFFFD }
    let lap := stage 0x101 .check [0x11, 0x22] 4 fun b => { b with dstAddr := 0x1001 }
    s.dev.ph = .check ∧ needEnc s.dev.len 1 = 4 ∧ s.dev.cap = 4 ∧ (stage 0x101 .check [0x11, 0x22] 3 id).dev.cap = 3 ∧
      extentOk s.plat s.dev.src s.dev.len = true ∧ extentOk s.plat s.dev.dst 4 = true ∧
      disjoint s.dev.src s.dev.len s.dev.dst 4 = true ∧ extentOk bad.plat bad.dev.dst 4 = false ∧
      extentOk lap.plat lap.dev.dst 4 = true ∧ disjoint lap.dev.src lap.dev.len lap.dev.dst 4 = false := by decide

/-- The end of input; a zero; a data byte that leaves the group at 253; one that fills it. -/
theorem witness_EncoderRunStep :
    let s := stage 0x101 .eRun [0x11, 0x00] 4 fun b => { b with wr := 1 }
    s.dev.ph = .eRun ∧ (stage 0x101 .eRun [] 4 id).dev.rd = (stage 0x101 .eRun [] 4 id).dev.len ∧
      s.dev.rd ≠ s.dev.len ∧ s.reaches 0x1000 ∧ s.reaches 0x1001 ∧ s.reaches 0x2000 ∧ s.reaches 0x2001 ∧
      s.mem.read 0x1001 = 0x00 ∧ s.mem.read 0x1000 ≠ 0x00 ∧
      (253 : Byte).toNat + 1 ≠ 255 ∧ (253 : Byte).toNat + 1 ≤ 255 ∧ (254 : Byte).toNat + 1 = 255 := by
  unfold State.reaches; decide

theorem witness_EncoderFinalStep :
    let s := stage 0x102 .eFin [] 2 fun b => { b with wr := 1 }
    s.dev.ph = .eFin ∧ s.reaches (s.dev.dst + s.dev.cp) ∧ s.reaches (s.dev.dst + s.dev.wr) := by
  unfold State.reaches; decide

theorem witness_DecoderCheckStep :
    let s := stage 0x103 .check [0x02, 0x11] 1 id
    let bad := stage 0x103 .check [0x02, 0x11] 1 fun b => { b with srcAddr := 0xFFFFFFFF }
    let lap := stage 0x103 .check [0x02, 0x11] 1 fun b => { b with dstAddr := 0x1001 }
    s.dev.ph = .check ∧ s.dev.len - 1 = s.dev.cap ∧ (stage 0x103 .check [0x02, 0x11] 0 id).dev.cap < s.dev.len - 1 ∧
      extentOk s.plat s.dev.src s.dev.len = true ∧ extentOk s.plat s.dev.dst (s.dev.len - 1) = true ∧
      disjoint s.dev.src s.dev.len s.dev.dst (s.dev.len - 1) = true ∧ extentOk bad.plat bad.dev.src bad.dev.len = false ∧
      extentOk lap.plat lap.dev.dst (lap.dev.len - 1) = true ∧
      disjoint lap.dev.src lap.dev.len lap.dev.dst (lap.dev.len - 1) = false := by decide

/-- The end of input; a zero code byte; a group one byte too long; one that just fits; the code 1. -/
theorem witness_DecoderCodeStep :
    let s := stage 0x103 .dCode [0x00, 0x03, 0x02, 0x01] 3 id
    s.dev.ph = .dCode ∧ (stage 0x103 .dCode [] 0 id).dev.rd = (stage 0x103 .dCode [] 0 id).dev.len ∧
      s.dev.rd ≠ s.dev.len ∧ s.reaches 0x1000 ∧ s.reaches 0x1001 ∧ s.mem.read 0x1000 = 0x00 ∧
      (s.dev.len < 2 + (s.mem.read 0x1001).toNat ∧ s.mem.read 0x1001 ≠ 1) ∧
      2 + (s.mem.read 0x1002).toNat ≤ s.dev.len ∧ s.mem.read 0x1003 = 1 := by
  unfold State.reaches; decide

theorem witness_DecoderCopyStep :
    let s := stage 0x104 .dCopy [0x02, 0x11, 0x01] 2 fun b => { b with rd := 1, code := 2, cnt := 1 }
    let zero := stage 0x104 .dCopy [0x02, 0x11, 0x01] 2 fun b => { b with rd := 2, wr := 1, code := 2 }
    let last := stage 0x104 .dCopy [0x02, 0x11] 1 fun b => { b with rd := 2, wr := 1, code := 2 }
    s.dev.ph = .dCopy ∧ s.dev.cnt ≠ 0 ∧ s.reaches (s.dev.src + s.dev.rd) ∧ s.reaches (s.dev.dst + s.dev.wr) ∧
      zero.dev.cnt = 0 ∧ zero.dev.code ≠ 0xFF ∧ zero.dev.rd ≠ zero.dev.len ∧ zero.reaches (zero.dev.dst + zero.dev.wr) ∧
      last.dev.cnt = 0 ∧ last.dev.rd = last.dev.len := by
  unfold State.reaches; decide

theorem witness_InPlaceCheckStep :
    let s := stage 0x105 .check [0x5A, 0x5A] 0 id
    let bad := stage 0x105 .check [0x5A, 0x00] 0 id
    let wrap := stage 0x105 .check [0x5A, 0x5A] 0 fun b => { b with srcAddr := 0xFFFFFFFF }
    s.dev.ph = .check ∧ (stage 0x105 .check [0x5A] 0 id).dev.len < 2 ∧ 2 ≤ s.dev.len ∧
      extentOk wrap.plat wrap.dev.src wrap.dev.len = false ∧ extentOk s.plat s.dev.src s.dev.len = true ∧
      s.reaches s.dev.src ∧ s.reaches (s.dev.src + s.dev.len - 1) ∧ s.mem.read s.dev.src = s.plat.sentinel ∧
      s.mem.read (s.dev.src + s.dev.len - 1) = s.plat.sentinel ∧
      bad.mem.read (bad.dev.src + bad.dev.len - 1) ≠ bad.plat.sentinel := by
  unfold State.reaches; decide

/-- A zero at offset 255 and at offset 256; a byte that is not zero; the end of the scan. -/
theorem witness_InPlaceScanStep :
    let s := stage 0x105 .iScan [0x5A, 0x11] 0 fun b => { b with srcLen := 300, rd := 255 }
    s.dev.ph = .iScan ∧ 256 < s.dev.len - 1 ∧ s.reaches (s.dev.src + 255) ∧ s.reaches (s.dev.src + 256) ∧
      s.reaches (s.dev.src + s.dev.cp) ∧ s.mem.read (s.dev.src + 255) = 0x00 ∧ s.mem.read (s.dev.src + 256) = 0x00 ∧
      255 - s.dev.cp ≤ 255 ∧ 255 < 256 - s.dev.cp ∧ s.mem.read (s.dev.src + 1) ≠ 0x00 ∧ s.dev.len - 1 ≤ 299 := by
  unfold State.reaches; decide

theorem witness_InPlaceFinalStep :
    let s := stage 0x105 .iFin [0x5A] 0 fun b => { b with srcLen := 257, rd := 256, cp := 1 }
    s.dev.ph = .iFin ∧ s.dev.rd - s.dev.cp ≤ 255 ∧ 255 < s.dev.rd - 0 ∧ s.reaches (s.dev.src + s.dev.cp) ∧
      s.reaches (s.dev.src + s.dev.len - 1) := by
  unfold State.reaches; decide

theorem witness_NullHandleFormsFinish : (stage 0x005 .check [] 0 id).dev.ph = .check := by decide

theorem witness_StopsByName :
    (stage 0x101 .dCode [] 0 id).dev.ph ∈ [Phase.dCode, .dCopy, .iScan, .iFin] ∧
      (stage 0x103 .eRun [] 0 id).dev.ph ∈ [Phase.eRun, .eFin, .iScan, .iFin] ∧
      (stage 0x105 .dCopy [] 0 id).dev.ph ∈ [Phase.eRun, .eFin, .dCode, .dCopy] ∧
      dmaOk Config.platform (2 ^ 32) = false := by decide

/-- Each form of the encoder goes on somewhere, and a step that finishes; the same for the next two. -/
theorem witness_EncoderFrame :
    (∀ i ∈ [Instr.enc, .encNohp, .encd, .encdNohp],
      nextWith (exec i (stage (encode i) .check [0x11] 9 id)) (fun _ => true) = true) ∧
    nextWith (exec .enc (stage 0x101 .eFin [] 1 fun b => { b with wr := 1 })) (fun t => t.dev.ph == .idle) = true ∧
    nextWith (exec .enc (stage 0x101 .idle [] 1 id)) (fun t => t.dev.ph == .idle) = true := by decide

theorem witness_DecoderFrame :
    (∀ i ∈ [Instr.decs, .decsNohp, .decl, .declNohp],
      nextWith (exec i (stage (encode i) .check [0x01] 9 id)) (fun _ => true) = true) ∧
    nextWith (exec .decs (stage 0x103 .dCode [] 0 id)) (fun t => t.dev.ph == .idle) = true := by decide

theorem witness_InPlaceFrame :
    (∀ i ∈ [Instr.encip, .encipNohp],
      nextWith (exec i (stage (encode i) .check [0x5A, 0x5A] 9 id)) (fun _ => true) = true) ∧
    nextWith (exec .encip (stage 0x105 .iFin [0x5A, 0x5A] 0 fun b => { b with rd := 1 })) (fun t => t.dev.ph == .idle)
      = true := by decide

theorem witness_CapacityWrittenOnlyOnResult :
    nextWith (exec .encd (stage 0x102 .eFin [] 9 fun b => { b with wr := 1 })) (fun t => t.dev.dstCap != 9) = true ∧
      nextWith (exec .decl (stage 0x104 .dCode [0x00] 9 id)) (fun t => t.dev.dstCap != 9 && t.dev.result == .eofInInput)
        = true := by decide

theorem witness_PlatformIsConstant :
    nextWith (step { State.reset with schedule := [.reset] }) (fun _ => true) = true := by decide

theorem witness_ResetEvent : { State.reset with schedule := [.reset, .engine 0] }.schedule = .reset :: [.engine 0] := by
  decide

/-- A state in the middle of an encode command that meets the invariant. -/
theorem running_inv : (stage 0x101 .eRun [0x11] 3 fun b => { b with wr := 1 }).Inv := by
  unfold State.Inv Block.Inv
  refine ⟨by decide, fun b hb => ?_, by decide⟩
  obtain rfl : b = (stage 0x101 .eRun [0x11] 3 fun b => { b with wr := 1 }).dev := List.mem_singleton.1 hb
  refine ⟨by decide, by decide, ⟨.inl ⟨by decide, ?_⟩, ?_, by decide⟩, by decide⟩
  · unfold Block.encReady; decide
  · unfold Block.encCursors; decide

/-- The same in the middle of a decode command, with a byte still to copy. -/
theorem copying_inv :
    (stage 0x104 .dCopy [0x02, 0x11, 0x01] 2 fun b => { b with rd := 1, code := 2, cnt := 1 }).Inv := by
  unfold State.Inv Block.Inv
  refine ⟨by decide, fun b hb => ?_, by decide⟩
  obtain rfl := List.mem_singleton.1 hb
  refine ⟨by decide, by decide, ⟨⟨.inr (by decide), ?_⟩, by decide⟩, by decide⟩
  unfold Block.decReady; decide

/-- The same in the middle of ENCIP. -/
theorem scanning_inv : (stage 0x105 .iScan [0x5A, 0x11, 0x5A] 0 fun b => { b with rd := 1 }).Inv := by
  unfold State.Inv Block.Inv
  refine ⟨by decide, fun b hb => ?_, by decide⟩
  obtain rfl := List.mem_singleton.1 hb
  refine ⟨by decide, by decide, ⟨by decide, ?_, by decide⟩, by decide⟩
  unfold Block.ipReady; decide

theorem witness_EncoderRunStep_inv :
    (stage 0x101 .eRun [0x11] 3 fun b => { b with wr := 1 }).Inv ∧
      (stage 0x101 .eRun [0x11] 3 fun b => { b with wr := 1 }).dev.ph = .eRun := ⟨running_inv, by decide⟩

theorem witness_DecoderCopyStep_inv :
    let s := stage 0x104 .dCopy [0x02, 0x11, 0x01] 2 fun b => { b with rd := 1, code := 2, cnt := 1 }
    s.Inv ∧ s.dev.ph = .dCopy ∧ s.dev.cnt ≠ 0 := ⟨copying_inv, by decide, by decide⟩

theorem witness_InPlaceScanStep_inv :
    let s := stage 0x105 .iScan [0x5A, 0x11, 0x5A] 0 fun b => { b with rd := 1 }
    s.Inv ∧ s.dev.ph = .iScan ∧ s.dev.rd - s.dev.cp ≤ 255 := ⟨scanning_inv, by decide, by decide⟩

theorem witness_StatusFieldsWriteOneToClear :
    (stage 0x101 .eRun [0x11] 3 fun b => { b with wr := 1 }).Inv ∧
      (stage 0x101 .eRun [0x11] 3 fun b => { b with wr := 1 }).dev.busy = true := ⟨running_inv, by decide⟩

theorem witness_StepKeepsInvariant :
    (stage 0x101 .eRun [0x11] 3 fun b => { b with wr := 1 }).Inv ∧
      nextWith (step (stage 0x101 .eRun [0x11] 3 fun b => { b with wr := 1 })) (fun t => t.dev.rd = 1) = true :=
  ⟨running_inv, by decide⟩

theorem witness_EngineNeverFaults :
    let s := stage 0x101 .eRun [0x11] 3 fun b => { b with wr := 1 }
    s.Inv ∧ s.plat.hostCoherent = true ∧ s.dev.ph ≠ .check ∧
      refusedWith (engineStep (stage 0x101 .check [0x11] 3 fun b => { b with dstAddr := 0x1000 })) .overlappingBuffers
        = true := ⟨running_inv, by decide, by decide, by decide⟩

/-- The address just before the output extent, and just after it. -/
theorem witness_EngineWritesInsideOutput :
    let s := stage 0x101 .eRun [0x11] 3 fun b => { b with wr := 1 }
    s.Inv ∧ nextWith (engineStep s) (fun _ => true) = true ∧ s.dev.outExtent.has 0x1FFF = false ∧
      s.dev.outExtent.has 0x2003 = false := ⟨running_inv, by decide, by decide, by decide⟩

/-- Another memory that agrees on the input extent. -/
theorem witness_EngineReadsInsideInput :
    let s := stage 0x101 .eRun [0x11] 3 fun b => { b with wr := 1 }
    s.Inv ∧ Memory.wf [(0x1000, 0x11), (0x2000, 0xAA)] ∧
      (∀ a, s.dev.inExtent.has a = true → Memory.read [(0x1000, 0x11), (0x2000, 0xAA)] a = s.mem.read a) ∧
      nextWith (engineStep s) (fun _ => true) = true ∧ decode s.dev.cmd = some .enc ∧ 0x2001 ∈ storesOf .enc s ∧
      decode (stage 0x006 .check [] 0 id).dev.cmd = none := by
  refine ⟨running_inv, by decide, fun a ha => ?_, by decide, by decide, by decide, by decide⟩
  obtain rfl : a = 0x1000 := by
    have : 0x1000 ≤ a ∧ a < 0x1001 := by
      have h : (⟨0x1000, 1⟩ : Region).has a = true := ha
      simpa [Region.has] using h
    omega
  decide

/-- Two busy blocks, the first of them running: the second's input is spared. -/
theorem witness_EngineSparesOtherBlocks :
    let s := twoStage 0x101 .eRun [0x11] 3 fun b => { b with wr := 1 }
    s.Inv ∧ s.apart ∧ nextWith (engineStep s) (fun _ => true) = true ∧
      ∃ c ∈ s.others, c.busy = true ∧ c.touches 0x3001 = true := by
  refine ⟨?_, by unfold State.apart; decide, by decide, by decide⟩
  unfold State.Inv Block.Inv
  refine ⟨by decide, fun b hb => ?_, by decide⟩
  have h := running_inv.2.1 _ (List.mem_append_right _ List.mem_cons_self)
  rcases List.mem_cons.1 (show b ∈ _ :: [_] from hb) with rfl | hb
  · exact h
  · obtain rfl := List.mem_singleton.1 hb
    exact ⟨by decide, by decide, trivial, by decide⟩

theorem witness_EncodeCommandRun :
    let s := stage 0x101 .check [0x11] 3 id
    decode s.dev.cmd = some .enc ∧ s.schedule = [] ∧ s.dev.ph = .check ∧ s.mem.wf ∧ s.plat.hostCoherent = true ∧
      s.dev.encReady s.plat 1 := by
  unfold Block.encReady; decide

theorem witness_DecodeCommandRun :
    let s := stage 0x104 .check [0x02, 0x11, 0x00] 2 id
    decode s.dev.cmd = some .decl ∧ s.schedule = [] ∧ s.dev.ph = .check ∧ s.mem.wf ∧ s.plat.hostCoherent = true ∧
      s.dev.decReady s.plat ∧ (decoded false (s.mem.bytes s.dev.src s.dev.len)).length = some 1 ∧
      (decoded true (s.mem.bytes s.dev.src s.dev.len)).length = none := by
  unfold Block.decReady; decide

theorem witness_InPlaceCommandRun :
    let s := stage 0x105 .check [0x5A, 0x11, 0x5A] 0 id
    decode s.dev.cmd = some .encip ∧ s.schedule = [] ∧ s.dev.ph = .check ∧ s.mem.wf ∧ s.plat.hostCoherent = true ∧
      s.dev.ipReady s.plat ∧ s.mem.read s.dev.src = s.plat.sentinel ∧
      s.mem.read (s.dev.src + s.dev.len - 1) = s.plat.sentinel ∧
      (inPlaced s.plat.sentinel (s.mem.bytes (s.dev.src + 1) (s.dev.len - 2))).1 = .ok := by
  unfold Block.ipReady; decide

theorem witness_EncodedSize : (∀ x ∈ ([0x11] : List Byte), x ≠ 0x00) ∧ ([] : List Byte).length % 254 = 0 := by decide

theorem witness_FullGroupBoundary :
    (List.replicate 254 (0x01 : Byte)).length = 254 ∧ ∀ x ∈ List.replicate 254 (0x01 : Byte), x ≠ 0x00 :=
  ⟨List.length_replicate, fun x hx => by rw [List.eq_of_mem_replicate hx]; decide⟩

theorem witness_InPlaceClosedForm :
    (inPlaced 0x5A [0x00]).1 = .ok ∧ ([0x00] : List Byte).length + 2 ≤ 256 := by decide

theorem witness_InPlaceAgainstEncd :
    (List.replicate 254 (0x01 : Byte)).length + 2 ≤ 256 ∧ (List.replicate 254 (0x01 : Byte)).length = 254 ∧
      (∀ x ∈ List.replicate 254 (0x01 : Byte), x ≠ 0x00) ∧ ([] : List Byte).length ≠ 254 :=
  ⟨by rw [List.length_replicate], List.length_replicate,
    fun x hx => by rw [List.eq_of_mem_replicate hx]; decide, by decide⟩

theorem witness_InPlaceInverse :
    (∀ s ∈ segments [0x11, 0x00], s.length ≤ 254) ∧ ([0x11, 0x00] : List Byte).length + 2 ≤ 256 := by decide

theorem witness_EveryCommandFinishes :
    let s := stage 0x104 .check [0x02, 0x11, 0x00] 2 id
    s.Inv ∧ s.schedule = [] ∧ s.dev.ph = .check ∧ s.plat.hostCoherent = true ∧
      refusedWith (step s) .overlappingBuffers = false := by
  refine ⟨?_, by decide, by decide, by decide, by decide⟩
  unfold State.Inv Block.Inv
  refine ⟨by decide, fun b hb => ?_, by decide⟩
  obtain rfl : b = (stage 0x104 .check [0x02, 0x11, 0x00] 2 id).dev := List.mem_singleton.1 hb
  exact ⟨by decide, by decide, trivial, by decide⟩

/-- Two blocks that differ only in what cannot be read. -/
theorem witness_InternalsNeverObservable :
    let s := stage 0x103 .check [0x02, 0x11] 1 id
    s.dev.ph = .check ∧ { s.dev with wr := 7, zp := true }.hostView = s.dev.hostView ∧
      { s.dev with wr := 7, zp := true } ≠ s.dev := by decide

theorem witness_IdleTakesNoStep :
    State.reset.schedule = [] ∧ (∀ b ∈ State.reset.blocks, b.ph = .idle) ∧
      { State.reset with schedule := [.wait 0] }.focus 0 = some { State.reset with schedule := [.wait 0] } := by decide

/-- The first and the last word of the window, and an address outside it. -/
theorem witness_HostEventsTakeEffect :
    let s := stage 0x101 .eRun [0x11] 3 id
    { s with schedule := [.host (.memRead 0x2000)] }.schedule = .host (.memRead 0x2000) :: [] ∧
      s.blocks.findIdx? (fun b => b.windowTouched 0x4000003C 4) = some 0 ∧ s.focus 0 = some s ∧
      0x4000003C % 4 = 0 ∧ (0x3C < 0x40 ∧ 0x3C % 4 = 0) ∧ s.dev.codecBase.toNat % 4 = 0 ∧ s.left = [] ∧
      (∀ b ∈ s.blocks, b.windowTouched 0x40000040 4 = false) ∧ s.busyWrites 0x2000 = true := by decide

end Sys2Proof.Tests
end

section
/-! SUPPORT. The register window: what each register function does at each offset, and how a host access reaches it
(10_state.md rules R31 to R39, R48). -/

namespace Sys2Proof.Machine

@[simp] theorem Block.readReg_ctrl (b : Block) : b.readReg 0x08 = b.ctrl := rfl
@[simp] theorem Block.writeReg_status (b : Block) (v : Word) : b.writeReg 0x04 v = b.writeStatus v := rfl
@[simp] theorem Block.writeReg_ctrl (b : Block) (v : Word) : b.writeReg 0x08 v = b.writeCtrl v := rfl

theorem Block.readReg_reserved (b : Block) {off : Nat} (h : 0x1C ≤ off) : b.readReg off = 0 := by
  unfold Block.readReg
  split
  case h_8 => rfl
  all_goals omega

theorem Block.writeReg_reserved (b : Block) {off : Nat} (v : Word) (h : 0x1C ≤ off) : b.writeReg off v = b := by
  unfold Block.writeReg
  split
  case h_7 => rfl
  all_goals omega

/-- While `BUSY = 1` only `STATUS` and `CTRL` act on a write (rule R38). -/
theorem Block.writeReg_of_busy {b : Block} (hb : b.busy = true) {off : Nat} (v : Word) (hs : off ≠ 0x04)
    (hc : off ≠ 0x08) : b.writeReg off v = b := by
  unfold Block.writeReg
  split
  · exact absurd rfl hs
  · exact absurd rfl hc
  all_goals simp [hb]

theorem Block.ctrl_bits (b : Block) : b.ctrl.getLsbD 0 = b.ie ∧ b.ctrl.extractLsb' 1 31 = 0 := by
  unfold Block.ctrl
  cases b.ie <;> decide

theorem Block.irq_iff (b : Block) : b.irq = true ↔ b.ie = true ∧ b.done = true := by
  simp [Block.irq]

/-- Without `DONE` there is no interrupt (rule R39). -/
theorem Block.irq_of_not_done {b : Block} (h : b.done = false) : b.irq = false := by
  simp [Block.irq, h]

/-- With `DONE` the interrupt output is `IE` (rule R39). -/
theorem Block.irq_of_done {b : Block} (h : b.done = true) : b.irq = b.ie := by
  simp [Block.irq, h]

theorem writeRegister_cmd (s : State) (v : Word) : writeRegister s 0x00 v = writeCmd s v := rfl

theorem writeRegister_of_ne_cmd (s : State) {off : Nat} (v : Word) (h : off ≠ 0x00) :
    writeRegister s off v = .next (s.withDev (s.dev.writeReg off v)) := if_neg h

/-- Everything a register write that goes on can do: the write of one register other than `CMD` (or, ignored, of
`CMD`), or an acceptance (rules R33 to R38, R48). -/
theorem writeRegister_eq_next {s t : State} {off : Nat} {v : Word} (h : writeRegister s off v = .next t) :
    t = s.withDev (s.dev.writeReg off v) ∨ (off = 0x00 ∧ s.dev.busy = false ∧ t = s.accept v) := by
  by_cases ho : off = 0x00
  · subst ho
    rw [writeRegister_cmd] at h
    rcases writeCmd_cases s v with ⟨-, e⟩ | ⟨-, -, e⟩ | ⟨hb, -, e⟩
    · cases e.symm.trans h; exact .inl rfl
    · cases e.symm.trans h
    · cases e.symm.trans h; exact .inr ⟨rfl, hb, rfl⟩
  · rw [writeRegister_of_ne_cmd s v ho] at h
    exact .inl (by simpa using h.symm)

/-- While `BUSY = 1` a write to `CMD` or to an argument register goes on with no change (rule R38). -/
theorem writeRegister_of_busy {s : State} (hb : s.dev.busy = true) {off : Nat} (v : Word) (hs : off ≠ 0x04)
    (hc : off ≠ 0x08) : writeRegister s off v = .next s := by
  by_cases ho : off = 0x00
  · subst ho
    rw [writeRegister_cmd, writeCmd, if_pos hb]
  · rw [writeRegister_of_ne_cmd s v ho, Block.writeReg_of_busy hb v hs hc, State.withDev_dev_self]

theorem hostStep_regRead (s : State) (a width : Nat) : hostStep (.regRead a width) s =
    regAccess s a width fun t off => .next (t.observe (t.dev.readReg off)) := rfl

theorem hostStep_regWrite (s : State) (a width : Nat) (v : Word) : hostStep (.regWrite a width v) s =
    regAccess s a width fun t off => writeRegister t off v := rfl

/-- An aligned 32-bit access acts on the offset, in the first block whose window it touches (rules R30, R31). -/
theorem regAccess_of_aligned {s t : State} {a k : Nat}
    (hk : s.blocks.findIdx? (fun b => b.windowTouched a 4) = some k) (ht : s.focus k = some t) (ha : a % 4 = 0)
    (f : State → Nat → Host.Outcome State Fault Refusal) :
    regAccess s a 4 f = f t (a - t.dev.codecBase.toNat) := by
  simp [regAccess, hk, ht, ha]

/-- Any other access that touches a window is refused (rule R31). -/
theorem regAccess_of_not_aligned {s : State} {a width : Nat} (hw : ∃ b ∈ s.blocks, b.windowTouched a width = true)
    (ha : ¬(width = 4 ∧ a % 4 = 0)) (f : State → Nat → Host.Outcome State Fault Refusal) :
    regAccess s a width f = .refused .narrowOrMisalignedRegisterAccess := by
  obtain ⟨b, hb, hw⟩ := hw
  rcases regAccess_cases s a width f with ⟨hn, -⟩ | ⟨k, t, -, -, -, h⟩
  · exact absurd hw (by simp [hn b hb])
  · rcases h with ⟨h4, ha4, -⟩ | ⟨-, e⟩
    · exact absurd ⟨h4, ha4⟩ ha
    · exact e

theorem State.inWindow_iff {s : State} {a : Nat} :
    s.inWindow a = true ↔ ∃ b ∈ s.blocks, b.windowTouched a 1 = true := List.any_eq_true

end Sys2Proof.Machine
end

section
/-! SUPPORT. What one step can do to the blocks, said once: the moves of a running engine, its frame, and the
inversion of `step`. A relation between a block before and after a step is then proved from the moves alone. -/

namespace Sys2Proof.Machine

/-- What an engine step can do to its block: write the internal registers, `Finish(code)`, or `Finish(code, n)`
with the last write of `E.WR` (rules R45, R205). -/
inductive Block.EngineMove (b : Block) : Block → Prop
  | work (ph : Phase) (rd wr cp : Nat) (code cnt : Byte) (zp : Bool) :
      EngineMove b { b with ph := ph, rd := rd, wr := wr, cp := cp, code := code, cnt := cnt, zp := zp }
  | finish (r : ResultCode) : EngineMove b (b.finish r)
  | finishLen (wr : Nat) (r : ResultCode) (n : Nat) : EngineMove b (Block.finishLen { b with wr := wr } r n)

/-- What an engine step leaves unchanged: all but memory, its own block, and the note of its writes. -/
structure State.EngineFrame (s t : State) : Prop where
  plat : t.plat = s.plat
  left : t.left = s.left
  right : t.right = s.right
  hostDirty : t.hostDirty = s.hostDirty
  observed : t.observed = s.observed
  draws : t.draws = s.draws
  schedule : t.schedule = s.schedule
  dev : s.dev.EngineMove t.dev

namespace State.EngineFrame

theorem of_withDev {s : State} {c : Block} (h : s.dev.EngineMove c) : s.EngineFrame (s.withDev c) :=
  ⟨rfl, rfl, rfl, rfl, rfl, rfl, rfl, h⟩

theorem of_finish (s : State) (r : ResultCode) : s.EngineFrame (s.finish r) := of_withDev (.finish r)

theorem of_finishLen (s : State) (r : ResultCode) (n : Nat) : s.EngineFrame (s.finishLen r n) :=
  of_withDev (.finishLen s.dev.wr r n)

/-- A byte written on the way keeps the frame. -/
theorem of_poke {s t : State} {a : Nat} {v : Byte} (h : (s.poke a v).EngineFrame t) : s.EngineFrame t :=
  ⟨h.plat, h.left, h.right, h.hostDirty, h.observed, h.draws, h.schedule, h.dev⟩

theorem refl (s : State) : s.EngineFrame s := of_withDev (.work ..)

end State.EngineFrame

theorem encCheck_frame {k : Nat} {hp : Bool} {s t : State} (h : encCheck k hp s = .next t) : s.EngineFrame t := by
  rcases encCheck_cases h with ⟨-, rfl⟩ | ⟨-, -, rfl⟩ | ⟨-, -, -, rfl⟩ | ⟨-, -, rfl⟩
  · exact .of_finish ..
  · exact .of_finish ..
  · exact .of_finish ..
  · exact .of_withDev (.work ..)

theorem encRun_frame {s t : State} (h : encRun s = .next t) : s.EngineFrame t := by
  rcases encRun_cases h with ⟨-, rfl⟩ | ⟨-, -, rfl⟩ | ⟨-, -, -, rfl⟩ | ⟨-, -, -, rfl⟩
  · exact .of_withDev (.work ..)
  · exact .of_poke (.of_withDev (.work ..))
  · exact .of_poke (.of_poke (.of_withDev (.work ..)))
  · exact .of_poke (.of_withDev (.work ..))

theorem encFin_frame {k : Nat} {s t : State} (h : encFin k s = .next t) : s.EngineFrame t := by
  rcases encFin_cases h with ⟨-, rfl⟩ | ⟨-, rfl⟩
  · exact .of_poke (.of_poke (.of_withDev (.finishLen ..)))
  · exact .of_poke (.of_finishLen ..)

theorem decCheck_frame {hp : Bool} {s t : State} (h : decCheck hp s = .next t) : s.EngineFrame t := by
  rcases decCheck_cases h with ⟨-, rfl⟩ | ⟨-, -, rfl⟩ | ⟨-, -, -, rfl⟩ | ⟨-, -, rfl⟩
  · exact .of_finish ..
  · exact .of_finish ..
  · exact .of_finish ..
  · exact .of_withDev (.work ..)

theorem decCode_frame {strict : Bool} {s t : State} (h : decCode strict s = .next t) : s.EngineFrame t := by
  rcases decCode_cases h with
    ⟨-, rfl⟩ | ⟨-, -, -, rfl⟩ | ⟨-, -, -, rfl⟩ | ⟨-, -, -, -, rfl⟩ | ⟨-, -, -, rfl⟩
  · exact .of_finishLen ..
  · exact .of_finish ..
  · exact .of_finishLen ..
  · exact .of_finish ..
  · exact .of_withDev (.work ..)

theorem decCopy_frame {s t : State} (h : decCopy s = .next t) : s.EngineFrame t := by
  rcases decCopy_cases h with ⟨-, rfl⟩ | ⟨-, -, -, rfl⟩ | ⟨-, -, rfl⟩
  · exact .of_poke (.of_withDev (.work ..))
  · exact .of_poke (.of_withDev (.work ..))
  · exact .of_withDev (.work ..)

theorem ipCheck_frame {hp : Bool} {s t : State} (h : ipCheck hp s = .next t) : s.EngineFrame t := by
  rcases ipCheck_cases h with
    ⟨-, rfl⟩ | ⟨-, -, rfl⟩ | ⟨-, -, -, rfl⟩ | ⟨-, -, -, rfl⟩ | ⟨-, -, -, -, rfl⟩
  · exact .of_finish ..
  · exact .of_finish ..
  · exact .of_finish ..
  · exact .of_finish ..
  · exact .of_withDev (.work ..)

theorem ipScan_frame {s t : State} (h : ipScan s = .next t) : s.EngineFrame t := by
  rcases ipScan_cases h with ⟨-, -, -, rfl⟩ | ⟨-, -, -, rfl⟩ | ⟨-, -, rfl⟩ | ⟨-, rfl⟩
  · exact .of_finish ..
  · exact .of_poke (.of_withDev (.work ..))
  · exact .of_withDev (.work ..)
  · exact .of_withDev (.work ..)

theorem ipFin_frame {s t : State} (h : ipFin s = .next t) : s.EngineFrame t := by
  rcases ipFin_cases h with ⟨-, rfl⟩ | ⟨-, rfl⟩
  · exact .of_finish ..
  · exact .of_poke (.of_poke (.of_finish ..))

theorem encStep_frame {k : Nat} {hp : Bool} {s t : State} (h : encStep k hp s = .next t) : s.EngineFrame t := by
  unfold encStep at h
  split at h
  · cases h; exact .refl s
  · exact encCheck_frame h
  · exact encRun_frame h
  · exact encFin_frame h
  all_goals cases h

theorem decStep_frame {strict hp : Bool} {s t : State} (h : decStep strict hp s = .next t) : s.EngineFrame t := by
  unfold decStep at h
  split at h
  · cases h; exact .refl s
  · exact decCheck_frame h
  · exact decCode_frame h
  · exact decCopy_frame h
  all_goals cases h

theorem ipStep_frame {hp : Bool} {s t : State} (h : ipStep hp s = .next t) : s.EngineFrame t := by
  unfold ipStep at h
  split at h
  · cases h; exact .refl s
  · exact ipCheck_frame h
  · exact ipScan_frame h
  · exact ipFin_frame h
  all_goals cases h

theorem illegalStep_frame {s t : State} (h : illegalStep s = .next t) : s.EngineFrame t := by
  unfold illegalStep at h
  split at h
  · cases h; exact .refl s
  · cases h; exact .of_finish ..
  all_goals cases h

theorem exec_frame {i : Instr} {s t : State} (h : exec i s = .next t) : s.EngineFrame t :=
  match i with
  | .enc | .encNohp | .encd | .encdNohp => encStep_frame h
  | .decs | .decsNohp | .decl | .declNohp => decStep_frame h
  | .encip | .encipNohp => ipStep_frame h

/-- Whatever word is in `CMD`, the engine step keeps its frame (rules R47, R90). -/
theorem engineStep_frame {s t : State} (h : engineStep s = .next t) : s.EngineFrame t := by
  unfold engineStep at h
  split at h
  · split at h
    · exact illegalStep_frame h
    · exact exec_frame h
  · cases h; exact .refl s

/-- The same machine, up to which block is in focus and what is scheduled. -/
structure State.Refocused (s u : State) : Prop where
  blocks : u.blocks = s.blocks
  plat : u.plat = s.plat
  mem : u.mem = s.mem
  hostDirty : u.hostDirty = s.hostDirty
  engineDirty : u.engineDirty = s.engineDirty
  observed : u.observed = s.observed
  draws : u.draws = s.draws

theorem State.Refocused.reschedule (s : State) (rest : List Event) : s.Refocused { s with schedule := rest } :=
  ⟨rfl, rfl, rfl, rfl, rfl, rfl, rfl⟩

theorem State.Refocused.trans {s u v : State} (h : s.Refocused u) (h' : u.Refocused v) : s.Refocused v :=
  ⟨h'.blocks.trans h.blocks, h'.plat.trans h.plat, h'.mem.trans h.mem, h'.hostDirty.trans h.hostDirty,
    h'.engineDirty.trans h.engineDirty, h'.observed.trans h.observed, h'.draws.trans h.draws⟩

theorem State.Refocused.of_focus {s t : State} {k : Nat} (h : s.focus k = some t) : s.Refocused t := by
  rcases State.focus_cases s k with ⟨hn, -⟩ | ⟨u, hu, hb, -, -, hp, hm, hh, he, ho, hd, -⟩
  · simp [hn] at h
  · obtain rfl : u = t := by simpa [hu] using h
    exact ⟨hb, hp, hm, hh, he, ho, hd⟩

/-- Everything a step of the machine that goes on can do (rules R15, R251, R252, R240): one agent's step, in the
machine with that agent's block in focus. -/
inductive StepCase (s : State) : State → Prop
  | engine {u t : State} (hu : s.Refocused u) (h : engineStep u = .next t) : StepCase s t
  | regWrite {u t : State} (hu : s.Refocused u) (off : Nat) (v : Word) (h : writeRegister u off v = .next t) :
      StepCase s t
  | regRead {u : State} (hu : s.Refocused u) (off : Nat) : StepCase s (u.observe (u.dev.readReg off))
  | memRead {u t : State} (hu : s.Refocused u) (a : Nat) (h : hostMemRead u a = .next t) : StepCase s t
  | memWrite {u t : State} (hu : s.Refocused u) (a : Nat) (v : Byte) (h : hostMemWrite u a v = .next t) :
      StepCase s t
  | maintain {u : State} (hu : s.Refocused u) : StepCase s u.maintain
  | reset {u : State} (hu : s.Refocused u) : StepCase s u.resetAll

theorem engineStepOf_case {s u t : State} {k : Nat} (hu : s.Refocused u) (h : engineStepOf k u = .next t) :
    StepCase s t := by
  unfold engineStepOf at h
  split at h
  · cases h
  · next v hv => exact .engine (hu.trans (.of_focus hv)) h

theorem regAccess_case {s u t : State} {a width : Nat} {f : State → Nat → Host.Outcome State Fault Refusal}
    (hu : s.Refocused u) (hf : ∀ v off, s.Refocused v → f v off = .next t → StepCase s t)
    (h : regAccess u a width f = .next t) : StepCase s t := by
  rcases regAccess_cases u a width f with ⟨-, e⟩ | ⟨k, v, -, hv, -, ⟨-, -, e⟩ | ⟨-, e⟩⟩
  · cases e.symm.trans h
  · exact hf v _ (hu.trans (.of_focus hv)) (e.symm.trans h)
  · cases e.symm.trans h

theorem hostStep_case {s u t : State} {a : HostAction} (hu : s.Refocused u) (h : hostStep a u = .next t) :
    StepCase s t := by
  cases a with
  | regRead a width =>
    rw [hostStep_regRead] at h
    refine regAccess_case hu (fun v off hv e => ?_) h
    cases e; exact .regRead hv off
  | regWrite a width x => exact regAccess_case hu (fun v off hv e => .regWrite hv off x e) h
  | memRead a => exact .memRead hu a h
  | memWrite a x => exact .memWrite hu a x h
  | cacheMaintenance => cases h; exact .maintain hu

theorem waitStep_case {s u t : State} {k : Nat} {rest : List Event} (hu : s.Refocused u)
    (h : waitStep k rest u = .next t) : StepCase s t := by
  unfold waitStep at h
  split at h
  · cases h
  · next v hv =>
    have hsv := hu.trans (.of_focus hv)
    split at h
    · exact .engine hsv h
    · cases h; exact .regRead (hsv.trans (.reschedule v rest)) 0x04

theorem progress_case {s t : State} (h : progress s = .next t) : StepCase s t := by
  have hs : s.Refocused s := .reschedule s s.schedule
  unfold progress at h
  split at h
  · exact .engine hs h
  · next hi =>
    split at h
    · cases h
      exact .engine hs (engineStep_idle (by simpa [Block.enabled] using hi))
    · exact engineStepOf_case hs h

theorem step_cases {s t : State} (h : step s = .next t) : StepCase s t := by
  unfold step machineStep at h
  split at h
  · exact progress_case h
  · exact engineStepOf_case (.reschedule s _) h
  · exact hostStep_case (.reschedule s _) h
  · next rest _ => cases h; exact .reset (.reschedule s rest)
  · exact waitStep_case (.reschedule s s.schedule) h

theorem hostMemRead_blocks {s t : State} {a : Nat} (h : hostMemRead s a = .next t) : t.blocks = s.blocks := by
  rcases hostMemRead_cases s a with
    ⟨-, e⟩ | ⟨-, -, e⟩ | ⟨-, -, -, e⟩ | ⟨-, -, -, -, -, e⟩ | ⟨-, -, -, -, e⟩
  · cases e.symm.trans h
  · cases e.symm.trans h
  · cases e.symm.trans h; rfl
  · cases e.symm.trans h
  · cases e.symm.trans h; rfl

theorem hostMemWrite_blocks {s t : State} {a : Nat} {v : Byte} (h : hostMemWrite s a v = .next t) :
    t.blocks = s.blocks := by
  rcases hostMemWrite_cases s a v with ⟨-, e⟩ | ⟨-, -, e⟩ | ⟨-, -, -, e⟩ | ⟨-, -, -, e⟩
  · cases e.symm.trans h
  · cases e.symm.trans h
  · cases e.symm.trans h
  · cases e.symm.trans h; rfl

theorem State.resetAll_blocks (s : State) : s.resetAll.blocks = s.blocks.map fun b => Block.reset b.codecBase := by
  simp [State.blocks]

section BlockRelation

variable {R : Block → Block → Prop} (hrefl : ∀ b, R b b)
include hrefl

/-- A change of the block in focus alone relates the blocks pairwise. -/
theorem State.blocks_forall₂ {s t : State} (hl : t.left = s.left) (hr : t.right = s.right) (hd : R s.dev t.dev) :
    List.Forall₂ R s.blocks t.blocks := by
  unfold State.blocks
  rw [hl, hr]
  exact List.rel_append (List.forall₂_same.2 fun b _ => hrefl b)
    (.cons hd (List.forall₂_same.2 fun b _ => hrefl b))

/-- A relation that holds of every engine move, register write, acceptance and reset relates each block before a step
to the same block after it. -/
theorem step_blocks_forall₂ (heng : ∀ b c, Block.EngineMove b c → R b c)
    (hreg : ∀ (b : Block) off v, R b (b.writeReg off v))
    (hacc : ∀ (b : Block) v u, b.busy = false → R b (b.accept v u))
    (hreset : ∀ b, R b (Block.reset b.codecBase)) {s t : State} (h : step s = .next t) :
    List.Forall₂ R s.blocks t.blocks := by
  have same (u : State) : List.Forall₂ R u.blocks u.blocks := State.blocks_forall₂ hrefl rfl rfl (hrefl _)
  cases step_cases h with
  | engine hu h =>
    have hf := engineStep_frame h
    exact hu.blocks ▸ State.blocks_forall₂ hrefl hf.left hf.right (heng _ _ hf.dev)
  | @regWrite u _ hu off v h =>
    rw [← hu.blocks]
    rcases writeRegister_eq_next h with rfl | ⟨-, hb, rfl⟩
    · exact State.blocks_forall₂ hrefl rfl rfl (hreg ..)
    · exact State.blocks_forall₂ hrefl rfl rfl (hacc _ _ _ hb)
  | regRead hu off => exact hu.blocks ▸ same _
  | memRead hu a h => exact hostMemRead_blocks h ▸ hu.blocks ▸ same _
  | memWrite hu a v h => exact hostMemWrite_blocks h ▸ hu.blocks ▸ same _
  | maintain hu => exact hu.blocks ▸ same _
  | @reset u hu =>
    rw [State.resetAll_blocks, hu.blocks, List.forall₂_map_right_iff]
    exact List.forall₂_same.2 fun b _ => hreset b

end BlockRelation

end Sys2Proof.Machine
end

section
/-! SUPPORT. The statements of 10_state.md: registers while busy, `CTRL`, the interrupt line, reserved offsets and
narrow accesses. -/

namespace Sys2Proof.Machine

/-- If a command runs before and after, its word and its arguments are the same (rule R38). -/
def Block.KeepsArguments (b c : Block) : Prop :=
  b.busy = true → c.busy = true →
    c.cmd = b.cmd ∧ c.srcAddr = b.srcAddr ∧ c.srcLen = b.srcLen ∧ c.dstAddr = b.dstAddr ∧ c.dstCap = b.dstCap

theorem Block.KeepsArguments.refl (b : Block) : b.KeepsArguments b := fun _ _ => ⟨rfl, rfl, rfl, rfl, rfl⟩

theorem Block.EngineMove.keepsArguments {b c : Block} (h : b.EngineMove c) : b.KeepsArguments c := by
  intro _ hc
  cases h with
  | work => exact ⟨rfl, rfl, rfl, rfl, rfl⟩
  | finish r => simp at hc
  | finishLen wr r n => simp at hc

theorem Block.writeReg_keepsArguments (b : Block) (off : Nat) (v : Word) : b.KeepsArguments (b.writeReg off v) := by
  intro hb _
  by_cases hs : off = 0x04
  · subst hs; simp
  · by_cases hc : off = 0x08
    · subst hc; simp
    · simp [Block.writeReg_of_busy hb v hs hc]

theorem step_keepsArguments {s t : State} (h : step s = .next t) :
    List.Forall₂ Block.KeepsArguments s.blocks t.blocks :=
  step_blocks_forall₂ .refl (fun _ _ => Block.EngineMove.keepsArguments) Block.writeReg_keepsArguments
    (fun _ _ _ hi hb => by simp [hi] at hb) (fun _ _ hc => by simp [Block.reset] at hc) h

/-- Settles O12: refocusing changes no block, a busy block ignores the write, and every step keeps a running
command's arguments. -/
theorem busyWritesIgnored : Obligations.BusyWritesIgnored := by
  unfold Obligations.BusyWritesIgnored
  refine ⟨fun s t v a k hk ht ha => ?_, fun s t k b c h hb hc => ?_⟩
  · have hf := State.Refocused.of_focus ht
    refine ⟨hf.blocks, hf.mem, fun hbusy hoff => ?_, ?_⟩
    · have hne : a - t.dev.codecBase.toNat ≠ 0x04 ∧ a - t.dev.codecBase.toNat ≠ 0x08 := by
        simp only [List.mem_cons, List.not_mem_nil, or_false] at hoff
        omega
      rw [hostStep_regWrite, regAccess_of_aligned hk ht ha]
      exact writeRegister_of_busy hbusy v hne.1 hne.2
    · rw [hostStep_regRead, regAccess_of_aligned hk ht ha]
      rfl
  · obtain ⟨hkb, rfl⟩ := List.getElem?_eq_some_iff.1 hb
    obtain ⟨hkc, rfl⟩ := List.getElem?_eq_some_iff.1 hc
    exact (step_keepsArguments h).get hkb hkc

/-- Settles O9, from the bits of `CTRL` and the register equations. -/
theorem controlInterruptEnable : Obligations.ControlInterruptEnable := by
  unfold Obligations.ControlInterruptEnable
  refine ⟨fun b => ⟨b.readReg_ctrl, b.ctrl_bits⟩, fun s v => ?_, fun b h => (b.irq_iff.1 h).1, fun base => ?_⟩
  · exact writeRegister_of_ne_cmd s v (by decide)
  · simp [Block.ctrl, Block.reset]

/-- Settles O10: each event decides `DONE`, or `IE` with `DONE` kept. -/
theorem interruptLine : Obligations.InterruptLine := by
  unfold Obligations.InterruptLine
  refine ⟨Block.irq_iff, fun b r => ⟨rfl, Block.irq_of_done rfl⟩, fun b v h => ?_, fun b v h => ?_, fun b v u => ?_⟩
  · rw [Block.writeReg_ctrl, Block.irq_of_done (by simpa using h), Block.writeCtrl_ie]
  · exact Block.irq_of_not_done (by simp [h])
  · exact Block.irq_of_not_done rfl

/-- Settles O14: no register answers past offset 0x18. -/
theorem reservedOffsets : Obligations.ReservedOffsets := by
  unfold Obligations.ReservedOffsets
  intro s off v h _
  refine ⟨Block.readReg_reserved _ h, ?_⟩
  rw [writeRegister_of_ne_cmd s v (by omega), Block.writeReg_reserved _ v h, State.withDev_dev_self]

/-- Settles O15: a register access that is not an aligned word, and any byte access in a window, stop. -/
theorem narrowRegisterAccessRefused : Obligations.NarrowRegisterAccessRefused := by
  unfold Obligations.NarrowRegisterAccessRefused
  intro s v x a width
  refine ⟨fun hw ha => ?_, fun hw => ?_⟩
  · rw [hostStep_regRead, hostStep_regWrite]
    exact ⟨regAccess_of_not_aligned hw ha _, regAccess_of_not_aligned hw ha _⟩
  · have hin : s.inWindow a = true := State.inWindow_iff.2 hw
    exact ⟨if_pos hin, if_pos hin⟩

end Sys2Proof.Machine
end

section
/-! SUPPORT. The statements of 20_memory.md: the extents of a command from its decoded form, and an engine write as
later engine reads see it. -/

namespace Sys2Proof.Machine

theorem needEnc_eq (len k : Nat) : needEnc len k = len + (len + 253) / 254 + k := by
  rw [needEnc, ceilDiv, Nat.add_sub_assoc (by decide)]

section Extents

variable {b : Block} {i : Option Instr} (h : decode b.cmd = i)
include h

theorem Block.inExtent_of_decode : b.inExtent = (b.extentsOf i).1 := by rw [Block.inExtent, h]

theorem Block.outExtent_of_inPlace (hp : inPlace i = true) : b.outExtent = b.inExtent := by
  rw [Block.outExtent, h, if_pos hp]

theorem Block.outExtent_of_not_inPlace (hp : inPlace i = false) : b.outExtent = (b.extentsOf i).2 := by
  rw [Block.outExtent, h, if_neg (by simp [hp])]

/-- A command that does not work in place has the two extents of rule R64's table. -/
theorem Block.extents_of_not_inPlace (hp : inPlace i = false) :
    b.inExtent = (b.extentsOf i).1 ∧ b.outExtent = (b.extentsOf i).2 :=
  ⟨Block.inExtent_of_decode h, Block.outExtent_of_not_inPlace h hp⟩

end Extents

/-- An engine read of another address than the one written answers as before, stops included (rules R62, R63). -/
theorem memRead_poke_other (s : State) {a x : Nat} (v : Byte) (h : x ≠ a) : memRead (s.poke a v) x = memRead s x := by
  simp only [memRead, State.poke_plat, State.poke_incoherentAt, State.read_poke_other s v h]

/-- Settles O21, from the extents of each decoded command. -/
theorem commandExtents : Obligations.CommandExtents := by
  unfold Obligations.CommandExtents
  intro b
  refine ⟨fun h => ?_, fun h => ?_, fun h => ?_, fun h => ?_⟩
  · rw [← needEnc_eq b.len 1]
    exact Block.extents_of_not_inPlace h rfl
  · rw [← needEnc_eq b.len 2]
    exact Block.extents_of_not_inPlace h rfl
  · rcases h with h | h
    · exact Block.extents_of_not_inPlace h rfl
    · exact Block.extents_of_not_inPlace h rfl
  · have hin : b.inExtent = ⟨b.src, b.len⟩ := Block.inExtent_of_decode h
    exact ⟨hin, (Block.outExtent_of_inPlace h rfl).trans hin, by rw [h]; rfl⟩

/-- Settles O24: a write that goes on is a `poke` at an address the engine may reach. -/
theorem engineWriteThenRead : Obligations.EngineWriteThenRead := by
  unfold Obligations.EngineWriteThenRead
  intro s t a v hwf h
  obtain ⟨hdma, hcoh, rfl⟩ := memWrite_eq_next.1 h
  refine ⟨?_, fun x hx => memRead_poke_other s v hx, Memory.wf_write hwf (dmaOk_lt hdma) v, rfl⟩
  exact memRead_eq_next.2 ⟨hdma, hcoh, (State.read_poke_same hwf a v).symm⟩

end Sys2Proof.Machine
end

section
/-! SUPPORT. The decoder on the fields of the word: what it reads of them, which words are legal, and which command a
legal word is (30_encoding.md rules R81 to R87). -/

namespace Sys2Proof

/-- A field is zero exactly when each of its bits in the word is. -/
theorem extractLsb'_eq_zero_iff (w : Word) (start len : Nat) :
    w.extractLsb' start len = 0 ↔ ∀ i, start ≤ i → i < start + len → w.getLsbD i = false := by
  rw [BitVec.eq_of_getLsbD_eq_iff]
  constructor
  · intro h i hl hu
    have hlen : i - start < len := by omega
    simpa [hlen, Nat.add_sub_cancel' hl] using h (i - start) hlen
  · intro h i hi
    simpa [hi] using h (start + i) (by omega) (by omega)

/-- The selector's mask tests the reserved bits and no other (rules R81, R84). -/
theorem and_selectorMask_eq_zero_iff_bits (w : Word) :
    w &&& 0xFFFFFEF8 = 0 ↔ ∀ i < 32, 3 ≤ i ∧ i < 8 ∨ 9 ≤ i → w.getLsbD i = false := by
  have hmask : ∀ i < 32, (0xFFFFFEF8 : Word).getLsbD i = decide (3 ≤ i ∧ i < 8 ∨ 9 ≤ i) := by decide
  rw [BitVec.eq_of_getLsbD_eq_iff]
  refine forall₂_congr fun i hi => ?_
  rw [BitVec.getLsbD_and, hmask i hi]
  by_cases hr : 3 ≤ i ∧ i < 8 ∨ 9 ≤ i <;> simp [hr]

/-- The selector of rule R84 tests that both reserved fields are zero. -/
theorem and_selectorMask_eq_zero_iff (w : Word) :
    w &&& 0xFFFFFEF8 = 0 ↔ (Cmdw.ofWord w).high = 0 ∧ (Cmdw.ofWord w).mid = 0 := by
  rw [and_selectorMask_eq_zero_iff_bits, Cmdw.ofWord, extractLsb'_eq_zero_iff, extractLsb'_eq_zero_iff]
  constructor
  · intro h
    exact ⟨fun i hl hu => h i hu (.inr hl), fun i hl hu => h i (by omega) (.inl ⟨hl, hu⟩)⟩
  · rintro ⟨hhigh, hmid⟩ i hi (⟨hl, hu⟩ | hl)
    · exact hmid i hl hu
    · exact hhigh i hl hi

theorem and_seven_toNat (w : Word) : (w &&& 7).toNat = (Cmdw.ofWord w).op.toNat := by
  rw [Cmdw.ofWord, BitVec.extractLsb'_toNat, BitVec.toNat_and]
  exact Nat.and_two_pow_sub_one_eq_mod w.toNat 3

theorem ofWord_hp_bit (w : Word) : (Cmdw.ofWord w).hp.getLsbD 0 = w.getLsbD 8 := by
  simp [Cmdw.ofWord]

/-- The decoder on the fields of the word (rules R81, R84). -/
theorem decode_eq_fields (w : Word) :
    decode w = if (Cmdw.ofWord w).high = 0 ∧ (Cmdw.ofWord w).mid = 0
      then instrOf (Cmdw.ofWord w).op.toNat ((Cmdw.ofWord w).hp.getLsbD 0) else none := by
  simp only [decode, and_selectorMask_eq_zero_iff, and_seven_toNat, ofWord_hp_bit]

theorem instrOf_eq_some_iff (op : BitVec 3) (hp : BitVec 1) (i : Instr) :
    instrOf op.toNat (hp.getLsbD 0) = some i ↔ hp = i.fields.hp ∧ op = i.fields.op := by
  cases i <;> decide +revert

theorem instrOf_isSome_iff (op : BitVec 3) (hp : Bool) :
    (instrOf op.toNat hp).isSome = true ↔ 1 ≤ op.toNat ∧ op.toNat ≤ 5 := by
  decide +revert

/-- A word decodes to a command exactly when its fields are the command's (rules R83, R84). -/
theorem decode_eq_some_iff_fields (w : Word) (i : Instr) : decode w = some i ↔ Cmdw.ofWord w = i.fields := by
  have hreserved : i.fields.high = 0 ∧ i.fields.mid = 0 := by cases i <;> decide
  rw [decode_eq_fields, Cmdw.mk.injEq, hreserved.1, hreserved.2]
  split
  · next h => rw [instrOf_eq_some_iff]; simp [h]
  · next h => exact iff_of_false (by simp) fun hf => h ⟨hf.1, hf.2.2.1⟩

/-- A word is legal exactly when its reserved fields are zero and its operation is known (rules R84, R86). -/
theorem decode_isSome_iff_fields (w : Word) :
    (decode w).isSome = true ↔ ((Cmdw.ofWord w).high = 0 ∧ (Cmdw.ofWord w).mid = 0) ∧
      1 ≤ (Cmdw.ofWord w).op.toNat ∧ (Cmdw.ofWord w).op.toNat ≤ 5 := by
  rw [decode_eq_fields]
  split
  · next h => rw [instrOf_isSome_iff, and_iff_right h]
  · next h => exact iff_of_false (by simp) fun hf => h hf.1

theorem op_unknown_iff (op : BitVec 3) : ¬(1 ≤ op.toNat ∧ op.toNat ≤ 5) ↔ op = 0 ∨ op = 6 ∨ op = 7 := by
  decide +revert

/-- A word is illegal exactly when its operation is unknown or a reserved field is not zero (rule R86). -/
theorem decode_eq_none_iff_fields (w : Word) :
    decode w = none ↔ (Cmdw.ofWord w).op = 0 ∨ (Cmdw.ofWord w).op = 6 ∨ (Cmdw.ofWord w).op = 7 ∨
      (Cmdw.ofWord w).mid ≠ 0 ∨ (Cmdw.ofWord w).high ≠ 0 := by
  have hop := op_unknown_iff (Cmdw.ofWord w).op
  rw [← Option.not_isSome_iff_eq_none, decode_isSome_iff_fields]
  tauto

end Sys2Proof
end

section
/-! SUPPORT. The statements of 30_encoding.md: the legal words, the null-handle forms at CHECK, and the illegal
words. -/

namespace Sys2Proof.Machine

theorem encStep_check {k : Nat} {hp : Bool} {s : State} (h : s.dev.ph = .check) :
    encStep k hp s = encCheck k hp s := by
  simp [encStep, h]

theorem decStep_check {strict hp : Bool} {s : State} (h : s.dev.ph = .check) :
    decStep strict hp s = decCheck hp s := by
  simp [decStep, h]

theorem ipStep_check {hp : Bool} {s : State} (h : s.dev.ph = .check) : ipStep hp s = ipCheck hp s := by
  simp [ipStep, h]

theorem illegalStep_check {s : State} (h : s.dev.ph = .check) :
    illegalStep s = .next (s.finish .illegalCommand) := by
  simp [illegalStep, h]

/-- A null-handle form ends at CHECK before any other check (rule R84). -/
theorem exec_check_of_nullHandle {s : State} {i : Instr} (hc : s.dev.ph = .check) (hi : i.fields.hp = 0) :
    exec i s = .next (s.finish .outputBufferNull) := by
  cases i with
  | encNohp | encdNohp => exact encStep_check hc
  | decsNohp | declNohp => exact decStep_check hc
  | encipNohp => exact ipStep_check hc
  | enc | encd | decs | decl | encip => exact absurd hi (by decide)

theorem engineStep_of_illegal {s : State} (he : s.dev.ph ≠ .idle) (hd : decode s.dev.cmd = none) :
    engineStep s = illegalStep s := by
  have henabled : s.dev.enabled = true := by simpa [Block.enabled] using he
  simp [engineStep, henabled, hd]

/-- An illegal word has no extent, so it shares no address with another command (rules R64, R86, R256). -/
theorem Block.not_conflicts_of_illegal {b : Block} (h : decode b.cmd = none) (c : Block) :
    b.conflicts c = false := by
  obtain ⟨hin, hout⟩ := Block.extents_of_not_inPlace h rfl
  simp [Block.conflicts, hin, hout, Block.extentsOf, Region.meets, disjoint]

/-- An illegal word is accepted whatever the other blocks run (rules R48, R86). -/
theorem writeCmd_of_illegal {s : State} {w : Word} (hw : decode w = none) (hb : s.dev.busy = false) :
    writeCmd s w = .next (s.accept w) := by
  rcases writeCmd_cases s w with ⟨hbusy, -⟩ | ⟨-, ⟨c, -, -, hc⟩, -⟩ | ⟨-, -, h⟩
  · exact absurd hbusy (by simp [hb])
  · have hno : (s.accept w).dev.conflicts c = false := Block.not_conflicts_of_illegal hw c
    exact absurd hc (by rw [hno]; decide)
  · exact h

/-- Settles O5: the fields of a word decide its command, and a null handle ends it at CHECK. -/
theorem legalWordSelector : Obligations.LegalWordSelector := by
  unfold Obligations.LegalWordSelector Obligations.TableWordsDecode
  refine ⟨by decide, fun w => ?_, fun w i h => ?_, fun s i hc hd hi => ?_⟩
  · rw [and_selectorMask_eq_zero_iff]
    exact decode_isSome_iff_fields w
  · rw [← (decode_eq_some_iff_fields w i).1 h]
    exact ⟨rfl, rfl⟩
  · rw [engineStep_of_decode (by simp [hc]) hd]
    exact exec_check_of_nullHandle hc hi

/-- Settles O6: the fields of a word say when it is illegal; such a word has no extents, and CHECK ends it. -/
theorem illegalWordsEndAtCheck : Obligations.IllegalWordsEndAtCheck := by
  unfold Obligations.IllegalWordsEndAtCheck
  refine ⟨decode_eq_none_iff_fields, fun s w hw hb => writeCmd_of_illegal hw hb, fun s hc hd => ?_⟩
  exact (engineStep_of_illegal (by simp [hc]) hd).trans (illegalStep_check hc)

end Sys2Proof.Machine
end

section
/-! SUPPORT. The statements of 40_encode.md: what an engine access answers where the engine may reach, and the answer
of each branch of the encoder's CHECK and E_RUN steps. -/

namespace Sys2Proof.Machine

theorem memRead_of_reaches {s : State} {a : Nat} (h : s.reaches a) : memRead s a = .next (s.mem.read a) :=
  memRead_eq_next.2 ⟨h.1, h.2, rfl⟩

theorem memWrite_of_reaches {s : State} {a : Nat} (h : s.reaches a) (v : Byte) :
    memWrite s a v = .next (s.poke a v) :=
  memWrite_eq_next.2 ⟨h.1, h.2, rfl⟩

/-- An engine write leaves reachable what was (rules R62, R63, R72). -/
@[simp] theorem State.poke_reaches (s : State) (a x : Nat) (v : Byte) : (s.poke a v).reaches x ↔ s.reaches x := .rfl

/-- The invariant of the block in focus, in its phase. -/
theorem State.Inv.phaseInv {s : State} (h : s.Inv) : s.dev.phaseInv s.plat := by
  obtain ⟨-, hblocks, -⟩ := h
  obtain ⟨-, -, hphase, -⟩ := hblocks s.dev (State.mem_blocks.2 (.inl rfl))
  exact hphase

/-- In E_RUN the invariant bounds the encoder's cursors (rules R103, R105). -/
theorem State.Inv.encCursors_of_eRun {s : State} (h : s.Inv) (hph : s.dev.ph = .eRun) : s.dev.encCursors := by
  have hphase := h.phaseInv
  rw [Block.phaseInv, hph] at hphase
  obtain ⟨-, hcursors, -⟩ := hphase
  exact hcursors

section Check

variable {s : State} {k : Nat}

theorem encCheck_of_cap_lt (h : s.dev.cap < needEnc s.dev.len k) :
    encCheck k true s = .next (s.finish .badOutputLength) := by
  simp [encCheck, h]

theorem encCheck_of_not_extentOk (hcap : needEnc s.dev.len k ≤ s.dev.cap)
    (h : extentOk s.plat s.dev.src s.dev.len = false ∨ extentOk s.plat s.dev.dst (needEnc s.dev.len k) = false) :
    encCheck k true s = .next (s.finish .busError) := by
  simp [encCheck, hcap.not_gt, h]

theorem encCheck_of_overlap (hcap : needEnc s.dev.len k ≤ s.dev.cap)
    (hsrc : extentOk s.plat s.dev.src s.dev.len = true)
    (hdst : extentOk s.plat s.dev.dst (needEnc s.dev.len k) = true)
    (h : disjoint s.dev.src s.dev.len s.dev.dst (needEnc s.dev.len k) = false) :
    encCheck k true s = .refused .overlappingBuffers := by
  simp [encCheck, hcap.not_gt, hsrc, hdst, h]

theorem encCheck_of_encReady (h : s.dev.encReady s.plat k) :
    encCheck k true s = .next (s.withDev { s.dev with rd := 0, cp := 0, wr := 1, code := 1, ph := .eRun }) := by
  obtain ⟨hcap, hsrc, hdst, hdisjoint⟩ := h
  simp [encCheck, hcap.not_gt, hsrc, hdst, hdisjoint]

/-- `ENC` checks with `K = 1` and `ENCD` with `K = 2` (rules R101, R102). -/
theorem exec_check_of_encode {i : Instr} (hi : (i = .enc ∧ k = 1) ∨ (i = .encd ∧ k = 2))
    (hph : s.dev.ph = .check) : exec i s = encCheck k true s := by
  rcases hi with ⟨rfl, rfl⟩ | ⟨rfl, rfl⟩
  · rw [exec_enc, encStep_check hph]
  · rw [exec_encd, encStep_check hph]

end Check

section Run

variable {s : State}

theorem encStep_eRun {k : Nat} {hp : Bool} (h : s.dev.ph = .eRun) : encStep k hp s = encRun s := by
  simp [encStep, h]

theorem exec_eRun_of_encode {i : Instr} (hi : i = .enc ∨ i = .encd) (hph : s.dev.ph = .eRun) :
    exec i s = encRun s := by
  rcases hi with rfl | rfl
  · rw [exec_enc, encStep_eRun hph]
  · rw [exec_encd, encStep_eRun hph]

theorem encRun_of_end (h : s.dev.rd = s.dev.len) : encRun s = .next (s.withDev { s.dev with ph := .eFin }) := by
  simp [encRun, h]

variable (hrd : s.dev.rd ≠ s.dev.len) (hsrc : s.reaches (s.dev.src + s.dev.rd))
include hrd hsrc

/-- A zero byte finalizes the pending code and opens the next slot (rule R103). -/
theorem encRun_of_zero (hx : s.mem.read (s.dev.src + s.dev.rd) = delim) (hcp : s.reaches (s.dev.dst + s.dev.cp)) :
    encRun s = .next ((s.poke (s.dev.dst + s.dev.cp) s.dev.code).withDev
      { s.dev with rd := s.dev.rd + 1, cp := s.dev.wr, wr := s.dev.wr + 1, code := 1 }) := by
  simp only [encRun, if_neg hrd, memRead_of_reaches hsrc, andThen_next, if_pos hx, memWrite_of_reaches hcp]

/-- A data byte that leaves the group open (rule R103). -/
theorem encRun_of_data (hx : s.mem.read (s.dev.src + s.dev.rd) ≠ delim) (hwr : s.reaches (s.dev.dst + s.dev.wr))
    (hcode : s.dev.code + 1 ≠ fullCode) :
    encRun s = .next ((s.poke (s.dev.dst + s.dev.wr) (s.mem.read (s.dev.src + s.dev.rd))).withDev
      { s.dev with rd := s.dev.rd + 1, wr := s.dev.wr + 1, code := s.dev.code + 1 }) := by
  simp only [encRun, if_neg hrd, memRead_of_reaches hsrc, andThen_next, if_neg hx, memWrite_of_reaches hwr,
    if_neg hcode]

/-- A data byte that fills the group: the slot gets the full code and the next one is opened (rule R103). -/
theorem encRun_of_full (hx : s.mem.read (s.dev.src + s.dev.rd) ≠ delim) (hwr : s.reaches (s.dev.dst + s.dev.wr))
    (hcode : s.dev.code + 1 = fullCode) (hcp : s.reaches (s.dev.dst + s.dev.cp)) :
    encRun s = .next (((s.poke (s.dev.dst + s.dev.wr) (s.mem.read (s.dev.src + s.dev.rd))).poke
      (s.dev.dst + s.dev.cp) fullCode).withDev
      { s.dev with rd := s.dev.rd + 1, cp := s.dev.wr + 1, wr := s.dev.wr + 2, code := 1 }) := by
  have hcp' := (s.poke_reaches (s.dev.dst + s.dev.wr) _ (s.mem.read (s.dev.src + s.dev.rd))).2 hcp
  simp only [encRun, if_neg hrd, memRead_of_reaches hsrc, andThen_next, if_neg hx, memWrite_of_reaches hwr,
    if_pos hcode, memWrite_of_reaches hcp']

end Run

/-- The test for a full group on the pending code's value: a byte wraps to 0 and not to 255. -/
theorem add_one_eq_fullCode_iff (c : Byte) : c + 1 = fullCode ↔ c.toNat + 1 = 255 := by
  unfold fullCode
  bv_omega

theorem ofNat_toNat_add_one (c : Byte) : BitVec.ofNat 8 (c.toNat + 1) = c + 1 := by
  rw [BitVec.ofNat_add, BitVec.ofNat_toNat, BitVec.setWidth_eq]
  rfl

/-- Settles O25: the handle, then CHECK's tests in their order. -/
theorem encoderCheckStep : Obligations.EncoderCheckStep := by
  unfold Obligations.EncoderCheckStep
  refine ⟨fun s i hi hph => ?_, fun s i k hi hph => ?_⟩
  · exact exec_check_of_nullHandle hph (by rcases hi with rfl | rfl <;> rfl)
  · rw [exec_check_of_encode hi hph]
    refine ⟨encCheck_of_cap_lt, fun hcap => ⟨encCheck_of_not_extentOk hcap, fun hsrc hdst => ⟨?_, ?_⟩⟩⟩
    · exact encCheck_of_overlap hcap hsrc hdst
    · exact fun hdisjoint => encCheck_of_encReady ⟨hcap, hsrc, hdst, hdisjoint⟩

/-- Settles O26: one equation per branch of E_RUN, and the invariant's bound on the pending code. -/
theorem encoderRunStep : Obligations.EncoderRunStep := by
  unfold Obligations.EncoderRunStep
  intro s i hi hph
  rw [exec_eRun_of_encode hi hph]
  refine ⟨encRun_of_end, fun hrd hsrc => ⟨encRun_of_zero hrd hsrc, fun hx hwr => ⟨fun hopen _ => ?_, fun hfull => ?_⟩⟩,
    fun h => ?_⟩
  · rw [ofNat_toNat_add_one]
    exact encRun_of_data hrd hsrc hx hwr (mt (add_one_eq_fullCode_iff _).1 hopen)
  · exact encRun_of_full hrd hsrc hx hwr ((add_one_eq_fullCode_iff _).2 hfull)
  · obtain ⟨hlo, hhi, -⟩ := h.encCursors_of_eRun hph
    exact ⟨hlo, by omega⟩

end Sys2Proof.Machine
end

section
/-! SUPPORT. The decoder's walk over what the encoder wrote (40_encode.md rule R107; 41_decode.md rules R131 to R135):
the walk passes a group, then the groups of a segment, then those of a payload. -/

namespace Sys2Proof.Machine

theorem segments_ne_nil (p : List Byte) : segments p ≠ [] := by
  fun_cases segments p <;> simp_all

theorem segments_delim_cons (p : List Byte) : segments (delim :: p) = [] :: segments p := by
  simp [segments]

/-- A byte that is not zero goes to the first segment (rule R107). -/
theorem segments_cons_of_ne_delim {x : Byte} (hx : x ≠ delim) (p : List Byte) :
    ∃ s r, segments p = s :: r ∧ segments (x :: p) = (x :: s) :: r := by
  obtain ⟨s, r, hs⟩ := List.exists_cons_of_ne_nil (segments_ne_nil p)
  exact ⟨s, r, hs, by simp [segments, hx, hs]⟩

/-- The payload is its segments with a zero between each two (rules R105, R107). -/
theorem intercalate_segments (p : List Byte) : [delim].intercalate (segments p) = p := by
  induction p with
  | nil => simp [segments]
  | cons x p ih =>
    by_cases hx : x = delim
    · subst hx
      obtain ⟨s, r, hs⟩ := List.exists_cons_of_ne_nil (segments_ne_nil p)
      rw [segments_delim_cons, hs, List.intercalate_cons_cons, ← hs, ih]
      rfl
    · obtain ⟨s, r, hs, hxs⟩ := segments_cons_of_ne_delim hx p
      rw [hs] at ih
      rw [hxs, ← ih]
      cases r <;> simp

theorem segFuel_ne_nil (f : Nat) (s : List Byte) : segFuel f s ≠ [] := by
  fun_cases segFuel f s <;> simp

theorem seg_ne_nil (s : List Byte) : seg s ≠ [] := segFuel_ne_nil s.length s

/-- A point of the decoder's walk: the input left, the output so far, and whether that ends in the placeholder. -/
structure WalkPoint where
  rest : List Byte
  out : List Byte
  zp : Bool

/-- The walk from `a` with fuel for its input comes to what the walk from `b` comes to, again with fuel for its input;
the steps taken are left open. -/
def WalkPoint.Reaches (strict : Bool) (a b : WalkPoint) : Prop :=
  ∀ f n, a.rest.length ≤ f → ∃ g m, b.rest.length ≤ g ∧
    decodeWalk strict f a.rest a.out a.zp n = decodeWalk strict g b.rest b.out b.zp m

/-- The point after a group below the full code: the reconstructed zero, unless the input has ended (rule R134). -/
def WalkPoint.afterGroup (rest out : List Byte) : WalkPoint :=
  ⟨rest, out ++ if rest.isEmpty then [] else [delim], !rest.isEmpty⟩

namespace WalkPoint

variable {strict : Bool}

theorem Reaches.trans {a b c : WalkPoint} (hab : a.Reaches strict b) (hbc : b.Reaches strict c) :
    a.Reaches strict c := by
  intro f n hf
  obtain ⟨g, m, hg, hfg⟩ := hab f n hf
  obtain ⟨k, l, hk, hgk⟩ := hbc g m hg
  exact ⟨k, l, hk, hfg.trans hgk⟩

/-- The walk passes a group whose code is one more than its data bytes (rules R131, R133, R134). -/
theorem reaches_of_group {c : Byte} {data : List Byte} (h : c.toNat = data.length + 1) (rest out : List Byte)
    (zp : Bool) :
    Reaches strict ⟨c :: (data ++ rest), out, zp⟩
      ⟨rest, out ++ data ++ (if decide (c ≠ fullCode) && !rest.isEmpty then [delim] else []),
        decide (c ≠ fullCode) && !rest.isEmpty⟩ := by
  intro f n hf
  obtain ⟨f, rfl⟩ := Nat.exists_eq_add_of_le' ((Nat.le_add_left 1 _).trans hf)
  refine ⟨f, n + (c.toNat + 1), by simp at hf ⊢; omega, ?_⟩
  have hc : c ≠ delim := by rintro rfl; simp [delim] at h
  simp [decodeWalk, hc, h]

theorem reaches_of_full_group {data : List Byte} (h : data.length = 254) (rest out : List Byte) (zp : Bool) :
    Reaches strict ⟨fullCode :: (data ++ rest), out, zp⟩ ⟨rest, out ++ data, false⟩ := by
  simpa using reaches_of_group (strict := strict) (c := fullCode) (by rw [h]; rfl) rest out zp

theorem reaches_of_short_group {data : List Byte} (h : data.length < 254) (rest out : List Byte) (zp : Bool) :
    Reaches strict ⟨BitVec.ofNat 8 (data.length + 1) :: (data ++ rest), out, zp⟩ (afterGroup rest (out ++ data)) := by
  have hcode : (BitVec.ofNat 8 (data.length + 1)).toNat = data.length + 1 := by
    rw [BitVec.toNat_ofNat]; omega
  have hfull : BitVec.ofNat 8 (data.length + 1) ≠ fullCode := by
    intro he
    have hlen : data.length + 1 = 255 := hcode.symm.trans (congrArg BitVec.toNat he)
    omega
  simpa [afterGroup, hfull] using reaches_of_group (strict := strict) hcode rest out zp

/-- The groups of one segment give the segment, and the zero that follows it (rules R107, R134). -/
theorem reaches_of_segFuel (f : Nat) {s : List Byte} (h : s.length ≤ f) (rest out : List Byte) (zp : Bool) :
    Reaches strict ⟨segFuel f s ++ rest, out, zp⟩ (afterGroup rest (out ++ s)) := by
  induction f generalizing s out zp with
  | zero => exact reaches_of_short_group (by omega) rest out zp
  | succ f ih =>
    rw [segFuel]
    split
    · next hfull =>
      have hdrop := ih (s := s.drop 254) (by simp; omega) (out ++ s.take 254) false
      rw [List.append_assoc, List.take_append_drop] at hdrop
      have htake := reaches_of_full_group (strict := strict) (data := s.take 254) (by simp [hfull])
        (segFuel f (s.drop 254) ++ rest) out zp
      simpa using htake.trans hdrop
    · next hshort => exact reaches_of_short_group (by omega) rest out zp

theorem reaches_of_seg (s rest out : List Byte) (zp : Bool) :
    Reaches strict ⟨seg s ++ rest, out, zp⟩ (afterGroup rest (out ++ s)) :=
  reaches_of_segFuel s.length le_rfl rest out zp

/-- The groups of a payload's segments give them with a zero between each two, and one after them if more input
follows (rules R107, R134). -/
theorem reaches_of_segs {ss : List (List Byte)} (h : ss ≠ []) (rest out : List Byte) (zp : Bool) :
    Reaches strict ⟨ss.flatMap seg ++ rest, out, zp⟩ (afterGroup rest (out ++ [delim].intercalate ss)) := by
  induction ss generalizing out zp with
  | nil => exact absurd rfl h
  | cons s ss ih =>
    cases ss with
    | nil => simpa using reaches_of_seg s rest out zp
    | cons t ss =>
      have hs := reaches_of_seg (strict := strict) s ((t :: ss).flatMap seg ++ rest) out zp
      have hmore : ((t :: ss).flatMap seg ++ rest).isEmpty = false := by simp [seg_ne_nil]
      have hss := ih (by simp) (out ++ s ++ [delim]) true
      rw [afterGroup, hmore] at hs
      simpa using hs.trans hss

end WalkPoint

/-- The walk over `Enc(p, 1)` and what follows it gives `p` back (rules R107, R140). -/
theorem reaches_of_encoded (strict : Bool) (p rest : List Byte) :
    WalkPoint.Reaches strict ⟨encoded p 1 ++ rest, [], false⟩ (.afterGroup rest p) := by
  simpa [encoded, intercalate_segments] using
    WalkPoint.reaches_of_segs (strict := strict) (segments_ne_nil p) rest [] false

theorem encoded_two (p : List Byte) : encoded p 2 = encoded p 1 ++ [delim] := by simp [encoded]

/-- Without the delimiter the input ends there (rule R140 (a), (d)). -/
theorem decoded_encoded_one (strict : Bool) (p : List Byte) :
    ∃ n, decoded strict (encoded p 1) = ⟨.ok, p, some p.length, n⟩ := by
  obtain ⟨g, m, -, h⟩ := reaches_of_encoded strict p [] _ 1 le_rfl
  refine ⟨m + 1, ?_⟩
  simpa [decoded, decodeWalk, WalkPoint.afterGroup] using h

/-- The delimiter is a zero code byte after the placeholder (rules R135, R140 (b), (c)). -/
theorem decoded_encoded_two (strict : Bool) (p : List Byte) :
    ∃ n, decoded strict (encoded p 2) = if strict then ⟨.zeroByteInInput, p ++ [delim], none, n⟩
      else ⟨.eofInInput, p ++ [delim], some p.length, n⟩ := by
  obtain ⟨g, m, hg, h⟩ := reaches_of_encoded strict p [delim] _ 1 le_rfl
  obtain ⟨g, rfl⟩ := Nat.exists_eq_add_of_le' (m := 1) hg
  refine ⟨m + 1, ?_⟩
  rw [decoded, encoded_two, h]
  simp [decodeWalk, WalkPoint.afterGroup]

/-- Settles O53, from the walk over the encoded payload with nothing or the delimiter after it. -/
theorem roundTrip : Obligations.RoundTrip := by
  unfold Obligations.RoundTrip
  intro p
  have htake : (encoded p 2).take ((encoded p 2).length - 1) = encoded p 1 := by simp [encoded_two]
  refine ⟨fun strict => ?_, ?_, ?_, ?_⟩
  · obtain ⟨n, h⟩ := decoded_encoded_one strict p
    simp [h]
  · obtain ⟨n, h⟩ := decoded_encoded_two false p
    simp [h]
  · obtain ⟨n, h⟩ := decoded_encoded_two true p
    simp [h]
  · obtain ⟨n, h⟩ := decoded_encoded_one true p
    simp [htake, h]

end Sys2Proof.Machine
end

section
/-! SUPPORT. The step statements of 41_decode.md: the answer of each branch of the decoder's CHECK, D_CODE and D_COPY
steps. -/

namespace Sys2Proof.Machine

section Check

variable {s : State}

theorem decCheck_of_cap_lt (h : s.dev.cap < needDec s.dev.len) :
    decCheck true s = .next (s.finish .badOutputLength) := by
  simp [decCheck, h]

theorem decCheck_of_not_extentOk (hcap : needDec s.dev.len ≤ s.dev.cap)
    (h : extentOk s.plat s.dev.src s.dev.len = false ∨ extentOk s.plat s.dev.dst (needDec s.dev.len) = false) :
    decCheck true s = .next (s.finish .busError) := by
  simp [decCheck, hcap.not_gt, h]

theorem decCheck_of_overlap (hcap : needDec s.dev.len ≤ s.dev.cap)
    (hsrc : extentOk s.plat s.dev.src s.dev.len = true)
    (hdst : extentOk s.plat s.dev.dst (needDec s.dev.len) = true)
    (h : disjoint s.dev.src s.dev.len s.dev.dst (needDec s.dev.len) = false) :
    decCheck true s = .refused .overlappingBuffers := by
  simp [decCheck, hcap.not_gt, hsrc, hdst, h]

theorem decCheck_of_decReady (h : s.dev.decReady s.plat) :
    decCheck true s = .next (s.withDev { s.dev with rd := 0, wr := 0, zp := false, ph := .dCode }) := by
  obtain ⟨hcap, hsrc, hdst, hdisjoint⟩ := h
  simp [decCheck, hcap.not_gt, hsrc, hdst, hdisjoint]

end Check

section Code

variable {s : State} {strict : Bool}

theorem decStep_dCode {hp : Bool} (h : s.dev.ph = .dCode) : decStep strict hp s = decCode strict s := by
  simp [decStep, h]

theorem decCode_of_end (h : s.dev.rd = s.dev.len) : decCode strict s = .next (s.finishLen .ok s.dev.wr) := by
  simp [decCode, h]

variable (hrd : s.dev.rd ≠ s.dev.len) (hsrc : s.reaches (s.dev.src + s.dev.rd))
include hrd hsrc

/-- A zero code byte is an error to the strict policy (rule R133). -/
theorem decCode_strict_of_zero (hc : s.mem.read (s.dev.src + s.dev.rd) = delim) :
    decCode true s = .next (s.finish .zeroByteInInput) := by
  simp only [decCode, if_neg hrd, memRead_of_reaches hsrc, andThen_next, if_pos hc, if_true]

/-- A zero code byte ends the input early for the lenient policy, the placeholder left out (rule R135). -/
theorem decCode_lenient_of_zero (hc : s.mem.read (s.dev.src + s.dev.rd) = delim) :
    decCode false s = .next (s.finishLen .eofInInput (s.dev.wr - s.dev.zp.toNat)) := by
  simp [decCode, hrd, memRead_of_reaches hsrc, hc]

variable (hc : s.mem.read (s.dev.src + s.dev.rd) ≠ delim)
include hc

/-- A group that does not fit in the input (rule R133). -/
theorem decCode_of_beyond (hfit : s.dev.len < s.dev.rd + (s.mem.read (s.dev.src + s.dev.rd)).toNat)
    (hone : s.mem.read (s.dev.src + s.dev.rd) ≠ 1) : decCode strict s = .next (s.finish .zeroBeyondBuffer) := by
  simp only [decCode, if_neg hrd, memRead_of_reaches hsrc, andThen_next, if_neg hc, if_pos (And.intro hfit hone)]

/-- A group that fits is opened (rule R133). -/
theorem decCode_of_group (hfit : s.dev.rd + (s.mem.read (s.dev.src + s.dev.rd)).toNat ≤ s.dev.len ∨
      s.mem.read (s.dev.src + s.dev.rd) = 1) :
    decCode strict s = .next (s.withDev { s.dev with
      code := s.mem.read (s.dev.src + s.dev.rd), cnt := s.mem.read (s.dev.src + s.dev.rd) - 1
      rd := s.dev.rd + 1, zp := false, ph := .dCopy }) := by
  have hnot : ¬(s.dev.rd + (s.mem.read (s.dev.src + s.dev.rd)).toNat > s.dev.len ∧
      s.mem.read (s.dev.src + s.dev.rd) ≠ 1) := fun h => hfit.elim h.1.not_ge h.2
  simp only [decCode, if_neg hrd, memRead_of_reaches hsrc, andThen_next, if_neg hc, if_neg hnot]

end Code

section Copy

variable {s : State}

theorem decStep_dCopy {strict hp : Bool} (h : s.dev.ph = .dCopy) : decStep strict hp s = decCopy s := by
  simp [decStep, h]

/-- A data byte is copied as it is (rules R134, R138). -/
theorem decCopy_of_data (hcnt : s.dev.cnt ≠ 0) (hsrc : s.reaches (s.dev.src + s.dev.rd))
    (hdst : s.reaches (s.dev.dst + s.dev.wr)) :
    decCopy s = .next ((s.poke (s.dev.dst + s.dev.wr) (s.mem.read (s.dev.src + s.dev.rd))).withDev
      { s.dev with rd := s.dev.rd + 1, wr := s.dev.wr + 1, cnt := s.dev.cnt - 1 }) := by
  simp only [decCopy, if_pos hcnt, memRead_of_reaches hsrc, andThen_next, memWrite_of_reaches hdst]

/-- The reconstructed zero (rule R134). -/
theorem decCopy_of_zero (hcnt : s.dev.cnt = 0) (hcode : s.dev.code ≠ fullCode) (hrd : s.dev.rd ≠ s.dev.len)
    (hdst : s.reaches (s.dev.dst + s.dev.wr)) :
    decCopy s = .next ((s.poke (s.dev.dst + s.dev.wr) delim).withDev
      { s.dev with wr := s.dev.wr + 1, zp := true, ph := .dCode }) := by
  simp only [decCopy, if_neg (not_not.2 hcnt), if_pos (And.intro hcode hrd), memWrite_of_reaches hdst, andThen_next]

/-- No zero follows a full group or the end of the input (rule R134). -/
theorem decCopy_of_no_zero (hcnt : s.dev.cnt = 0) (h : s.dev.code = fullCode ∨ s.dev.rd = s.dev.len) :
    decCopy s = .next (s.withDev { s.dev with ph := .dCode }) := by
  have hnot : ¬(s.dev.code ≠ fullCode ∧ s.dev.rd ≠ s.dev.len) := fun hz => h.elim hz.1 hz.2
  simp only [decCopy, if_neg (not_not.2 hcnt), if_neg hnot]

/-- The invariant leaves input for the group's data bytes (rules R133, R134). -/
theorem State.Inv.rd_lt_len_of_dCopy (h : s.Inv) (hph : s.dev.ph = .dCopy) (hcnt : s.dev.cnt ≠ 0) :
    s.dev.rd < s.dev.len := by
  have hphase := h.phaseInv
  rw [Block.phaseInv, hph] at hphase
  obtain ⟨-, -, -, hfit, -, -⟩ := hphase
  have hpos : 0 < s.dev.cnt.toNat := by bv_omega
  omega

end Copy

/-- DECS is the decoder's step under the strict policy and DECL under the lenient one (rules R145, R146). -/
theorem exec_of_decode {i : Instr} (hi : i = .decs ∨ i = .decl) (s : State) :
    ∃ strict, exec i s = decStep strict true s := by
  rcases hi with rfl | rfl
  · exact ⟨true, exec_decs s⟩
  · exact ⟨false, exec_decl s⟩

/-- Settles O28: the handle, then CHECK's tests in their order. -/
theorem decoderCheckStep : Obligations.DecoderCheckStep := by
  unfold Obligations.DecoderCheckStep
  refine ⟨fun s i hi hph => ?_, fun s i hi hph => ?_⟩
  · exact exec_check_of_nullHandle hph (by rcases hi with rfl | rfl <;> rfl)
  · obtain ⟨strict, hexec⟩ := exec_of_decode hi s
    rw [hexec, decStep_check hph]
    refine ⟨decCheck_of_cap_lt, fun hcap => ⟨decCheck_of_not_extentOk hcap, fun hsrc hdst => ⟨?_, ?_⟩⟩⟩
    · exact decCheck_of_overlap hcap hsrc hdst
    · exact fun hdisjoint => decCheck_of_decReady ⟨hcap, hsrc, hdst, hdisjoint⟩

/-- Settles O29: one equation per branch of D_CODE; the policies differ on a zero code byte alone. -/
theorem decoderCodeStep : Obligations.DecoderCodeStep := by
  unfold Obligations.DecoderCodeStep
  intro s hph
  refine ⟨fun hend i hi => ?_, ?_⟩
  · obtain ⟨strict, hexec⟩ := exec_of_decode hi s
    rw [hexec, decStep_dCode hph]
    exact decCode_of_end hend
  · rintro hrd hsrc c rfl
    refine ⟨fun hc => ⟨?_, ?_⟩, fun hc i hi => ?_⟩
    · rw [exec_decs, decStep_dCode hph]
      exact decCode_strict_of_zero hrd hsrc hc
    · rw [exec_decl, decStep_dCode hph, ← Bool.cond_eq_ite]
      exact decCode_lenient_of_zero hrd hsrc hc
    · obtain ⟨strict, hexec⟩ := exec_of_decode hi s
      rw [hexec, decStep_dCode hph]
      exact ⟨fun h => decCode_of_beyond hrd hsrc hc h.1 h.2, decCode_of_group hrd hsrc hc⟩

/-- Settles O30: one equation per branch of D_COPY, and the invariant's bound on the group's data bytes. -/
theorem decoderCopyStep : Obligations.DecoderCopyStep := by
  unfold Obligations.DecoderCopyStep
  intro s i hi hph
  obtain ⟨strict, hexec⟩ := exec_of_decode hi s
  rw [hexec, decStep_dCopy hph]
  exact ⟨decCopy_of_data, decCopy_of_zero, decCopy_of_no_zero, fun h => h.rd_lt_len_of_dCopy hph⟩

end Sys2Proof.Machine
end

section
/-! SUPPORT. The step statements of 42_inplace.md: the answer of each branch of ENCIP's CHECK, I_SCAN and I_FIN
steps. -/

namespace Sys2Proof.Machine

section Check

variable {s : State}

theorem ipCheck_of_len_lt (h : s.dev.len < 2) : ipCheck true s = .next (s.finish .badOutputLength) := by
  simp [ipCheck, h]

theorem ipCheck_of_not_extentOk (hlen : 2 ≤ s.dev.len) (h : extentOk s.plat s.dev.src s.dev.len = false) :
    ipCheck true s = .next (s.finish .busError) := by
  simp [ipCheck, hlen.not_gt, h]

variable (hready : s.dev.ipReady s.plat) (hfirst : s.reaches s.dev.src) (hlast : s.reaches (s.dev.src + s.dev.len - 1))
include hready hfirst hlast

/-- Both sentinels are read before the test (rule R162). -/
theorem ipCheck_of_ipReady :
    ipCheck true s = if s.mem.read s.dev.src ≠ s.plat.sentinel ∨
        s.mem.read (s.dev.src + s.dev.len - 1) ≠ s.plat.sentinel then .next (s.finish .badPayload)
      else .next (s.withDev { s.dev with cp := 0, rd := 1, ph := .iScan }) := by
  obtain ⟨hlen, hext⟩ := hready
  simp [ipCheck, hlen.not_gt, hext, memRead_of_reaches hfirst, memRead_of_reaches hlast]

theorem ipCheck_of_wrong_sentinel (h : s.mem.read s.dev.src ≠ s.plat.sentinel ∨
      s.mem.read (s.dev.src + s.dev.len - 1) ≠ s.plat.sentinel) :
    ipCheck true s = .next (s.finish .badPayload) := by
  rw [ipCheck_of_ipReady hready hfirst hlast, if_pos h]

theorem ipCheck_of_sentinels (h : s.mem.read s.dev.src = s.plat.sentinel)
    (h' : s.mem.read (s.dev.src + s.dev.len - 1) = s.plat.sentinel) :
    ipCheck true s = .next (s.withDev { s.dev with cp := 0, rd := 1, ph := .iScan }) := by
  rw [ipCheck_of_ipReady hready hfirst hlast, if_neg (not_or.2 ⟨not_not.2 h, not_not.2 h'⟩)]

end Check

section Scan

variable {s : State}

theorem ipStep_iScan {hp : Bool} (h : s.dev.ph = .iScan) : ipStep hp s = ipScan s := by
  simp [ipStep, h]

theorem ipScan_of_end (h : s.dev.len - 1 ≤ s.dev.rd) : ipScan s = .next (s.withDev { s.dev with ph := .iFin }) := by
  simp only [ipScan, if_neg h.not_gt]

/-- In I_SCAN the invariant has the code position below the cursor, so a backfilled offset is not zero (rule R163). -/
theorem State.Inv.offset_ne_zero_of_iScan (h : s.Inv) (hph : s.dev.ph = .iScan)
    (hoff : s.dev.rd - s.dev.cp ≤ 255) : BitVec.ofNat 8 (s.dev.rd - s.dev.cp) ≠ 0x00 := by
  have hphase := h.phaseInv
  rw [Block.phaseInv, hph] at hphase
  obtain ⟨-, -, hlt, -⟩ := hphase
  bv_omega

variable (hrd : s.dev.rd < s.dev.len - 1) (hsrc : s.reaches (s.dev.src + s.dev.rd))
include hrd hsrc

/-- A byte that is not zero is passed (rule R163). -/
theorem ipScan_of_data (hx : s.mem.read (s.dev.src + s.dev.rd) ≠ delim) :
    ipScan s = .next (s.withDev { s.dev with rd := s.dev.rd + 1 }) := by
  simp only [ipScan, if_pos hrd, memRead_of_reaches hsrc, andThen_next, if_neg hx]

variable (hx : s.mem.read (s.dev.src + s.dev.rd) = delim)
include hx

/-- A zero byte too far from the code position ends the command (rule R163). -/
theorem ipScan_of_far_zero (hoff : ipMaxOffset < s.dev.rd - s.dev.cp) :
    ipScan s = .next (s.finish .badPayload) := by
  simp only [ipScan, if_pos hrd, memRead_of_reaches hsrc, andThen_next, if_pos hx, if_pos hoff]

/-- A zero byte in range backfills the code position, and becomes the next one (rule R163). -/
theorem ipScan_of_zero (hoff : s.dev.rd - s.dev.cp ≤ ipMaxOffset) (hcp : s.reaches (s.dev.src + s.dev.cp)) :
    ipScan s = .next ((s.poke (s.dev.src + s.dev.cp) (BitVec.ofNat 8 (s.dev.rd - s.dev.cp))).withDev
      { s.dev with cp := s.dev.rd, rd := s.dev.rd + 1 }) := by
  simp only [ipScan, if_pos hrd, memRead_of_reaches hsrc, andThen_next, if_pos hx, if_neg hoff.not_gt,
    memWrite_of_reaches hcp]

end Scan

section Final

variable {s : State}

theorem ipStep_iFin {hp : Bool} (h : s.dev.ph = .iFin) : ipStep hp s = ipFin s := by
  simp [ipStep, h]

theorem ipFin_of_far (hoff : ipMaxOffset < s.dev.rd - s.dev.cp) : ipFin s = .next (s.finish .badPayload) := by
  simp only [ipFin, if_pos hoff]

/-- The last backfill and the delimiter complete the command (rule R164). -/
theorem ipFin_of_near (hoff : s.dev.rd - s.dev.cp ≤ ipMaxOffset) (hcp : s.reaches (s.dev.src + s.dev.cp))
    (hlast : s.reaches (s.dev.src + s.dev.len - 1)) :
    ipFin s = .next (((s.poke (s.dev.src + s.dev.cp) (BitVec.ofNat 8 (s.dev.rd - s.dev.cp))).poke
      (s.dev.src + s.dev.len - 1) delim).finish .ok) := by
  have hlast' := (s.poke_reaches (s.dev.src + s.dev.cp) _ (BitVec.ofNat 8 (s.dev.rd - s.dev.cp))).2 hlast
  simp only [ipFin, if_neg hoff.not_gt, memWrite_of_reaches hcp, andThen_next, memWrite_of_reaches hlast']

end Final

/-- Settles O31: the null buffer, then CHECK's tests in their order. -/
theorem inPlaceCheckStep : Obligations.InPlaceCheckStep := by
  unfold Obligations.InPlaceCheckStep
  intro s hph
  rw [exec_encip, ipStep_check hph]
  refine ⟨exec_check_of_nullHandle hph rfl, ipCheck_of_len_lt, fun hlen => ⟨ipCheck_of_not_extentOk hlen, ?_⟩⟩
  intro hext hfirst hlast
  have hready : s.dev.ipReady s.plat := ⟨hlen, hext⟩
  exact ⟨ipCheck_of_wrong_sentinel hready hfirst hlast, ipCheck_of_sentinels hready hfirst hlast⟩

/-- Settles O32: one equation per branch of I_SCAN, and the invariant's bound on the offset. -/
theorem inPlaceScanStep : Obligations.InPlaceScanStep := by
  unfold Obligations.InPlaceScanStep
  intro s hph
  rw [exec_encip, ipStep_iScan hph]
  refine ⟨fun hrd hsrc => ⟨fun hx => ⟨?_, ?_⟩, ?_⟩, ipScan_of_end, fun h => h.offset_ne_zero_of_iScan hph⟩
  · exact ipScan_of_far_zero hrd hsrc hx
  · exact ipScan_of_zero hrd hsrc hx
  · exact ipScan_of_data hrd hsrc

/-- Settles O33: the two answers of I_FIN. -/
theorem inPlaceFinalStep : Obligations.InPlaceFinalStep := by
  unfold Obligations.InPlaceFinalStep
  intro s hph
  rw [exec_encip, ipStep_iFin hph]
  exact ⟨ipFin_of_far, ipFin_of_near⟩

end Sys2Proof.Machine
end

section
/-! SUPPORT. The statements of 42_inplace.md on whole buffers (rules R165 to R168): segments and their lengths, what
ENCIP leaves, its frame beside ENCD's, and what the decoder makes of the frame. -/

namespace Sys2Proof.Machine

/-- A zero before each segment gives the payload back with one zero before it (rules R105, R107). -/
theorem flatMap_delim_cons_segments (p : List Byte) : ((segments p).flatMap fun s => delim :: s) = delim :: p := by
  induction p with
  | nil => rfl
  | cons x p ih =>
    by_cases hx : x = delim
    · rw [hx, segments_delim_cons, List.flatMap_cons, ih]
      rfl
    · obtain ⟨s, r, hs, hxs⟩ := segments_cons_of_ne_delim hx p
      rw [hs] at ih
      rw [hxs]
      simpa using ih

theorem segments_of_not_mem_delim {p : List Byte} (h : delim ∉ p) : segments p = [p] := by
  induction p with
  | nil => rfl
  | cons x p ih =>
    obtain ⟨hx, hp⟩ := not_or.1 (mt List.mem_cons.2 h)
    simp [segments, Ne.symm hx, ih hp]

/-- The lengths of the segments, with one more for each (rule R105). -/
theorem sum_length_segments (p : List Byte) : ((segments p).map fun s => s.length + 1).sum = p.length + 1 := by
  have h := congrArg List.length (flatMap_delim_cons_segments p)
  rwa [List.length_flatMap, List.length_cons] at h

theorem length_le_of_mem_segments {p s : List Byte} (h : s ∈ segments p) : s.length ≤ p.length := by
  have hle := List.le_sum_of_mem (List.mem_map_of_mem (f := fun s => s.length + 1) h)
  rw [sum_length_segments] at hle
  exact Nat.le_of_succ_le_succ hle

/-- The zero itself lies in no segment. -/
theorem length_lt_of_mem_segments {p s : List Byte} (hp : delim ∈ p) (h : s ∈ segments p) : s.length < p.length := by
  induction p generalizing s with
  | nil => simp at hp
  | cons x p ih =>
    by_cases hx : x = delim
    · rw [hx, segments_delim_cons] at h
      rcases List.mem_cons.1 h with rfl | h
      · simp
      · exact Nat.lt_succ_of_le (length_le_of_mem_segments h)
    · obtain ⟨t, r, ht, hxt⟩ := segments_cons_of_ne_delim hx p
      have hp' : delim ∈ p := (List.mem_cons.1 hp).resolve_left (Ne.symm hx)
      rw [ht] at ih
      rw [hxt] at h
      rcases List.mem_cons.1 h with rfl | h
      · simpa using ih hp' (List.mem_cons_self ..)
      · exact (ih hp' (List.mem_cons_of_mem _ h)).trans (Nat.lt_succ_self _)

/-- A segment before the last has a zero after it. -/
theorem length_lt_of_mem_dropLast_segments {p s : List Byte} (h : s ∈ (segments p).dropLast) :
    s.length < p.length := by
  have hp : delim ∈ p := by
    by_contra hp
    simp [segments_of_not_mem_delim hp] at h
  exact length_lt_of_mem_segments hp (List.mem_of_mem_dropLast h)

/-- A segment with its code byte before it, one group of ENCIP's frame (rule R165). -/
def ipGroup (s : List Byte) : List Byte := BitVec.ofNat 8 (s.length + 1) :: s

/-- The groups of ENCIP's frame, its delimiter left out (rule R165). -/
def ipBody (p : List Byte) : List Byte := (segments p).flatMap ipGroup

theorem ipFrame_eq (p : List Byte) : ipFrame p = ipBody p ++ [delim] := rfl

/-- The code bytes take the place of the zeros (rule R165). -/
theorem ipBody_length (p : List Byte) : (ipBody p).length = p.length + 1 := by
  rw [ipBody, List.length_flatMap]
  exact sum_length_segments p

theorem ipFrame_take (p : List Byte) : (ipFrame p).take (p.length + 1) = ipBody p := by
  rw [ipFrame_eq, ← ipBody_length, List.take_left]

section Walk

variable (sentinel slot : Byte) (ss : List (List Byte))

/-- The walk keeps the buffer's length: one code position for each segment, and the last byte (rule R165). -/
theorem ipWalk_length :
    (ipWalk sentinel slot ss).2.length = (ss.flatMap fun s => delim :: s).length + 1 := by
  induction ss generalizing slot with
  | nil => rfl
  | cons s ss ih =>
    rw [ipWalk]
    split
    · simp; omega
    · simp [ih]; omega

/-- Segments of at most 254 bytes get their code bytes, and the end its delimiter (rule R165). -/
theorem ipWalk_of_fits (h : ∀ s ∈ ss, s.length ≤ 254) :
    ipWalk sentinel slot ss = (.ok, ss.flatMap ipGroup ++ [delim]) := by
  induction ss generalizing slot with
  | nil => rfl
  | cons s ss ih =>
    obtain ⟨hs, hss⟩ := List.forall_mem_cons.1 h
    rw [ipWalk, if_neg (by omega), ih delim hss]
    simp [ipGroup]

/-- A segment of 255 bytes or more ends the command (rule R165). -/
theorem ipWalk_of_not_fits (h : ¬∀ s ∈ ss, s.length ≤ 254) : (ipWalk sentinel slot ss).1 = .badPayload := by
  induction ss generalizing slot with
  | nil => simp at h
  | cons s ss ih =>
    rw [ipWalk]
    split
    · rfl
    · next hs => exact ih delim fun hss => h (List.forall_mem_cons.2 ⟨by omega, hss⟩)

end Walk

theorem inPlaced_of_fits (sentinel : Byte) {p : List Byte} (h : ∀ s ∈ segments p, s.length ≤ 254) :
    inPlaced sentinel p = (.ok, ipFrame p) :=
  ipWalk_of_fits sentinel sentinel (segments p) h

theorem inPlaced_of_not_fits (sentinel : Byte) {p : List Byte} (h : ¬∀ s ∈ segments p, s.length ≤ 254) :
    (inPlaced sentinel p).1 = .badPayload :=
  ipWalk_of_not_fits sentinel sentinel (segments p) h

theorem inPlaced_length (sentinel : Byte) (p : List Byte) : (inPlaced sentinel p).2.length = p.length + 2 := by
  rw [inPlaced, ipWalk_length, flatMap_delim_cons_segments, List.length_cons]

theorem inPlaced_ok_iff (sentinel : Byte) (p : List Byte) :
    (inPlaced sentinel p).1 = .ok ↔ ∀ s ∈ segments p, s.length ≤ 254 := by
  refine ⟨fun hok => ?_, fun h => by rw [inPlaced_of_fits sentinel h]⟩
  by_contra h
  rw [inPlaced_of_not_fits sentinel h] at hok
  cases hok

/-- Settles O54: the walk when every segment fits and when one does not; up to the safe size all fit. -/
theorem inPlaceClosedForm : Obligations.InPlaceClosedForm := by
  unfold Obligations.InPlaceClosedForm
  intro sentinel p
  have hok := inPlaced_ok_iff sentinel p
  refine ⟨hok, fun h => inPlaced_of_not_fits sentinel (mt hok.2 h), fun h => ?_, inPlaced_length sentinel p,
    fun h => ?_⟩
  · rw [inPlaced_of_fits sentinel (hok.1 h)]
  · exact hok.2 fun s hs => (length_le_of_mem_segments hs).trans (by omega)

/-- Below a full group the two encoders write the same group for a segment (rules R107, R165). -/
theorem seg_of_length_lt {s : List Byte} (h : s.length < 254) : seg s = ipGroup s := by
  rw [seg]
  fun_cases segFuel s.length s with
  | case2 => omega
  | case1 | case3 => rfl

/-- A full segment gets a fresh code byte from ENCD and none from ENCIP (rules R108, R167). -/
theorem seg_of_length_eq {s : List Byte} (h : s.length = 254) : seg s = ipGroup s ++ [0x01] := by
  have htake : s.take 254 = s := List.take_of_length_le h.le
  have hdrop : s.drop 254 = [] := List.drop_of_length_le h.le
  simp [seg, h, segFuel, htake, hdrop, ipGroup, fullCode]

theorem ipFrame_eq_encoded {p : List Byte} (h : ∀ s ∈ segments p, s.length < 254) : ipFrame p = encoded p 2 := by
  have hgroups : (segments p).map ipGroup = (segments p).map seg :=
    List.map_congr_left fun s hs => (seg_of_length_lt (h s hs)).symm
  simp [ipFrame_eq, ipBody, encoded, List.flatMap_def, hgroups]

/-- Settles O55: a payload with a zero has short segments alone, and one without is its own segment. -/
theorem inPlaceAgainstEncd : Obligations.InPlaceAgainstEncd := by
  unfold Obligations.InPlaceAgainstEncd
  intro p hp
  refine ⟨fun hexcept => ipFrame_eq_encoded fun s hs => ?_, fun hlen hnz => ?_⟩
  · by_cases hz : delim ∈ p
    · have hlt := length_lt_of_mem_segments hz hs
      omega
    · have hne : p.length ≠ 254 := fun hlen => hexcept ⟨hlen, fun x hx hx0 => hz (show 0x00 ∈ p from hx0 ▸ hx)⟩
      have hle := length_le_of_mem_segments hs
      omega
  · have hsegs : segments p = [p] := segments_of_not_mem_delim fun hz => hnz delim hz rfl
    have hgroup : ipGroup p = 0xFF :: p := by simp [ipGroup, hlen]
    constructor
    · simp [ipFrame_eq, ipBody, hsegs, hgroup, delim]
    · simp [encoded, hsegs, seg_of_length_eq hlen, hgroup, delim]

/-- What the decoder makes of the groups of ENCIP's frame: a zero between each two segments, but none after a full
one (rules R134, R168). -/
def ipReadBack : List (List Byte) → List Byte
  | [] => []
  | [s] => s
  | s :: t :: ss => s ++ (if s.length = 254 then [] else [delim]) ++ ipReadBack (t :: ss)

theorem ipReadBack_length_le (ss : List (List Byte)) : (ipReadBack ss).length ≤ ([delim].intercalate ss).length := by
  fun_induction ipReadBack ss with
  | case1 => simp
  | case2 s => simp
  | case3 s t ss ih =>
    rw [List.intercalate_cons_cons]
    split <;> simp <;> omega

/-- Only the zero after a full segment is lost (rule R168). -/
theorem ipReadBack_eq_intercalate_iff (ss : List (List Byte)) :
    ipReadBack ss = [delim].intercalate ss ↔ ∀ s ∈ ss.dropLast, s.length ≠ 254 := by
  fun_induction ipReadBack ss with
  | case1 => simp
  | case2 s => simp
  | case3 s t ss ih =>
    rw [List.intercalate_cons_cons, List.dropLast_cons_cons, List.forall_mem_cons, ← ih]
    split
    · next hfull =>
      refine iff_of_false (fun heq => ?_) fun h => h.1 hfull
      have hlen := congrArg List.length heq
      have hle := ipReadBack_length_le (t :: ss)
      simp at hlen
      omega
    · next hshort => simp [hshort]

/-- The payload survives exactly when no segment but the last is full (rule R168). -/
theorem ipReadBack_segments_iff (p : List Byte) :
    ipReadBack (segments p) = p ↔ ∀ s ∈ (segments p).dropLast, s.length ≠ 254 := by
  rw [← ipReadBack_eq_intercalate_iff, intercalate_segments]

namespace WalkPoint

variable {strict : Bool}

/-- The point after the group of a segment of at most 254 bytes: a full one reconstructs no zero (rule R134). -/
def afterSegment (s rest out : List Byte) : WalkPoint :=
  if s.length = 254 then ⟨rest, out, false⟩ else afterGroup rest out

theorem reaches_of_ipGroup {s : List Byte} (h : s.length ≤ 254) (rest out : List Byte) (zp : Bool) :
    Reaches strict ⟨ipGroup s ++ rest, out, zp⟩ (afterSegment s rest (out ++ s)) := by
  rw [afterSegment]
  split
  · next hfull =>
    have hcode : BitVec.ofNat 8 (s.length + 1) = fullCode := by rw [hfull]; rfl
    rw [ipGroup, hcode]
    exact reaches_of_full_group hfull rest out zp
  · next hshort => exact reaches_of_short_group (by omega) rest out zp

theorem reaches_of_ipGroups {ss : List (List Byte)} (hne : ss ≠ []) (h : ∀ s ∈ ss, s.length ≤ 254)
    (rest out : List Byte) (zp : Bool) :
    Reaches strict ⟨ss.flatMap ipGroup ++ rest, out, zp⟩
      (afterSegment (ss.getLast hne) rest (out ++ ipReadBack ss)) := by
  fun_induction ipReadBack ss generalizing out zp with
  | case1 => exact absurd rfl hne
  | case2 s => simpa using reaches_of_ipGroup (h s (by simp)) rest out zp
  | case3 s t ss ih =>
    obtain ⟨hs, hss⟩ := List.forall_mem_cons.1 h
    have hgroup := reaches_of_ipGroup (strict := strict) hs ((t :: ss).flatMap ipGroup ++ rest) out zp
    have hmore : ((t :: ss).flatMap ipGroup ++ rest).isEmpty = false := by simp [ipGroup]
    rw [afterSegment, afterGroup, hmore] at hgroup
    rw [List.flatMap_cons, List.append_assoc, List.getLast_cons (by simp)]
    split at hgroup
    · next hfull => simpa [hfull] using hgroup.trans (ih (by simp) hss (out ++ s) false)
    · next hshort => simpa [hshort] using hgroup.trans (ih (by simp) hss (out ++ s ++ [delim]) true)

end WalkPoint

section Decode

variable {p : List Byte} (h : ∀ s ∈ segments p, s.length ≤ 254)
include h

/-- Without the delimiter the input ends after the last group (rule R168). -/
theorem decoded_ipBody (strict : Bool) : ∃ n, decoded strict (ipBody p) =
    ⟨.ok, ipReadBack (segments p), some (ipReadBack (segments p)).length, n⟩ := by
  obtain ⟨g, m, -, hwalk⟩ :=
    WalkPoint.reaches_of_ipGroups (strict := strict) (segments_ne_nil p) h [] [] false _ 1 le_rfl
  refine ⟨m + 1, ?_⟩
  rw [List.append_nil] at hwalk
  rw [decoded, ipBody, hwalk, WalkPoint.afterSegment]
  split <;> simp [decodeWalk, WalkPoint.afterGroup]

/-- The delimiter ends the input early; a placeholder stands before it unless the last segment is full (rules R135,
R168). -/
theorem decoded_ipFrame : ∃ z n, decoded false (ipFrame p) =
    ⟨.eofInInput, ipReadBack (segments p) ++ z, some (ipReadBack (segments p)).length, n⟩ := by
  obtain ⟨g, m, hg, hwalk⟩ :=
    WalkPoint.reaches_of_ipGroups (strict := false) (segments_ne_nil p) h [delim] [] false _ 1 le_rfl
  rw [decoded, ipFrame_eq, ipBody, hwalk, WalkPoint.afterSegment]
  rw [WalkPoint.afterSegment] at hg
  split
  · next hfull =>
    obtain ⟨g, rfl⟩ := Nat.exists_eq_add_of_le' (m := 1) (by simpa [hfull] using hg)
    exact ⟨[], m + 1, by simp [decodeWalk]⟩
  · next hshort =>
    obtain ⟨g, rfl⟩ := Nat.exists_eq_add_of_le' (m := 1) (by simpa [hshort, WalkPoint.afterGroup] using hg)
    exact ⟨[delim], m + 1, by simp [decodeWalk, WalkPoint.afterGroup]⟩

end Decode

/-- Settles O56: both decoders give back the payload but for the zeros after full segments. -/
theorem inPlaceInverse : Obligations.InPlaceInverse := by
  unfold Obligations.InPlaceInverse
  intro p h
  refine ⟨?_, fun hp s hs => ?_⟩
  · obtain ⟨n, hstrict⟩ := decoded_ipBody h true
    obtain ⟨z, m, hlenient⟩ := decoded_ipFrame h
    rw [← ipReadBack_segments_iff, ipFrame_take, hstrict, hlenient]
    refine ⟨fun ⟨_, hout, _⟩ => hout, fun hback => ?_⟩
    simp [hback]
  · have hlt := length_lt_of_mem_dropLast_segments hs
    omega

end Sys2Proof.Machine
end

section
/-! SUPPORT. Decode and encode agree: a word is the word of its fields (30_encoding.md rules R81 to R84). -/

namespace Sys2Proof

/-- The fields hold every bit of the word (rule R81). -/
theorem Cmdw.toWord_ofWord (w : Word) : (Cmdw.ofWord w).toWord = w := by
  simp only [Cmdw.toWord, Cmdw.ofWord]
  rw [BitVec.extractLsb'_append_extractLsb'_eq_extractLsb' (start₂ := 9) (start₁ := 8) (by rfl),
    BitVec.extractLsb'_append_extractLsb'_eq_extractLsb' (by rfl),
    BitVec.extractLsb'_append_extractLsb'_eq_extractLsb' (by rfl)]
  exact BitVec.extractLsb'_eq_self

/-- The word of a command holds its fields. -/
theorem ofWord_encode (i : Instr) : Cmdw.ofWord (encode i) = i.fields := by
  cases i <;> decide

end Sys2Proof

namespace Sys2Proof.Machine

/-- Settles O4: a word has a command's fields exactly when it is the command's word. -/
theorem decodeEncodeAgree : Obligations.DecodeEncodeAgree := by
  unfold Obligations.DecodeEncodeAgree
  intro w i
  rw [decode_eq_some_iff_fields]
  constructor
  · intro h
    rw [encode, ← h, Cmdw.toWord_ofWord]
  · rintro rfl
    exact ofWord_encode i

/-- Settles O3, by evaluating the decoder on the ten words. -/
theorem tableWordsDecode : Obligations.TableWordsDecode := by
  unfold Obligations.TableWordsDecode
  decide

end Sys2Proof.Machine
end

section
/-! SUPPORT. An engine step as a plan: the accesses it makes, one after the other, and the block it ends in. A plan
depends on the platform and the block alone; memory comes in by what its reads return. The meanings are the runs of
their plans, so a fact about all engine steps is proved on plans once. -/

namespace Sys2Proof.Machine

/-- What an engine step does, with the values its reads return left open. -/
inductive Plan where
  /-- The step goes on with this block. -/
  | done (c : Block)
  /-- `MemRead(a, 1)` (rule R62). -/
  | read (a : Nat) (k : Byte → Plan)
  /-- `MemWrite(a, 1, v)` (rule R63). -/
  | write (a : Nat) (v : Byte) (k : Plan)
  /-- The extents overlap (rule R77). -/
  | overlap
  /-- The phase is another command's (log 14). -/
  | foreign

namespace Plan

/-- The plan carried out on the machine. -/
def run : Plan → State → Host.Outcome State Fault Refusal
  | .done c, s => .next (s.withDev c)
  | .read a k, s => andThen (memRead s a) fun x => (k x).run s
  | .write a v k, s => andThen (memWrite s a v) k.run
  | .overlap, _ => .refused .overlappingBuffers
  | .foreign, _ => .fault .phaseMismatch

/-- The addresses the plan stores to, over a memory. -/
def stores : Plan → Memory → List Nat
  | .done _, _ | .overlap, _ | .foreign, _ => []
  | .read a k, m => (k (m.read a)).stores m
  | .write a v k, m => a :: k.stores (m.write a v)

variable (s : State) (m : Memory)

@[simp] theorem run_done (c : Block) : (done c).run s = .next (s.withDev c) := rfl
@[simp] theorem run_read (a : Nat) (k : Byte → Plan) :
    (read a k).run s = andThen (memRead s a) fun x => (k x).run s := rfl
@[simp] theorem run_write (a : Nat) (v : Byte) (k : Plan) :
    (write a v k).run s = andThen (memWrite s a v) fun t => k.run t := rfl
@[simp] theorem run_overlap : overlap.run s = .refused .overlappingBuffers := rfl
@[simp] theorem run_foreign : foreign.run s = .fault .phaseMismatch := rfl
@[simp] theorem run_ite (c : Prop) [Decidable c] (k l : Plan) :
    (if c then k else l).run s = if c then k.run s else l.run s := by split <;> rfl

@[simp] theorem stores_done (c : Block) : (done c).stores m = [] := rfl
@[simp] theorem stores_read (a : Nat) (k : Byte → Plan) : (read a k).stores m = (k (m.read a)).stores m := rfl
@[simp] theorem stores_write (a : Nat) (v : Byte) (k : Plan) :
    (write a v k).stores m = a :: k.stores (m.write a v) := rfl
@[simp] theorem stores_overlap : overlap.stores m = [] := rfl
@[simp] theorem stores_foreign : foreign.stores m = [] := rfl
@[simp] theorem stores_ite (c : Prop) [Decidable c] (k l : Plan) :
    (if c then k else l).stores m = if c then k.stores m else l.stores m := by split <;> rfl

end Plan

/-- Rule R102. -/
def encCheckPlan (k : Nat) (hp : Bool) (p : Platform) (b : Block) : Plan :=
  if !hp then .done (b.finish .outputBufferNull)
  else if b.cap < needEnc b.len k then .done (b.finish .badOutputLength)
  else if !extentOk p b.src b.len || !extentOk p b.dst (needEnc b.len k) then .done (b.finish .busError)
  else if !disjoint b.src b.len b.dst (needEnc b.len k) then .overlap
  else .done { b with rd := 0, cp := 0, wr := 1, code := 1, ph := .eRun }

/-- Rule R103. -/
def encRunPlan (b : Block) : Plan :=
  if b.rd = b.len then .done { b with ph := .eFin }
  else .read (b.src + b.rd) fun x =>
    if x = delim then
      .write (b.dst + b.cp) b.code (.done { b with rd := b.rd + 1, cp := b.wr, wr := b.wr + 1, code := 1 })
    else .write (b.dst + b.wr) x <|
      if b.code + 1 = fullCode then
        .write (b.dst + b.cp) fullCode (.done { b with rd := b.rd + 1, cp := b.wr + 1, wr := b.wr + 2, code := 1 })
      else .done { b with rd := b.rd + 1, wr := b.wr + 1, code := b.code + 1 }

/-- Rule R104. -/
def encFinPlan (k : Nat) (b : Block) : Plan :=
  .write (b.dst + b.cp) b.code <|
    if k = 2 then .write (b.dst + b.wr) delim (.done (Block.finishLen { b with wr := b.wr + 1 } .ok (b.wr + 1)))
    else .done (b.finishLen .ok b.wr)

/-- Rule R132. -/
def decCheckPlan (hp : Bool) (p : Platform) (b : Block) : Plan :=
  if !hp then .done (b.finish .outputBufferNull)
  else if b.cap < needDec b.len then .done (b.finish .badOutputLength)
  else if !extentOk p b.src b.len || !extentOk p b.dst (needDec b.len) then .done (b.finish .busError)
  else if !disjoint b.src b.len b.dst (needDec b.len) then .overlap
  else .done { b with rd := 0, wr := 0, zp := false, ph := .dCode }

/-- Rules R133 and R135. -/
def decCodePlan (strict : Bool) (b : Block) : Plan :=
  if b.rd = b.len then .done (b.finishLen .ok b.wr)
  else .read (b.src + b.rd) fun c =>
    if c = delim then
      if strict then .done (b.finish .zeroByteInInput) else .done (b.finishLen .eofInInput (b.wr - b.zp.toNat))
    else if b.rd + c.toNat > b.len ∧ c ≠ 1 then .done (b.finish .zeroBeyondBuffer)
    else .done { b with code := c, cnt := c - 1, rd := b.rd + 1, zp := false, ph := .dCopy }

/-- Rules R134 and R138. -/
def decCopyPlan (b : Block) : Plan :=
  if b.cnt ≠ 0 then
    .read (b.src + b.rd) fun x =>
      .write (b.dst + b.wr) x (.done { b with rd := b.rd + 1, wr := b.wr + 1, cnt := b.cnt - 1 })
  else if b.code ≠ fullCode ∧ b.rd ≠ b.len then
    .write (b.dst + b.wr) delim (.done { b with wr := b.wr + 1, zp := true, ph := .dCode })
  else .done { b with ph := .dCode }

/-- Rule R162. -/
def ipCheckPlan (hp : Bool) (p : Platform) (b : Block) : Plan :=
  if !hp then .done (b.finish .outputBufferNull)
  else if b.len < 2 then .done (b.finish .badOutputLength)
  else if !extentOk p b.src b.len then .done (b.finish .busError)
  else .read b.src fun first => .read (b.src + b.len - 1) fun last =>
    if first ≠ p.sentinel ∨ last ≠ p.sentinel then .done (b.finish .badPayload)
    else .done { b with cp := 0, rd := 1, ph := .iScan }

/-- Rule R163. -/
def ipScanPlan (b : Block) : Plan :=
  if b.rd < b.len - 1 then
    .read (b.src + b.rd) fun x =>
      if x = delim then
        if b.rd - b.cp > ipMaxOffset then .done (b.finish .badPayload)
        else .write (b.src + b.cp) (BitVec.ofNat 8 (b.rd - b.cp)) (.done { b with cp := b.rd, rd := b.rd + 1 })
      else .done { b with rd := b.rd + 1 }
  else .done { b with ph := .iFin }

/-- Rule R164. -/
def ipFinPlan (b : Block) : Plan :=
  if b.rd - b.cp > ipMaxOffset then .done (b.finish .badPayload)
  else .write (b.src + b.cp) (BitVec.ofNat 8 (b.rd - b.cp))
    (.write (b.src + b.len - 1) delim (.done (b.finish .ok)))

/-- The plan of ENC and ENCD. -/
def encPlan (k : Nat) (hp : Bool) (p : Platform) (b : Block) : Plan :=
  match b.ph with
  | .idle => .done b
  | .check => encCheckPlan k hp p b
  | .eRun => encRunPlan b
  | .eFin => encFinPlan k b
  | .dCode | .dCopy | .iScan | .iFin => .foreign

/-- The plan of DECS and DECL. -/
def decPlan (strict hp : Bool) (p : Platform) (b : Block) : Plan :=
  match b.ph with
  | .idle => .done b
  | .check => decCheckPlan hp p b
  | .dCode => decCodePlan strict b
  | .dCopy => decCopyPlan b
  | .eRun | .eFin | .iScan | .iFin => .foreign

/-- The plan of ENCIP. -/
def ipPlan (hp : Bool) (p : Platform) (b : Block) : Plan :=
  match b.ph with
  | .idle => .done b
  | .check => ipCheckPlan hp p b
  | .iScan => ipScanPlan b
  | .iFin => ipFinPlan b
  | .eRun | .eFin | .dCode | .dCopy => .foreign

/-- The plan of an illegal word. -/
def illegalPlan (b : Block) : Plan :=
  match b.ph with
  | .idle => .done b
  | .check => .done (b.finish .illegalCommand)
  | .eRun | .eFin | .dCode | .dCopy | .iScan | .iFin => .foreign

/-- The plan of a decoded command word. -/
def planOf (i : Option Instr) (p : Platform) (b : Block) : Plan :=
  match i with
  | none => illegalPlan b
  | some .enc => encPlan 1 true p b
  | some .encNohp => encPlan 1 false p b
  | some .encd => encPlan 2 true p b
  | some .encdNohp => encPlan 2 false p b
  | some .decs => decPlan true true p b
  | some .decsNohp => decPlan true false p b
  | some .decl => decPlan false true p b
  | some .declNohp => decPlan false false p b
  | some .encip => ipPlan true p b
  | some .encipNohp => ipPlan false p b

section Run

variable (s : State)

theorem encCheck_eq_run (k : Nat) (hp : Bool) : encCheck k hp s = (encCheckPlan k hp s.plat s.dev).run s := by
  simp only [encCheckPlan, Plan.run_ite]
  rfl

theorem encRun_eq_run : encRun s = (encRunPlan s.dev).run s := by
  simp [encRun, encRunPlan]

/-- What follows an engine write matters on the state it leaves alone. -/
theorem andThen_memWrite_congr {a : Nat} {v : Byte} {f g : State → Host.Outcome State Fault Refusal}
    (h : f (s.poke a v) = g (s.poke a v)) : andThen (memWrite s a v) f = andThen (memWrite s a v) g := by
  rcases memWrite_cases s a v with ⟨-, e⟩ | ⟨-, -, e⟩ | ⟨-, -, e⟩
  · rw [e]; rfl
  · rw [e]; rfl
  · rw [e]; exact h

theorem encFin_eq_run (k : Nat) : encFin k s = (encFinPlan k s.dev).run s := by
  rw [encFinPlan, Plan.run_write]
  refine andThen_memWrite_congr s ?_
  simp only [Plan.run_ite, Plan.run_write]
  rfl

theorem decCheck_eq_run (hp : Bool) : decCheck hp s = (decCheckPlan hp s.plat s.dev).run s := by
  simp only [decCheckPlan, Plan.run_ite]
  rfl

theorem decCode_eq_run (strict : Bool) : decCode strict s = (decCodePlan strict s.dev).run s := by
  simp only [decCodePlan, Plan.run_ite, Plan.run_read]
  rfl

theorem decCopy_eq_run : decCopy s = (decCopyPlan s.dev).run s := by
  simp [decCopy, decCopyPlan]

theorem ipCheck_eq_run (hp : Bool) : ipCheck hp s = (ipCheckPlan hp s.plat s.dev).run s := by
  simp only [ipCheckPlan, Plan.run_ite, Plan.run_read]
  rfl

theorem ipScan_eq_run : ipScan s = (ipScanPlan s.dev).run s := by
  simp only [ipScanPlan, Plan.run_ite, Plan.run_read]
  rfl

theorem ipFin_eq_run : ipFin s = (ipFinPlan s.dev).run s := by
  rw [ipFinPlan, Plan.run_ite, ipFin]
  refine if_congr .rfl rfl (andThen_memWrite_congr s (andThen_memWrite_congr _ rfl))

theorem encStep_eq_run (k : Nat) (hp : Bool) : encStep k hp s = (encPlan k hp s.plat s.dev).run s := by
  unfold encStep encPlan
  cases s.dev.ph with
  | idle => rfl
  | check => exact encCheck_eq_run s k hp
  | eRun => exact encRun_eq_run s
  | eFin => exact encFin_eq_run s k
  | dCode | dCopy | iScan | iFin => rfl

theorem decStep_eq_run (strict hp : Bool) : decStep strict hp s = (decPlan strict hp s.plat s.dev).run s := by
  unfold decStep decPlan
  cases s.dev.ph with
  | idle => rfl
  | check => exact decCheck_eq_run s hp
  | dCode => exact decCode_eq_run s strict
  | dCopy => exact decCopy_eq_run s
  | eRun | eFin | iScan | iFin => rfl

theorem ipStep_eq_run (hp : Bool) : ipStep hp s = (ipPlan hp s.plat s.dev).run s := by
  unfold ipStep ipPlan
  cases s.dev.ph with
  | idle => rfl
  | check => exact ipCheck_eq_run s hp
  | iScan => exact ipScan_eq_run s
  | iFin => exact ipFin_eq_run s
  | eRun | eFin | dCode | dCopy => rfl

theorem illegalStep_eq_run : illegalStep s = (illegalPlan s.dev).run s := by
  unfold illegalStep illegalPlan
  cases s.dev.ph <;> rfl

/-- Every meaning is the run of its plan (rule R90). -/
theorem exec_eq_run (i : Instr) : exec i s = (planOf (some i) s.plat s.dev).run s :=
  match i with
  | .enc | .encNohp | .encd | .encdNohp => encStep_eq_run s ..
  | .decs | .decsNohp | .decl | .declNohp => decStep_eq_run s ..
  | .encip | .encipNohp => ipStep_eq_run s _

theorem planOf_idle (i : Option Instr) (p : Platform) {b : Block} (h : b.ph = .idle) : planOf i p b = .done b := by
  rcases i with - | i
  · simp [planOf, illegalPlan, h]
  · cases i <;> simp [planOf, encPlan, decPlan, ipPlan, h]

/-- The engine step is the run of the plan of the word in `CMD` (rules R47, R90). -/
theorem engineStep_eq_run : engineStep s = (planOf (decode s.dev.cmd) s.plat s.dev).run s := by
  by_cases hph : s.dev.ph = .idle
  · rw [engineStep_idle hph, planOf_idle _ _ hph]
    rfl
  · cases hd : decode s.dev.cmd with
    | none => exact (engineStep_of_illegal hph hd).trans (illegalStep_eq_run s)
    | some i => exact (engineStep_of_decode hph hd).trans (exec_eq_run s i)

end Run

end Sys2Proof.Machine
end

section
/-! SUPPORT. What the run of any plan leaves unchanged, and the addresses of `storesOf` as those its plan stores to. -/

namespace Sys2Proof.Machine

/-- The step from `s` to `t` is a change of the block in focus and stores to the addresses `l`. -/
structure State.Stored (s t : State) (l : List Nat) : Prop where
  frame : t = { s with dev := t.dev, mem := t.mem, engineDirty := t.engineDirty }
  read : ∀ a, a ∉ l → t.mem.read a = s.mem.read a
  mem : l = [] → t.mem = s.mem
  wf : s.mem.wf → t.mem.wf
  marks : ∀ a ∈ s.engineDirty, a ∈ t.engineDirty
  unmarked : s.plat.hostCoherent = true → t.engineDirty = s.engineDirty

theorem State.Stored.withDev (s : State) (c : Block) : s.Stored (s.withDev c) [] :=
  ⟨rfl, fun _ _ => rfl, fun _ => rfl, id, fun _ h => h, fun _ => rfl⟩

/-- One store more, before the others. -/
theorem State.Stored.of_poke {s t : State} {a : Nat} {v : Byte} {l : List Nat} (ha : a < addrSpace)
    (h : (s.poke a v).Stored t l) : s.Stored t (a :: l) where
  frame := h.frame
  read x hx := by
    obtain ⟨hxa, hxl⟩ := not_or.1 (mt List.mem_cons.2 hx)
    rw [h.read x hxl, State.read_poke_other s v hxa]
  mem hl := nomatch hl
  wf hwf := h.wf (Memory.wf_write hwf ha v)
  marks x hx := h.marks x (by
    rw [State.poke_engineDirty]
    split
    · exact hx
    · exact mem_insertAddr.2 (.inr hx))
  unmarked hc := by rw [h.unmarked hc, State.poke_engineDirty, if_pos hc]

/-- The run of a plan changes memory where the plan stores and nowhere else. -/
theorem Plan.run_stored {P : Plan} {s t : State} (h : P.run s = .next t) : s.Stored t (P.stores s.mem) := by
  induction P generalizing s with
  | done c => cases h; exact .withDev s c
  | read a k ih =>
    obtain ⟨x, hx, h⟩ := andThen_eq_next.1 h
    obtain ⟨-, -, rfl⟩ := memRead_eq_next.1 hx
    exact ih _ h
  | write a v k ih =>
    obtain ⟨u, hu, h⟩ := andThen_eq_next.1 h
    obtain ⟨hdma, -, rfl⟩ := memWrite_eq_next.1 hu
    exact .of_poke (dmaOk_lt hdma) (ih h)
  | overlap => cases h
  | foreign => cases h

/-- A plan is refused for overlap alone, or at an incoherent access. -/
theorem Plan.run_refused {P : Plan} {s : State} {r : Refusal} (hc : s.plat.hostCoherent = true)
    (h : P.run s = .refused r) : r = .overlappingBuffers := by
  induction P generalizing s with
  | done c => cases h
  | read a k ih =>
    rcases memRead_cases s a with ⟨-, e⟩ | ⟨-, hi, -⟩ | ⟨-, -, e⟩
    · simp [e] at h
    · simp [State.incoherentAt_of_coherent hc] at hi
    · exact ih (s.mem.read a) hc (by simpa [e] using h)
  | write a v k ih =>
    rcases memWrite_cases s a v with ⟨-, e⟩ | ⟨-, hi, -⟩ | ⟨-, -, e⟩
    · simp [e] at h
    · simp [State.incoherentAt_of_coherent hc] at hi
    · exact ih (s := s.poke a v) hc (by simpa [e] using h)
  | overlap => cases h; rfl
  | foreign => cases h

theorem storesOf_eq_stores (i : Instr) (s : State) :
    storesOf i s = (planOf (some i) s.plat s.dev).stores s.mem := by
  cases hph : s.dev.ph with
  | idle => cases i <;> simp [storesOf, planOf, encPlan, decPlan, ipPlan, hph]
  | check =>
    cases i <;>
      simp [storesOf, planOf, encPlan, decPlan, ipPlan, encCheckPlan, decCheckPlan, ipCheckPlan, hph]
  | eRun => cases i <;> simp [storesOf, planOf, encPlan, decPlan, ipPlan, encRunPlan, hph, apply_ite (List.cons _)]
  | eFin => cases i <;> simp [storesOf, planOf, encPlan, decPlan, ipPlan, encFinPlan, hph]
  | dCode => cases i <;> simp [storesOf, planOf, encPlan, decPlan, ipPlan, decCodePlan, hph]
  | dCopy => cases i <;> simp [storesOf, planOf, encPlan, decPlan, ipPlan, decCopyPlan, hph]
  | iScan => cases i <;> simp [storesOf, planOf, encPlan, decPlan, ipPlan, ipScanPlan, hph] <;> grind
  | iFin => cases i <;> simp [storesOf, planOf, encPlan, decPlan, ipPlan, ipFinPlan, hph] <;> grind

theorem exec_stored {i : Instr} {s t : State} (h : exec i s = .next t) : s.Stored t (storesOf i s) := by
  rw [exec_eq_run] at h
  rw [storesOf_eq_stores]
  exact Plan.run_stored h

end Sys2Proof.Machine
end

section
/-! SUPPORT. Where the phase's invariant holds, a plan is safe: it reads inside the input extent, writes inside the
output extent, stops nowhere but at an overlap in CHECK, and ends in a block that keeps its phase's invariant and is
closer to the end of its command (20_memory.md rules R62, R66; 70_reset_and_hazards.md rule R260). -/

namespace Sys2Proof.Machine

/-- A bound on the engine steps the command still takes. -/
def Block.stepsBound (b : Block) : Nat :=
  match b.ph with
  | .idle => 0
  | .check => 2 * b.len + 3
  | .eRun | .iScan => b.len - b.rd + 2
  | .eFin | .iFin => 1
  | .dCode => 2 * (b.len - b.rd) + 1
  | .dCopy => 2 * (b.len - b.rd) + 2

/-- What one engine step makes of a running block `b`. -/
structure Block.Progress (p : Platform) (b c : Block) : Prop where
  phase : c.phaseInv p
  bound : c.stepsBound < b.stepsBound
  past : c.ph ≠ .check
  running : c.ph ≠ .idle → c.busy = b.busy ∧ c.done = b.done ∧ c.result = b.result
  finished : c.ph = .idle → c.busy = false ∧ c.done = true
  unseen : c.unseen = b.unseen

/-- The command may read the address. -/
def Block.mayRead (p : Platform) (b : Block) (a : Nat) : Prop := b.inExtent.has a = true ∧ dmaOk p a = true

/-- The command may write the address. -/
def Block.mayWrite (p : Platform) (b : Block) (a : Nat) : Prop := b.outExtent.has a = true ∧ dmaOk p a = true

/-- The plan accesses what the command may access, whatever its reads return, and ends in progress. -/
def Plan.Safe (p : Platform) (b : Block) : Plan → Prop
  | .done c => b.Progress p c
  | .read a k => b.mayRead p a ∧ ∀ x, (k x).Safe p b
  | .write a _ k => b.mayWrite p a ∧ k.Safe p b
  | .overlap => b.ph = .check
  | .foreign => False

section Extents

variable {p : Platform} {b : Block}

theorem mayAccess_of_extentOk {base n a : Nat} (h : extentOk p base n = true) (hl : base ≤ a) (hu : a < base + n) :
    Region.has ⟨base, n⟩ a = true ∧ dmaOk p a = true :=
  ⟨(Region.has_iff _ _).2 ⟨hl, hu⟩, dmaOk_of_extentOk h hl hu⟩

/-- An encode command past CHECK may read its input, and write the output its `K` needs (rules R64, R102). -/
theorem mayAccess_of_encReady {k : Nat} (hd : (decode b.cmd = some .enc ∧ k = 1) ∨ (decode b.cmd = some .encd ∧ k = 2))
    (h : b.encReady p k) :
    (∀ i < b.len, b.mayRead p (b.src + i)) ∧ ∀ i < needEnc b.len k, b.mayWrite p (b.dst + i) := by
  obtain ⟨-, hsrc, hdst, -⟩ := h
  have hext : b.inExtent = ⟨b.src, b.len⟩ ∧ b.outExtent = ⟨b.dst, needEnc b.len k⟩ := by
    rcases hd with ⟨hd, rfl⟩ | ⟨hd, rfl⟩
    · exact Block.extents_of_not_inPlace hd rfl
    · exact Block.extents_of_not_inPlace hd rfl
  unfold Block.mayRead Block.mayWrite
  rw [hext.1, hext.2]
  exact ⟨fun i hi => mayAccess_of_extentOk hsrc (by omega) (by omega),
    fun i hi => mayAccess_of_extentOk hdst (by omega) (by omega)⟩

/-- What both encode commands may access past CHECK. -/
theorem Block.encoding.mayAccess (h : b.encoding p) :
    (∀ i < b.len, b.mayRead p (b.src + i)) ∧ ∀ i < needEnc b.len 1, b.mayWrite p (b.dst + i) := by
  rcases h with ⟨hd, hready⟩ | ⟨hd, hready⟩
  · exact mayAccess_of_encReady (.inl ⟨hd, rfl⟩) hready
  · obtain ⟨hread, hwrite⟩ := mayAccess_of_encReady (.inr ⟨hd, rfl⟩) hready
    exact ⟨hread, fun i hi => hwrite i (hi.trans (Nat.lt_succ_self _))⟩

/-- A decode command past CHECK may read its input and write its output (rules R64, R132). -/
theorem mayAccess_of_decoding (h : b.decoding p) :
    (∀ i < b.len, b.mayRead p (b.src + i)) ∧ ∀ i < needDec b.len, b.mayWrite p (b.dst + i) := by
  obtain ⟨hd, -, hsrc, hdst, -⟩ := h
  have hext : b.inExtent = ⟨b.src, b.len⟩ ∧ b.outExtent = ⟨b.dst, needDec b.len⟩ := by
    rcases hd with hd | hd
    · exact Block.extents_of_not_inPlace hd rfl
    · exact Block.extents_of_not_inPlace hd rfl
  unfold Block.mayRead Block.mayWrite
  rw [hext.1, hext.2]
  exact ⟨fun i hi => mayAccess_of_extentOk hsrc (by omega) (by omega),
    fun i hi => mayAccess_of_extentOk hdst (by omega) (by omega)⟩

/-- ENCIP may read and write its buffer (rules R64, R162). -/
theorem mayAccess_of_encip (hd : decode b.cmd = some .encip) (h : extentOk p b.src b.len = true) {a : Nat}
    (hl : b.src ≤ a) (hu : a < b.src + b.len) : b.mayRead p a ∧ b.mayWrite p a := by
  have hin : b.inExtent = ⟨b.src, b.len⟩ := Block.inExtent_of_decode hd
  unfold Block.mayRead Block.mayWrite
  rw [Block.outExtent_of_inPlace hd rfl, hin]
  exact ⟨mayAccess_of_extentOk h hl hu, mayAccess_of_extentOk h hl hu⟩

/-- In E_RUN the output indices of the code position and of the cursor lie within what `K = 1` needs, and in E_FIN the
cursor lies at most one past it (rules R66, R105). -/
theorem Block.encCursors.lt_needEnc (h : b.encCursors) :
    b.cp < b.wr ∧ (b.rd < b.len → b.wr < needEnc b.len 1) ∧ (b.rd = b.len → b.wr ≤ needEnc b.len 1) := by
  obtain ⟨hlo, -, hwr, hrd, hfull⟩ := h
  rw [needEnc_eq]
  omega

end Extents

theorem Block.stepsBound_pos {b : Block} (h : b.ph ≠ .idle) : 0 < b.stepsBound := by
  unfold Block.stepsBound
  split <;> first | contradiction | omega

section Safe

variable {p : Platform} {b : Block}

/-- `Finish` ends the command, wherever it stands. -/
theorem Block.Progress.finish (hph : b.ph ≠ .idle) (r : ResultCode) : b.Progress p (b.finish r) where
  phase := trivial
  bound := b.stepsBound_pos hph
  past := by simp
  running h := absurd rfl h
  finished _ := ⟨rfl, rfl⟩
  unseen := rfl

theorem Block.Progress.finishLen (hph : b.ph ≠ .idle) (r : ResultCode) (wr n : Nat) :
    b.Progress p (Block.finishLen { b with wr := wr } r n) where
  phase := trivial
  bound := b.stepsBound_pos hph
  past := by simp
  running h := absurd rfl h
  finished _ := ⟨rfl, rfl⟩
  unseen := rfl

/-- A step that leaves the command running only has to keep the phase's invariant and come closer to the end. -/
theorem Block.Progress.work {ph : Phase} (hph : ph ≠ .idle ∧ ph ≠ .check) {rd wr cp : Nat} {code cnt : Byte} {zp : Bool}
    (hinv : Block.phaseInv p { b with ph := ph, rd := rd, wr := wr, cp := cp, code := code, cnt := cnt, zp := zp })
    (hbound : Block.stepsBound
      { b with ph := ph, rd := rd, wr := wr, cp := cp, code := code, cnt := cnt, zp := zp } < b.stepsBound) :
    b.Progress p { b with ph := ph, rd := rd, wr := wr, cp := cp, code := code, cnt := cnt, zp := zp } where
  phase := hinv
  bound := hbound
  past := hph.2
  running _ := ⟨rfl, rfl, rfl⟩
  finished h := absurd h hph.1
  unseen := rfl

theorem Plan.safe_ite {c : Prop} [Decidable c] {k l : Plan} (hk : c → k.Safe p b) (hl : ¬c → l.Safe p b) :
    (if c then k else l).Safe p b := by
  split
  · next h => exact hk h
  · next h => exact hl h

theorem encCheckPlan_safe {k : Nat}
    (hd : (decode b.cmd = some .enc ∧ k = 1) ∨ (decode b.cmd = some .encd ∧ k = 2)) (hph : b.ph = .check) :
    (encCheckPlan k true p b).Safe p b := by
  have hrun : b.ph ≠ .idle := by simp [hph]
  refine Plan.safe_ite (fun _ => .finish hrun _) fun _ => Plan.safe_ite (fun _ => .finish hrun _) fun hcap =>
    Plan.safe_ite (fun _ => .finish hrun _) fun hext => Plan.safe_ite (fun _ => hph) fun hdisj => ?_
  simp only [Bool.or_eq_true, Bool.not_eq_true', not_or, Bool.not_eq_false] at hext hdisj
  have hready : b.encReady p k := ⟨by omega, hext.1, hext.2, hdisj⟩
  refine .work (by decide) ⟨?_, ⟨by simp, by simp, rfl, le_rfl, by simp⟩, Nat.zero_le _⟩ ?_
  · exact hd.imp (fun ⟨hd, hk⟩ => ⟨hd, hk ▸ hready⟩) fun ⟨hd, hk⟩ => ⟨hd, hk ▸ hready⟩
  · simp [Block.stepsBound, hph, Block.len]; omega

/-- A zero byte opens a group at the cursor (rule R103). -/
theorem Block.encCursors.of_zero (h : b.encCursors) :
    Block.encCursors { b with rd := b.rd + 1, cp := b.wr, wr := b.wr + 1, code := 1 } := by
  obtain ⟨hlo, hhi, hwr, hrd, hfull⟩ := h
  exact ⟨by simp, by simp, rfl, by simp; omega, by simp; omega⟩

/-- A data byte that fills the group took the 254th input byte since the last forced split (rules R103, R105). -/
theorem Block.encCursors.of_full (h : b.encCursors) (hcode : b.code + 1 = fullCode) :
    Block.encCursors { b with rd := b.rd + 1, cp := b.wr + 1, wr := b.wr + 2, code := 1 } := by
  rw [add_one_eq_fullCode_iff] at hcode
  obtain ⟨hlo, hhi, hwr, hrd, hfull⟩ := h
  exact ⟨by simp, by simp, rfl, by simp; omega, by simp; omega⟩

theorem Block.encCursors.of_data (h : b.encCursors) (hcode : b.code + 1 ≠ fullCode) :
    Block.encCursors { b with rd := b.rd + 1, wr := b.wr + 1, code := b.code + 1 } := by
  rw [Ne, add_one_eq_fullCode_iff] at hcode
  obtain ⟨hlo, hhi, hwr, hrd, hfull⟩ := h
  have hnext : (b.code + 1).toNat = b.code.toNat + 1 := by bv_omega
  refine ⟨?_, ?_, ?_, ?_, ?_⟩
  all_goals simp only [hnext]; omega

theorem encRunPlan_safe (hph : b.ph = .eRun) (h : b.phaseInv p) : (encRunPlan b).Safe p b := by
  simp only [Block.phaseInv, hph] at h
  obtain ⟨henc, hcur, hle⟩ := h
  obtain ⟨hread, hwrite⟩ := henc.mayAccess
  obtain ⟨hcp, hwr, -⟩ := hcur.lt_needEnc
  refine Plan.safe_ite (fun hend => ?_) fun hend => ?_
  · exact .work (by decide) ⟨henc, hcur, hend⟩ (by simp [Block.stepsBound, hph])
  have hlt : b.rd < b.len := by omega
  have hmore {c : Block} (hc : c.ph = .eRun) (hrdc : c.rd = b.rd + 1) (hlen : c.len = b.len) :
      c.stepsBound < b.stepsBound := by
    simp only [Block.stepsBound, hph, hc, hrdc, hlen]; omega
  have hinv {c : Block} (hc : c.ph = .eRun) (henc : c.encoding p) (hcur : c.encCursors) (hle : c.rd ≤ c.len) :
      c.phaseInv p := by
    rw [Block.phaseInv, hc]; exact ⟨henc, hcur, hle⟩
  have hgo : b.ph ≠ .idle ∧ b.ph ≠ .check := by simp [hph]
  refine ⟨hread _ hlt, fun x => Plan.safe_ite (fun _ => ⟨hwrite _ (hcp.trans (hwr hlt)), ?_⟩) fun _ =>
    ⟨hwrite _ (hwr hlt), Plan.safe_ite (fun hfull => ⟨hwrite _ (hcp.trans (hwr hlt)), ?_⟩) fun hopen => ?_⟩⟩
  · exact .work hgo (hinv hph henc hcur.of_zero hlt) (hmore hph rfl rfl)
  · exact .work hgo (hinv hph henc (hcur.of_full hfull) hlt) (hmore hph rfl rfl)
  · exact .work hgo (hinv hph henc (hcur.of_data hopen) hlt) (hmore hph rfl rfl)

theorem encFinPlan_safe (hph : b.ph = .eFin) (h : b.phaseInv p) {k : Nat}
    (hd : (decode b.cmd = some .enc ∧ k = 1) ∨ (decode b.cmd = some .encd ∧ k = 2)) : (encFinPlan k b).Safe p b := by
  simp only [Block.phaseInv, hph] at h
  obtain ⟨henc, hcur, hend⟩ := h
  obtain ⟨hcp, -, hwr⟩ := hcur.lt_needEnc
  have hgo : b.ph ≠ .idle := by simp [hph]
  refine ⟨henc.mayAccess.2 _ (by omega), Plan.safe_ite (fun hk => ⟨?_, .finishLen hgo ..⟩) fun _ =>
    .finishLen hgo .ok b.wr _⟩
  have hd2 : decode b.cmd = some .encd := (hd.resolve_left (by omega)).1
  have hready : b.encReady p 2 := (henc.resolve_left (by simp [hd2])).2
  refine (mayAccess_of_encReady (.inr ⟨hd2, rfl⟩) hready).2 _ ?_
  have hone := hwr hend
  simp only [needEnc] at hone ⊢
  omega

theorem decCheckPlan_safe (hd : decode b.cmd = some .decs ∨ decode b.cmd = some .decl) (hph : b.ph = .check) :
    (decCheckPlan true p b).Safe p b := by
  have hrun : b.ph ≠ .idle := by simp [hph]
  refine Plan.safe_ite (fun _ => .finish hrun _) fun _ => Plan.safe_ite (fun _ => .finish hrun _) fun hcap =>
    Plan.safe_ite (fun _ => .finish hrun _) fun hext => Plan.safe_ite (fun _ => hph) fun hdisj => ?_
  simp only [Bool.or_eq_true, Bool.not_eq_true', not_or, Bool.not_eq_false] at hext hdisj
  refine .work (by decide) ⟨⟨hd, Nat.not_lt.1 hcap, hext.1, hext.2, hdisj⟩, Nat.zero_le _, le_rfl, by simp⟩ ?_
  simp [Block.stepsBound, hph, Block.len]

theorem decCodePlan_safe (hph : b.ph = .dCode) (h : b.phaseInv p) (strict : Bool) :
    (decCodePlan strict b).Safe p b := by
  simp only [Block.phaseInv, hph] at h
  obtain ⟨hdec, hle, hwr, -⟩ := h
  have hgo : b.ph ≠ .idle := by simp [hph]
  refine Plan.safe_ite (fun _ => .finishLen hgo .ok b.wr _) fun hend => ?_
  have hlt : b.rd < b.len := by omega
  refine ⟨(mayAccess_of_decoding hdec).1 _ hlt, fun c => Plan.safe_ite (fun _ => ?_) fun hc =>
    Plan.safe_ite (fun _ => .finish hgo _) fun hfit => ?_⟩
  · exact Plan.safe_ite (fun _ => .finish hgo _) fun _ => .finishLen hgo .eofInInput b.wr _
  · have hpos : 1 ≤ c.toNat := by unfold delim at hc; bv_omega
    have hcnt : (c - 1).toNat = c.toNat - 1 := by bv_omega
    have hfits : b.rd + c.toNat ≤ b.len := by
      by_cases hone : c = 1
      · rw [hone]; exact hlt
      · by_contra hbig; exact hfit ⟨by omega, hone⟩
    refine .work (by decide) ⟨hdec, hpos, ?_, ?_, Nat.succ_le_succ hwr, rfl⟩ ?_
    · simp only [hcnt]; omega
    · simp only [hcnt, Block.len] at hfits ⊢; omega
    · simp only [Block.stepsBound, hph, Block.len] at hlt ⊢; omega

theorem decCopyPlan_safe (hph : b.ph = .dCopy) (h : b.phaseInv p) : (decCopyPlan b).Safe p b := by
  simp only [Block.phaseInv, hph] at h
  obtain ⟨hdec, hcode, hcnt, hle, hwr, hzp⟩ := h
  obtain ⟨hread, hwrite⟩ := mayAccess_of_decoding hdec
  have hgo : b.ph ≠ .idle ∧ b.ph ≠ .check := by simp [hph]
  have hroom (hlt : b.rd < b.len) : b.wr < needDec b.len := by rw [needDec]; omega
  refine Plan.safe_ite (fun hmore => ?_) fun hdone => Plan.safe_ite (fun hzero => ?_) fun _ => ?_
  · have hpos : 1 ≤ b.cnt.toNat := by bv_omega
    have hnext : (b.cnt - 1).toNat = b.cnt.toNat - 1 := by bv_omega
    have hlt : b.rd < b.len := by omega
    refine ⟨hread _ hlt, fun x => ⟨hwrite _ (hroom hlt), .work hgo ?_ ?_⟩⟩
    · simp only [Block.phaseInv, hph, hnext]
      exact ⟨hdec, hcode, by omega, by simp only [Block.len] at hle ⊢; omega, by omega, hzp⟩
    · simp only [Block.stepsBound, hph, Block.len] at hlt ⊢; omega
  · obtain ⟨-, hend⟩ := hzero
    have hlt : b.rd < b.len := by omega
    refine ⟨hwrite _ (hroom hlt), .work (by decide) ⟨hdec, hlt.le, hwr, fun _ => Nat.le_add_left ..⟩ ?_⟩
    simp [Block.stepsBound, hph, Block.len]
  · refine .work (by decide) ⟨hdec, (Nat.le_add_right ..).trans hle, (Nat.le_succ _).trans hwr, ?_⟩ ?_
    · simp [hzp]
    · simp [Block.stepsBound, hph, Block.len]

theorem ipCheckPlan_safe (hd : decode b.cmd = some .encip) (hph : b.ph = .check) :
    (ipCheckPlan true p b).Safe p b := by
  have hrun : b.ph ≠ .idle := by simp [hph]
  refine Plan.safe_ite (fun _ => .finish hrun _) fun _ => Plan.safe_ite (fun _ => .finish hrun _) fun hlen =>
    Plan.safe_ite (fun _ => .finish hrun _) fun hext => ?_
  rw [Bool.not_eq_true', Bool.not_eq_false] at hext
  have hacc {a : Nat} := mayAccess_of_encip (a := a) hd hext
  refine ⟨(hacc (by omega) (by omega)).1, fun _ => ⟨(hacc (by omega) (by omega)).1, fun _ =>
    Plan.safe_ite (fun _ => .finish hrun _) fun _ => ?_⟩⟩
  refine .work (by decide) ⟨hd, ⟨Nat.not_lt.1 hlen, hext⟩, Nat.zero_lt_one, ?_⟩ ?_
  · simp only [Block.len] at hlen ⊢; omega
  · simp only [Block.stepsBound, hph, Block.len]; omega

theorem ipScanPlan_safe (hph : b.ph = .iScan) (h : b.phaseInv p) : (ipScanPlan b).Safe p b := by
  simp only [Block.phaseInv, hph] at h
  obtain ⟨hd, hready, hcp, hle⟩ := h
  have hgo : b.ph ≠ .idle ∧ b.ph ≠ .check := by simp [hph]
  have hacc {a : Nat} := mayAccess_of_encip (a := a) hd hready.2
  refine Plan.safe_ite (fun hlt => ⟨(hacc (by omega) (by omega)).1, fun x => Plan.safe_ite (fun _ =>
    Plan.safe_ite (fun _ => .finish hgo.1 _) fun _ => ⟨(hacc (by omega) (by omega)).2, ?_⟩) fun _ => ?_⟩) fun hend => ?_
  · refine .work hgo ?_ ?_
    · simp only [Block.phaseInv, hph]
      exact ⟨hd, hready, Nat.lt_succ_self _, hlt⟩
    · simp only [Block.stepsBound, hph, Block.len] at hlt ⊢; omega
  · refine .work hgo ?_ ?_
    · simp only [Block.phaseInv, hph]
      exact ⟨hd, hready, hcp.trans (Nat.lt_succ_self _), hlt⟩
    · simp only [Block.stepsBound, hph, Block.len] at hlt ⊢; omega
  · exact .work (by decide) ⟨hd, hready, hcp, by simp only [Block.len] at hle hend ⊢; omega⟩
      (by simp [Block.stepsBound, hph])

theorem ipFinPlan_safe (hph : b.ph = .iFin) (h : b.phaseInv p) : (ipFinPlan b).Safe p b := by
  simp only [Block.phaseInv, hph] at h
  obtain ⟨hd, ⟨hlen, hext⟩, hcp, hend⟩ := h
  have hgo : b.ph ≠ .idle := by simp [hph]
  have hacc {a : Nat} := mayAccess_of_encip (a := a) hd hext
  exact Plan.safe_ite (fun _ => .finish hgo _) fun _ =>
    ⟨(hacc (by omega) (by omega)).2, (hacc (by omega) (by omega)).2, .finish hgo _⟩

/-- At CHECK a null-handle form finishes (rule R84). -/
theorem planOf_nullHandle {i : Instr} (hi : i.fields.hp = 0) (p : Platform) (hph : b.ph = .check) :
    planOf (some i) p b = .done (b.finish .outputBufferNull) := by
  cases i with
  | encNohp | encdNohp => simp [planOf, encPlan, hph, encCheckPlan]
  | decsNohp | declNohp => simp [planOf, decPlan, hph, decCheckPlan]
  | encipNohp => simp [planOf, ipPlan, hph, ipCheckPlan]
  | enc | encd | decs | decl | encip => exact absurd hi (by decide)

/-- CHECK is safe for every word. -/
theorem planOf_check_safe (hph : b.ph = .check) : (planOf (decode b.cmd) p b).Safe p b := by
  have hgo : b.ph ≠ .idle := by simp [hph]
  cases hd : decode b.cmd with
  | none =>
    simp only [planOf, illegalPlan, hph]
    exact .finish hgo _
  | some i =>
    by_cases hi : i.fields.hp = 0
    · rw [planOf_nullHandle hi p hph]
      exact .finish hgo _
    · cases i with
      | enc => simpa [planOf, encPlan, hph] using encCheckPlan_safe (.inl ⟨hd, rfl⟩) hph
      | encd => simpa [planOf, encPlan, hph] using encCheckPlan_safe (.inr ⟨hd, rfl⟩) hph
      | decs => simpa [planOf, decPlan, hph] using decCheckPlan_safe (.inl hd) hph
      | decl => simpa [planOf, decPlan, hph] using decCheckPlan_safe (.inr hd) hph
      | encip => simpa [planOf, ipPlan, hph] using ipCheckPlan_safe hd hph
      | encNohp | encdNohp | decsNohp | declNohp | encipNohp => exact absurd rfl hi

/-- Where the phase's invariant holds, the engine step's plan is safe. -/
theorem planOf_safe (hgo : b.ph ≠ .idle) (h : b.phaseInv p) : (planOf (decode b.cmd) p b).Safe p b := by
  have hinv := h
  cases hph : b.ph with
  | idle => exact absurd hph hgo
  | check => exact planOf_check_safe hph
  | eRun =>
    simp only [Block.phaseInv, hph] at h
    obtain ⟨⟨hd, -⟩ | ⟨hd, -⟩, -⟩ := h
    · simpa [hd, planOf, encPlan, hph] using encRunPlan_safe hph hinv
    · simpa [hd, planOf, encPlan, hph] using encRunPlan_safe hph hinv
  | eFin =>
    simp only [Block.phaseInv, hph] at h
    obtain ⟨⟨hd, -⟩ | ⟨hd, -⟩, -⟩ := h
    · simpa [hd, planOf, encPlan, hph] using encFinPlan_safe hph hinv (.inl ⟨hd, rfl⟩)
    · simpa [hd, planOf, encPlan, hph] using encFinPlan_safe hph hinv (.inr ⟨hd, rfl⟩)
  | dCode =>
    simp only [Block.phaseInv, hph] at h
    obtain ⟨⟨hd | hd, -⟩, -⟩ := h
    · simpa [hd, planOf, decPlan, hph] using decCodePlan_safe hph hinv true
    · simpa [hd, planOf, decPlan, hph] using decCodePlan_safe hph hinv false
  | dCopy =>
    simp only [Block.phaseInv, hph] at h
    obtain ⟨⟨hd | hd, -⟩, -⟩ := h
    · simpa [hd, planOf, decPlan, hph] using decCopyPlan_safe hph hinv
    · simpa [hd, planOf, decPlan, hph] using decCopyPlan_safe hph hinv
  | iScan =>
    simp only [Block.phaseInv, hph] at h
    obtain ⟨hd, -⟩ := h
    simpa [hd, planOf, ipPlan, hph] using ipScanPlan_safe hph hinv
  | iFin =>
    simp only [Block.phaseInv, hph] at h
    obtain ⟨hd, -⟩ := h
    simpa [hd, planOf, ipPlan, hph] using ipFinPlan_safe hph hinv

end Safe

end Sys2Proof.Machine
end

section
/-! SUPPORT. What a safe plan's run answers, and with it the statements on every engine step under the invariant
(20_memory.md rules R62, R66, R77; 10_state.md section 3; 70_reset_and_hazards.md rules R200, R260). -/

namespace Sys2Proof.Machine

namespace Plan

variable {P : Plan} {b : Block} {s t : State}

theorem Safe.ne_fault (h : P.Safe s.plat b) (f : Fault) : P.run s ≠ .fault f := by
  induction P generalizing s with
  | done c => simp
  | read a k ih =>
    obtain ⟨⟨-, hdma⟩, hk⟩ := h
    rcases memRead_cases s a with ⟨hno, -⟩ | ⟨-, -, e⟩ | ⟨-, -, e⟩
    · simp [hdma] at hno
    · simp [e]
    · simpa [e] using ih _ (hk _)
  | write a v k ih =>
    obtain ⟨⟨-, hdma⟩, hk⟩ := h
    rcases memWrite_cases s a v with ⟨hno, -⟩ | ⟨-, -, e⟩ | ⟨-, -, e⟩
    · simp [hdma] at hno
    · simp [e]
    · simpa [e] using ih (s := s.poke a v) hk
  | overlap => simp
  | foreign => exact h.elim

/-- With one memory for host and engines, the step goes on or ends CHECK with an overlap. -/
theorem Safe.goes_on (h : P.Safe s.plat b) (hc : s.plat.hostCoherent = true) :
    (∃ t, P.run s = .next t) ∨ (b.ph = .check ∧ P.run s = .refused .overlappingBuffers) := by
  induction P generalizing s with
  | done c => exact .inl ⟨_, rfl⟩
  | read a k ih =>
    obtain ⟨⟨-, hdma⟩, hk⟩ := h
    have e := memRead_of_reaches (s := s) ⟨hdma, State.incoherentAt_of_coherent hc a⟩
    simpa [e] using ih _ (hk _) hc
  | write a v k ih =>
    obtain ⟨⟨-, hdma⟩, hk⟩ := h
    have e := memWrite_of_reaches (s := s) ⟨hdma, State.incoherentAt_of_coherent hc a⟩ v
    simpa [e] using ih (s := s.poke a v) hk hc
  | overlap => exact .inr ⟨h, rfl⟩
  | foreign => exact h.elim

theorem Safe.stores_mem_outExtent {p : Platform} (h : P.Safe p b) {m : Memory} {a : Nat} (ha : a ∈ P.stores m) :
    b.outExtent.has a = true := by
  induction P generalizing m with
  | done | overlap | foreign => cases ha
  | read c k ih =>
    obtain ⟨-, hk⟩ := h
    exact ih _ (hk _) ha
  | write c v k ih =>
    obtain ⟨⟨hout, -⟩, hk⟩ := h
    rcases List.mem_cons.1 ha with rfl | ha
    · exact hout
    · exact ih hk ha

theorem Safe.progress (h : P.Safe s.plat b) (hrun : P.run s = .next t) : b.Progress s.plat t.dev := by
  induction P generalizing s with
  | done c => cases hrun; exact h
  | read a k ih =>
    obtain ⟨-, hk⟩ := h
    obtain ⟨x, -, hrun⟩ := andThen_eq_next.1 hrun
    exact ih x (hk x) hrun
  | write a v k ih =>
    obtain ⟨-, hk⟩ := h
    obtain ⟨u, hu, hrun⟩ := andThen_eq_next.1 hrun
    obtain ⟨-, -, rfl⟩ := memWrite_eq_next.1 hu
    exact ih (s := s.poke a v) hk hrun
  | overlap => cases hrun
  | foreign => cases hrun

/-- Over a memory that agrees on the input extent a safe plan takes the same path (rule R66). -/
theorem Safe.over_memory (h : P.Safe s.plat b) {m : Memory} (hs : s.mem.wf) (hm : m.wf)
    (hagree : ∀ a, b.inExtent.has a = true → m.read a = s.mem.read a) (hrun : P.run s = .next t) :
    ∃ u, P.run { s with mem := m } = .next u ∧ u = { t with mem := u.mem } ∧ P.stores m = P.stores s.mem ∧
      ∀ a ∈ P.stores s.mem, u.mem.read a = t.mem.read a := by
  induction P generalizing s m with
  | done c => cases hrun; exact ⟨_, rfl, rfl, rfl, by simp⟩
  | read a k ih =>
    obtain ⟨⟨hin, -⟩, hk⟩ := h
    obtain ⟨x, hx, hrun⟩ := andThen_eq_next.1 hrun
    obtain ⟨hdma, hcoh, rfl⟩ := memRead_eq_next.1 hx
    have e : memRead { s with mem := m } a = .next (s.mem.read a) :=
      memRead_eq_next.2 ⟨hdma, hcoh, (hagree a hin).symm⟩
    rw [run_read, e, stores_read, stores_read, hagree a hin]
    exact ih _ (hk _) hs hm hagree hrun
  | write a v k ih =>
    obtain ⟨-, hk⟩ := h
    obtain ⟨u, hu, hrun⟩ := andThen_eq_next.1 hrun
    obtain ⟨hdma, hcoh, rfl⟩ := memWrite_eq_next.1 hu
    have e : memWrite { s with mem := m } a v = .next { s.poke a v with mem := m.write a v } :=
      memWrite_eq_next.2 ⟨hdma, hcoh, rfl⟩
    have hagree' (x : Nat) (hx : b.inExtent.has x = true) : (m.write a v).read x = (s.poke a v).mem.read x := by
      by_cases hxa : x = a
      · rw [hxa, Memory.read_write_same hm, State.read_poke_same hs]
      · rw [Memory.read_write_other m v hxa, State.read_poke_other s v hxa, hagree x hx]
    obtain ⟨w, hw, hframe, hstores, hread⟩ := ih (s := s.poke a v) hk (Memory.wf_write hs (dmaOk_lt hdma) v)
      (Memory.wf_write hm (dmaOk_lt hdma) v) hagree' hrun
    refine ⟨w, by rw [run_write, e]; exact hw, hframe, congrArg (a :: ·) hstores, fun x hx => ?_⟩
    by_cases hxk : x ∈ k.stores (s.poke a v).mem
    · exact hread x hxk
    · obtain rfl : x = a := (List.mem_cons.1 hx).resolve_right hxk
      rw [(run_stored hrun).read x hxk, (run_stored hw).read x (by rwa [hstores]), State.read_poke_same hs]
      exact Memory.read_write_same hm x v
  | overlap => cases hrun
  | foreign => cases hrun

end Plan

section Engine

variable {s t : State}

theorem engineStep_stored (h : engineStep s = .next t) :
    s.Stored t ((planOf (decode s.dev.cmd) s.plat s.dev).stores s.mem) := by
  rw [engineStep_eq_run] at h
  exact Plan.run_stored h

theorem engineStep_progress (hinv : s.dev.phaseInv s.plat) (hgo : s.dev.ph ≠ .idle) (h : engineStep s = .next t) :
    s.dev.Progress s.plat t.dev := by
  rw [engineStep_eq_run] at h
  exact (planOf_safe hgo hinv).progress h

theorem engineStep_goes_on (hinv : s.dev.phaseInv s.plat) (hgo : s.dev.ph ≠ .idle) (hc : s.plat.hostCoherent = true) :
    (∃ t, engineStep s = .next t) ∨ (s.dev.ph = .check ∧ engineStep s = .refused .overlappingBuffers) := by
  rw [engineStep_eq_run]
  exact (planOf_safe hgo hinv).goes_on hc

end Engine

section Invariant

variable {p : Platform} {b : Block}

theorem Block.Inv.of_progress {c : Block} (h : b.Inv p) (hgo : b.ph ≠ .idle) (hp : b.Progress p c) : c.Inv p := by
  obtain ⟨hbusy, hclear, -, hunseen⟩ := h
  obtain ⟨hdone, hresult⟩ := hclear (hbusy.2 hgo)
  refine ⟨?_, ?_, hp.phase, fun hc => hp.unseen.trans (hunseen hc)⟩
  · by_cases hi : c.ph = .idle
    · simp [hi, hp.finished hi]
    · simp [hi, hp.running hi, hbusy.2 hgo]
  · intro hcb
    by_cases hi : c.ph = .idle
    · simp [hp.finished hi] at hcb
    · obtain ⟨-, hd, hr⟩ := hp.running hi
      exact ⟨hd.trans hdone, hr.trans hresult⟩

/-- No register write but an acceptance touches what says whether a command runs (rules R33 to R38). -/
theorem Block.writeReg_running (b : Block) (off : Nat) (v : Word) :
    (b.writeReg off v).busy = b.busy ∧ (b.writeReg off v).ph = b.ph ∧ (b.writeReg off v).unseen = b.unseen := by
  fun_cases Block.writeReg b off v <;> exact ⟨rfl, rfl, rfl⟩

/-- Only `STATUS` and `CTRL` can be written while busy, and a block that is not busy is idle (rules R38, R47). -/
theorem Block.Inv.writeReg (h : b.Inv p) (off : Nat) (v : Word) : (b.writeReg off v).Inv p := by
  obtain ⟨hbusy, hclear, hphase, hunseen⟩ := h
  by_cases hb : b.busy = true
  · by_cases hs : off = 0x04
    · subst hs
      exact ⟨hbusy, fun _ => ⟨by simp [hclear hb], (hclear hb).2⟩, hphase, hunseen⟩
    · by_cases hc : off = 0x08
      · subst hc
        exact ⟨hbusy, hclear, hphase, hunseen⟩
      · rw [Block.writeReg_of_busy hb v hs hc]
        exact ⟨hbusy, hclear, hphase, hunseen⟩
  · have hidle : b.ph = .idle := not_not.1 (mt hbusy.2 hb)
    obtain ⟨hbusy', hph', hunseen'⟩ := b.writeReg_running off v
    refine ⟨by rw [hbusy', hph']; exact hbusy, fun h => absurd (hbusy' ▸ h) hb, ?_, hunseen' ▸ hunseen⟩
    simp [Block.phaseInv, hph', hidle]

theorem Block.Inv.accept {v : Word} {u : List Nat} (hu : p.hostCoherent = true → u = []) : (b.accept v u).Inv p :=
  ⟨by simp, by simp, trivial, hu⟩

theorem Block.Inv.reset (base : Word) : (Block.reset base).Inv p :=
  ⟨by simp [Block.reset], by simp [Block.reset], trivial, fun _ => rfl⟩

end Invariant

section Step

variable {s t u : State}

theorem State.Inv.dev (h : s.Inv) : s.dev.Inv s.plat := h.2.1 s.dev (State.mem_blocks.2 (.inl rfl))

theorem State.Refocused.inv (hu : s.Refocused u) (h : s.Inv) : u.Inv := by
  obtain ⟨hmem, hblocks, hcoh⟩ := h
  refine ⟨hu.mem ▸ hmem, ?_, ?_⟩
  · rw [hu.blocks, hu.plat]; exact hblocks
  · rw [hu.plat, hu.hostDirty, hu.engineDirty]; exact hcoh

/-- A change of the block in focus keeps the invariant of the others. -/
theorem State.Inv.withDev (h : s.Inv) {c : Block} (hc : c.Inv s.plat) : (s.withDev c).Inv := by
  obtain ⟨hmem, hblocks, hcoh⟩ := h
  refine ⟨hmem, fun b hb => ?_, hcoh⟩
  rcases State.mem_blocks.1 hb with rfl | hb
  · exact hc
  · exact hblocks b (State.mem_blocks.2 (.inr hb))

theorem State.Inv.engineStep (h : s.Inv) (hstep : engineStep s = .next t) : t.Inv := by
  by_cases hgo : s.dev.ph = .idle
  · rw [engineStep_idle hgo] at hstep
    cases hstep; exact h
  · have hdev := h.dev.of_progress hgo (engineStep_progress h.phaseInv hgo hstep)
    have hstored := engineStep_stored hstep
    obtain ⟨hmem, hblocks, hcoh⟩ := h.withDev hdev
    rw [hstored.frame]
    exact ⟨hstored.wf h.1, hblocks, fun hc => ⟨(hcoh hc).1, (hstored.unmarked hc).trans (hcoh hc).2⟩⟩

theorem State.Inv.writeRegister (h : s.Inv) {off : Nat} {v : Word} (hw : writeRegister s off v = .next t) : t.Inv := by
  obtain ⟨-, -, hcoh⟩ := id h
  rcases writeRegister_eq_next hw with rfl | ⟨-, -, rfl⟩
  · exact h.withDev (h.dev.writeReg off v)
  · exact h.withDev (.accept fun hc => by simp [hc])

theorem State.Inv.hostMemRead (h : s.Inv) {a : Nat} (hr : hostMemRead s a = .next t) : t.Inv := by
  rcases hostMemRead_cases s a with
    ⟨-, e⟩ | ⟨-, -, e⟩ | ⟨-, -, -, e⟩ | ⟨-, -, -, -, -, e⟩ | ⟨-, -, -, -, e⟩
  · cases e.symm.trans hr
  · cases e.symm.trans hr
  · cases e.symm.trans hr; exact h
  · cases e.symm.trans hr
  · cases e.symm.trans hr; exact h

theorem State.Inv.hostMemWrite (h : s.Inv) {a : Nat} {v : Byte} (hw : hostMemWrite s a v = .next t) : t.Inv := by
  rcases hostMemWrite_cases s a v with ⟨-, e⟩ | ⟨-, -, e⟩ | ⟨-, -, -, e⟩ | ⟨-, ha, -, e⟩
  · cases e.symm.trans hw
  · cases e.symm.trans hw
  · cases e.symm.trans hw
  · cases e.symm.trans hw
    obtain ⟨hmem, hblocks, hcoh⟩ := h
    exact ⟨Memory.wf_write hmem ha v, hblocks, fun hc => ⟨(if_pos hc).trans (hcoh hc).1, (hcoh hc).2⟩⟩

theorem State.Inv.maintain (h : s.Inv) : s.maintain.Inv := by
  obtain ⟨hmem, hblocks, hcoh⟩ := h
  exact ⟨hmem, hblocks, fun hc => ⟨rfl, by simp [(hcoh hc).2]⟩⟩

theorem State.Inv.resetAll (h : s.Inv) : s.resetAll.Inv := by
  obtain ⟨hmem, -, hcoh⟩ := h
  refine ⟨hmem, fun b hb => ?_, hcoh⟩
  rw [State.resetAll_blocks] at hb
  obtain ⟨c, -, rfl⟩ := List.mem_map.1 hb
  exact .reset _

end Step

/-- Settles O43: the invariant moves with the focus, and every agent's step keeps it. -/
theorem stepKeepsInvariant : Obligations.StepKeepsInvariant := by
  unfold Obligations.StepKeepsInvariant
  intro s t h hstep
  cases step_cases hstep with
  | engine hu he => exact (hu.inv h).engineStep he
  | regWrite hu off v hw => exact (hu.inv h).writeRegister hw
  | regRead hu off => exact hu.inv h
  | memRead hu a hr => exact (hu.inv h).hostMemRead hr
  | memWrite hu a v hw => exact (hu.inv h).hostMemWrite hw
  | maintain hu => exact (hu.inv h).maintain
  | reset hu => exact (hu.inv h).resetAll

/-- Settles O44: the plan of the step is safe. -/
theorem engineNeverFaults : Obligations.EngineNeverFaults := by
  unfold Obligations.EngineNeverFaults
  intro s h
  by_cases hgo : s.dev.ph = .idle
  · simp [engineStep_idle hgo]
  · refine ⟨fun f => ?_, fun hc hph => ?_, fun hc r hr => ?_⟩
    · rw [engineStep_eq_run]
      exact (planOf_safe hgo h.phaseInv).ne_fault f
    · exact (engineStep_goes_on h.phaseInv hgo hc).resolve_right fun hcheck => hph hcheck.1
    · rw [engineStep_eq_run] at hr
      exact Plan.run_refused hc hr

/-- An engine step stores inside the extent its command writes (rule R66). -/
theorem engineStep_read_outside {s t : State} {a : Nat} (h : s.Inv) (hstep : engineStep s = .next t)
    (ha : s.dev.outExtent.has a = false) : t.mem.read a = s.mem.read a := by
  by_cases hgo : s.dev.ph = .idle
  · rw [engineStep_idle hgo] at hstep
    cases hstep; rfl
  · refine (engineStep_stored hstep).read a fun hmem => ?_
    simp [(planOf_safe hgo h.phaseInv).stores_mem_outExtent hmem] at ha

/-- Settles O45: a safe plan stores inside the output extent. -/
theorem engineWritesInsideOutput : Obligations.EngineWritesInsideOutput := by
  unfold Obligations.EngineWritesInsideOutput
  exact fun s t a => engineStep_read_outside

theorem stores_of_illegal (p : Platform) (b : Block) (m : Memory) : (planOf none p b).stores m = [] := by
  unfold planOf illegalPlan
  cases b.ph <;> rfl

/-- Settles O46: a safe plan takes the same path over any memory that agrees on the input extent. -/
theorem engineReadsInsideInput : Obligations.EngineReadsInsideInput := by
  unfold Obligations.EngineReadsInsideInput
  intro s t m h hm hagree hstep
  by_cases hgo : s.dev.ph = .idle
  · rw [engineStep_idle hgo] at hstep
    cases hstep
    refine ⟨_, engineStep_idle hgo, rfl, fun i _ => ?_, fun _ => rfl⟩
    simp [storesOf_eq_stores, planOf_idle _ _ hgo]
  · rw [engineStep_eq_run] at hstep
    obtain ⟨u, hu, hframe, hstores, hread⟩ := (planOf_safe hgo h.phaseInv).over_memory h.1 hm hagree hstep
    have hstored := Plan.run_stored hu
    refine ⟨u, (engineStep_eq_run _).trans hu, hframe, fun i hd => ?_, fun hd => hstored.mem ?_⟩
    · rw [storesOf_eq_stores, storesOf_eq_stores, ← hd]
      exact ⟨hstores, hread, fun a ha => hstored.read a (hstores ▸ ha)⟩
    · rw [hd, stores_of_illegal]

/-- A command that does not overlap ends within its bound (rules R200, R260). -/
theorem runSteps_finishes (m : Nat) {s : State} (h : s.Inv) (hsched : s.schedule = []) (hgo : s.dev.ph ≠ .idle)
    (hc : s.plat.hostCoherent = true) (hfirst : engineStep s ≠ .refused .overlappingBuffers)
    (hm : s.dev.stepsBound ≤ m) :
    ∃ n t, n ≤ m ∧ runSteps n s = .next t ∧ t.dev.ph = .idle ∧ t.dev.busy = false ∧ t.dev.done = true := by
  induction m generalizing s with
  | zero => exact absurd hm (s.dev.stepsBound_pos hgo).not_ge
  | succ m ih =>
    obtain ⟨t, ht⟩ := (engineStep_goes_on h.phaseInv hgo hc).resolve_right fun hover => hfirst hover.2
    have hp := engineStep_progress h.phaseInv hgo ht
    have hrun (n : Nat) : runSteps (n + 1) s = runSteps n t := by
      rw [runSteps_succ, step_progress hsched hgo, ht, andThen_next]
    by_cases hend : t.dev.ph = .idle
    · exact ⟨1, t, by omega, hrun 0, hend, hp.finished hend⟩
    · have hinv := h.engineStep ht
      have hframe := engineStep_frame ht
      have hc' : t.plat.hostCoherent = true := hframe.plat ▸ hc
      have hnext : engineStep t ≠ .refused .overlappingBuffers := by
        rcases engineStep_goes_on hinv.phaseInv hend hc' with ⟨u, hu⟩ | ⟨hcheck, -⟩
        · simp [hu]
        · exact absurd hcheck hp.past
      obtain ⟨n, u, hn, hu, hfin⟩ :=
        ih hinv (hframe.schedule.trans hsched) hend hc' hnext (by have := hp.bound; omega)
      exact ⟨n + 1, u, by omega, (hrun n).trans hu, hfin⟩

/-- Settles O57: each engine step comes closer to the end, and CHECK's bound is `2 L + 3`. -/
theorem everyCommandFinishes : Obligations.EveryCommandFinishes := by
  unfold Obligations.EveryCommandFinishes
  intro s h hsched hph hc hstep
  have hgo : s.dev.ph ≠ .idle := by simp [hph]
  rw [step_progress hsched hgo] at hstep
  exact runSteps_finishes _ h hsched hgo hc hstep (by simp [Block.stepsBound, hph])

end Sys2Proof.Machine
end

section
/-! SUPPORT. Which internal registers a phase still reads, and that a step of any agent depends on no others
(10_state.md rules R45, R50; 60_exceptions.md rule R214). -/

namespace Sys2Proof.Machine

/-- The block with the internal registers blanked that its command writes before it reads them, from phase `ph` on. -/
def Block.blank (ph : Phase) (b : Block) : Block :=
  match ph with
  | .idle | .check => b.hostView
  | .eRun | .eFin => { b with cnt := 0, zp := false }
  | .dCode => { b with cp := 0, code := 1, cnt := 0 }
  | .dCopy => { b with cp := 0 }
  | .iScan | .iFin => { b with wr := 0, code := 1, cnt := 0, zp := false }

/-- The block with only the internal registers its phase still reads. -/
def Block.live (b : Block) : Block := b.blank b.ph

/-- The machine with only the live internal registers. -/
def State.live (s : State) : State :=
  { s with left := s.left.map Block.live, dev := s.dev.live, right := s.right.map Block.live }

/-- What a step or run comes to, up to registers that are not live. -/
def outcomeLive (o : Host.Outcome State Fault Refusal) : Host.Outcome State Fault Refusal :=
  andThen o fun t => .next t.live

/-- Blanking touches no register that the host can see, and not the phase. -/
theorem Block.blank_hostView (ph : Phase) (b : Block) : (b.blank ph).hostView = b.hostView := by
  cases ph <;> rfl

theorem Block.live_hostView (b : Block) : b.live.hostView = b.hostView := b.blank_hostView b.ph

section Fields

variable (b : Block)

/-- A function of what the host can see is the same on the live registers. -/
theorem Block.live_congr {α : Type} (f : Block → α) (h : ∀ c : Block, f c = f c.hostView) : f b.live = f b := by
  rw [h b.live, b.live_hostView, ← h]

@[simp] theorem Block.live_codecBase : b.live.codecBase = b.codecBase := b.live_congr Block.codecBase fun _ => rfl
@[simp] theorem Block.live_cmd : b.live.cmd = b.cmd := b.live_congr Block.cmd fun _ => rfl
@[simp] theorem Block.live_busy : b.live.busy = b.busy := b.live_congr Block.busy fun _ => rfl
@[simp] theorem Block.live_ph : b.live.ph = b.ph := b.live_congr Block.ph fun _ => rfl
@[simp] theorem Block.live_unseen : b.live.unseen = b.unseen := b.live_congr Block.unseen fun _ => rfl
@[simp] theorem Block.live_enabled : b.live.enabled = b.enabled := b.live_congr Block.enabled fun _ => rfl
@[simp] theorem Block.live_status : b.live.status = b.status := b.live_congr Block.status fun _ => rfl
@[simp] theorem Block.live_readReg (off : Nat) : b.live.readReg off = b.readReg off :=
  b.live_congr (Block.readReg · off) fun _ => rfl
@[simp] theorem Block.live_windowTouched (a width : Nat) : b.live.windowTouched a width = b.windowTouched a width :=
  b.live_congr (Block.windowTouched · a width) fun _ => rfl
@[simp] theorem Block.live_inExtent : b.live.inExtent = b.inExtent := b.live_congr Block.inExtent fun _ => rfl
@[simp] theorem Block.live_outExtent : b.live.outExtent = b.outExtent := b.live_congr Block.outExtent fun _ => rfl

@[simp] theorem Block.blank_blank (ph : Phase) : (b.blank ph).blank ph = b.blank ph := by
  cases ph <;> rfl

/-- A register write touches no internal register. -/
theorem Block.blank_writeReg (ph : Phase) (off : Nat) (v : Word) :
    (b.blank ph).writeReg off v = (b.writeReg off v).blank ph := by
  have hbusy : (b.blank ph).busy = b.busy := by cases ph <;> rfl
  simp only [writeReg, hbusy]
  split
  case h_1 | h_2 | h_7 => cases ph <;> rfl
  all_goals rw [apply_ite (blank ph)]; cases ph <;> rfl

@[simp] theorem Block.live_live : b.live.live = b.live := by
  show b.live.blank b.live.ph = b.live
  rw [b.live_ph]
  exact b.blank_blank b.ph

theorem Block.live_writeReg (off : Nat) (v : Word) : (b.live.writeReg off v).live = (b.writeReg off v).live := by
  obtain ⟨-, hph, -⟩ := b.writeReg_running off v
  have hlive : b.live.writeReg off v = (b.writeReg off v).live := by
    unfold live
    rw [blank_writeReg, hph]
  rw [hlive, live_live]

theorem Block.live_accept (v : Word) (u : List Nat) : (b.live.accept v u).live = (b.accept v u).live :=
  b.live_congr (fun c => (c.accept v u).hostView) fun _ => rfl

@[simp] theorem Block.live_conflicts (c : Block) : c.conflicts b.live = c.conflicts b :=
  b.live_congr c.conflicts fun _ => rfl

@[simp] theorem Block.live_accept_conflicts (v : Word) (u : List Nat) (c : Block) :
    (b.live.accept v u).conflicts c = (b.accept v u).conflicts c :=
  b.live_congr (fun d => (d.accept v u).conflicts c) fun _ => rfl

end Fields

namespace Plan

/-- The plan with its last block changed. -/
def mapDone (f : Block → Block) : Plan → Plan
  | .done c => .done (f c)
  | .read a k => .read a fun x => (k x).mapDone f
  | .write a v k => .write a v (k.mapDone f)
  | .overlap => .overlap
  | .foreign => .foreign

variable (f : Block → Block)

@[simp] theorem mapDone_done (c : Block) : (done c).mapDone f = done (f c) := rfl
@[simp] theorem mapDone_read (a : Nat) (k : Byte → Plan) : (read a k).mapDone f = read a fun x => (k x).mapDone f := rfl
@[simp] theorem mapDone_write (a : Nat) (v : Byte) (k : Plan) : (write a v k).mapDone f = write a v (k.mapDone f) := rfl
@[simp] theorem mapDone_overlap : overlap.mapDone f = overlap := rfl
@[simp] theorem mapDone_foreign : foreign.mapDone f = foreign := rfl
@[simp] theorem mapDone_ite {c : Prop} {_ : Decidable c} (k l : Plan) :
    (if c then k else l).mapDone f = if c then k.mapDone f else l.mapDone f := by split <;> rfl

end Plan

section Plans

variable {b : Block}

theorem encPlan_live (k : Nat) (hp : Bool) (p : Platform) :
    (encPlan k hp p b.live).mapDone Block.live = (encPlan k hp p b).mapDone Block.live := by
  cases h : b.ph <;> simp [encPlan, h]
  · simp [encCheckPlan, Block.live, h, Block.blank, Block.len, Block.src, Block.dst, Block.hostView, Block.cap, Block.finish]
  · simp [encRunPlan, Block.live, h, Block.blank, Block.len, Block.src, Block.dst]
  · simp [encFinPlan, Block.live, h, Block.blank, Block.dst, Block.hostView, Block.finishLen, Block.finish]

theorem decPlan_live (strict hp : Bool) (p : Platform) :
    (decPlan strict hp p b.live).mapDone Block.live = (decPlan strict hp p b).mapDone Block.live := by
  cases h : b.ph <;> simp [decPlan, h]
  · simp [decCheckPlan, Block.live, h, Block.blank, Block.len, Block.src, Block.dst, Block.hostView, Block.cap, Block.finish]
  · simp [decCodePlan, Block.live, h, Block.blank, Block.len, Block.src, Block.hostView, Block.finishLen, Block.finish]
  · have hlive : b.live = { b with cp := 0 } := by simp [Block.live, h, Block.blank]
    simp only [hlive, decCopyPlan, Plan.mapDone_ite, Plan.mapDone_read, Plan.mapDone_write, Plan.mapDone_done]
    simp [Block.live, h, Block.blank, Block.len, Block.src, Block.dst]
    rfl

theorem ipPlan_live (hp : Bool) (p : Platform) :
    (ipPlan hp p b.live).mapDone Block.live = (ipPlan hp p b).mapDone Block.live := by
  cases h : b.ph <;> simp [ipPlan, h]
  · simp [ipCheckPlan, Block.live, h, Block.blank, Block.len, Block.src, Block.hostView, Block.finish]
  · simp [ipScanPlan, Block.live, h, Block.blank, Block.len, Block.src, Block.hostView, Block.finish]
  · simp [ipFinPlan, Block.live, h, Block.blank, Block.len, Block.src, Block.hostView, Block.finish]

theorem illegalPlan_live : (illegalPlan b.live).mapDone Block.live = (illegalPlan b).mapDone Block.live := by
  cases h : b.ph <;> simp [illegalPlan, h]
  simp [Block.live, h, Block.blank, Block.hostView, Block.finish]

/-- The plan of a step does not depend on registers that are not live. -/
theorem planOf_live (i : Option Instr) (p : Platform) :
    (planOf i p b.live).mapDone Block.live = (planOf i p b).mapDone Block.live :=
  match i with
  | none => illegalPlan_live
  | some .enc | some .encNohp | some .encd | some .encdNohp => encPlan_live ..
  | some .decs | some .decsNohp | some .decl | some .declNohp => decPlan_live ..
  | some .encip | some .encipNohp => ipPlan_live ..

end Plans

section Outcomes

@[simp] theorem outcomeLive_next (t : State) : outcomeLive (.next t) = .next t.live := rfl
@[simp] theorem outcomeLive_fault (r : Fault) : outcomeLive (.fault r) = .fault r := rfl
@[simp] theorem outcomeLive_refused (r : Refusal) : outcomeLive (.refused r) = .refused r := rfl

@[simp] theorem State.live_plat (s : State) : s.live.plat = s.plat := rfl
@[simp] theorem State.live_dev (s : State) : s.live.dev = s.dev.live := rfl
@[simp] theorem State.live_mem (s : State) : s.live.mem = s.mem := rfl
@[simp] theorem State.live_hostDirty (s : State) : s.live.hostDirty = s.hostDirty := rfl
@[simp] theorem State.live_engineDirty (s : State) : s.live.engineDirty = s.engineDirty := rfl
@[simp] theorem State.live_schedule (s : State) : s.live.schedule = s.schedule := rfl
@[simp] theorem State.live_blocks (s : State) : s.live.blocks = s.blocks.map Block.live := by
  simp [State.live, State.blocks]
@[simp] theorem State.live_others (s : State) : s.live.others = s.others.map Block.live := by
  simp [State.live, State.others]

theorem State.live_withDev (s : State) {b c : Block} (h : b.live = c.live) :
    (s.live.withDev b).live = (s.withDev c).live := by
  simp [State.live, State.withDev, h, Function.comp_def]

@[simp] theorem State.live_live (s : State) : s.live.live = s.live := by
  simp [State.live, Function.comp_def]

@[simp] theorem State.live_incoherentAt (s : State) (a : Nat) : s.live.incoherentAt a = s.incoherentAt a := by
  simp [State.incoherentAt]

/-- A change of what is no block does the same to the live machine. -/
theorem State.outcomeLive_next_congr (s : State) {f : State → State} (h : ∀ u, (f u).live = f u.live) :
    outcomeLive (.next (f s.live)) = outcomeLive (.next (f s)) := by
  rw [outcomeLive_next, outcomeLive_next, h, h, live_live]

theorem memRead_live (s : State) (a : Nat) : memRead s.live a = memRead s a := by
  unfold memRead
  rw [State.live_plat, State.live_incoherentAt, State.live_mem]

theorem memWrite_live (s : State) (a : Nat) (v : Byte) : memWrite s.live a v = outcomeLive (memWrite s a v) := by
  unfold memWrite
  rw [State.live_plat, State.live_incoherentAt]
  split
  · rfl
  · split <;> rfl

/-- Plans that differ in dead registers of the last block alone do the same to the live machine. -/
theorem Plan.run_live {P Q : Plan} (s : State) (h : P.mapDone Block.live = Q.mapDone Block.live) :
    outcomeLive (P.run s.live) = outcomeLive (Q.run s) := by
  induction P generalizing s Q with
  | done c =>
    cases Q <;> simp at h
    exact congrArg Host.Outcome.next (s.live_withDev h)
  | read a k ih =>
    cases Q <;> simp at h
    obtain ⟨rfl, h⟩ := h
    simp only [run_read, memRead_live]
    cases memRead s a with
    | next x => exact ih x s (congrFun h x)
    | fault r => rfl
    | refused r => rfl
  | write a v k ih =>
    cases Q <;> simp at h
    obtain ⟨rfl, rfl, h⟩ := h
    simp only [run_write, memWrite_live]
    cases memWrite s a v with
    | next t => exact ih t h
    | fault r => rfl
    | refused r => rfl
  | overlap => cases Q <;> simp at h; rfl
  | foreign => cases Q <;> simp at h; rfl

theorem engineStep_live (s : State) : outcomeLive (engineStep s.live) = outcomeLive (engineStep s) := by
  rw [engineStep_eq_run, engineStep_eq_run, State.live_dev, Block.live_cmd]
  exact Plan.run_live s (planOf_live _ _)

theorem State.live_focus (s : State) (k : Nat) : s.live.focus k = (s.focus k).map State.live := by
  simp only [State.focus, State.live_blocks, ← List.map_drop, ← List.map_take]
  cases s.blocks.drop k <;> rfl

theorem engineStepOf_live (k : Nat) (s : State) :
    outcomeLive (engineStepOf k s.live) = outcomeLive (engineStepOf k s) := by
  rw [engineStepOf, engineStepOf, State.live_focus]
  cases s.focus k with
  | none => rfl
  | some t => exact engineStep_live t

theorem progress_live (s : State) : outcomeLive (progress s.live) = outcomeLive (progress s) := by
  have hfind : s.live.blocks.findIdx? Block.enabled = s.blocks.findIdx? Block.enabled := by
    simp [List.findIdx?_map, Function.comp_def]
  rw [progress, progress, hfind, State.live_dev, Block.live_enabled]
  split
  · exact engineStep_live s
  · cases s.blocks.findIdx? Block.enabled with
    | none => simp
    | some k => exact engineStepOf_live k s

theorem waitStep_live (k : Nat) (rest : List Event) (s : State) :
    outcomeLive (waitStep k rest s.live) = outcomeLive (waitStep k rest s) := by
  rw [waitStep, waitStep, State.live_focus]
  cases s.focus k with
  | none => rfl
  | some t =>
    simp only [Option.map_some, State.live_dev, Block.live_enabled, Block.live_status]
    split
    · exact engineStep_live t
    · exact t.outcomeLive_next_congr (f := fun u => { u.observe t.dev.status with schedule := rest }) fun _ => rfl

/-- Some block satisfies a test of what the host can see. -/
theorem State.live_any (s : State) (f : Block → Bool) (h : ∀ b : Block, f b.live = f b) :
    s.live.blocks.any f = s.blocks.any f := by
  simp [List.any_map, Function.comp_def, h]

theorem writeRegister_live (off : Nat) (v : Word) (s : State) :
    outcomeLive (writeRegister s.live off v) = outcomeLive (writeRegister s off v) := by
  by_cases ho : off = 0x00
  · subst ho
    have hothers : s.live.others.any (fun c => c.busy && (s.live.accept v).dev.conflicts c) =
        s.others.any fun c => c.busy && (s.accept v).dev.conflicts c := by
      rw [State.live_others, List.any_map]
      refine congrArg (s.others.any ·) (funext fun c => ?_)
      show (c.live.busy && (s.dev.live.accept v (if s.plat.hostCoherent then [] else s.hostDirty)).conflicts c.live) = _
      rw [Block.live_busy, Block.live_conflicts, Block.live_accept_conflicts, State.accept_dev]
    have haccept : (s.live.accept v).live = (s.accept v).live := s.live_withDev (s.dev.live_accept v _)
    rw [writeRegister_cmd, writeRegister_cmd, writeCmd, writeCmd, hothers, State.live_dev, Block.live_busy]
    split
    · exact congrArg Host.Outcome.next s.live_live
    · split
      · rfl
      · exact congrArg Host.Outcome.next haccept
  · rw [writeRegister_of_ne_cmd _ v ho, writeRegister_of_ne_cmd _ v ho]
    exact congrArg Host.Outcome.next (s.live_withDev (s.dev.live_writeReg off v))

theorem regAccess_live (a width : Nat) {f : State → Nat → Host.Outcome State Fault Refusal}
    (hf : ∀ s off, outcomeLive (f s.live off) = outcomeLive (f s off)) (s : State) :
    outcomeLive (regAccess s.live a width f) = outcomeLive (regAccess s a width f) := by
  have hfind : s.live.blocks.findIdx? (fun b => b.windowTouched a width) =
      s.blocks.findIdx? fun b => b.windowTouched a width := by
    simp [List.findIdx?_map, Function.comp_def]
  rw [regAccess, regAccess, hfind]
  cases s.blocks.findIdx? fun b => b.windowTouched a width with
  | none => rfl
  | some k =>
    simp only [State.live_focus]
    cases s.focus k with
    | none => rfl
    | some t =>
      simp only [Option.map_some, State.live_dev, Block.live_codecBase]
      split
      · exact hf t _
      · rfl

theorem hostMemRead_live (a : Nat) (s : State) :
    outcomeLive (hostMemRead s.live a) = outcomeLive (hostMemRead s a) := by
  have hwindow : s.live.inWindow a = s.inWindow a := s.live_any _ fun b => by simp
  have hbusy : s.live.busyWrites a = s.busyWrites a := s.live_any _ fun b => by simp
  unfold hostMemRead
  rw [hwindow, hbusy, State.live_plat, State.live_engineDirty]
  split
  · rfl
  split
  · rfl
  split
  · exact s.outcomeLive_next_congr
      (f := fun u => { u.observe ((Config.freeByte u.draws).setWidth 32) with draws := u.draws + 1 }) fun _ => rfl
  split
  · rfl
  · exact s.outcomeLive_next_congr (f := fun u => u.observe ((u.mem.read a).setWidth 32)) fun _ => rfl

theorem hostMemWrite_live (a : Nat) (v : Byte) (s : State) :
    outcomeLive (hostMemWrite s.live a v) = outcomeLive (hostMemWrite s a v) := by
  have hwindow : s.live.inWindow a = s.inWindow a := s.live_any _ fun b => by simp
  have hbusy : s.live.busyTouches a = s.busyTouches a := s.live_any _ fun b => by simp [Block.touches]
  unfold hostMemWrite
  rw [hwindow, hbusy]
  split
  · rfl
  split
  · rfl
  split
  · rfl
  · exact s.outcomeLive_next_congr (f := fun u => { u with
      mem := u.mem.write a v
      hostDirty := if u.plat.hostCoherent then u.hostDirty else insertAddr a u.hostDirty }) fun _ => rfl

theorem State.live_maintain (s : State) : s.live.maintain.live = s.maintain.live := by
  have hbusy : s.live.busyWrites = s.busyWrites := funext fun a => s.live_any _ fun b => by simp
  rw [maintain, maintain, hbusy]
  exact congrArg (fun u : State =>
    { u with hostDirty := [], engineDirty := s.engineDirty.filter fun a => s.busyWrites a }) s.live_live

theorem hostStep_live (h : HostAction) (s : State) : outcomeLive (hostStep h s.live) = outcomeLive (hostStep h s) := by
  cases h with
  | regRead a width =>
    rw [hostStep_regRead, hostStep_regRead]
    refine regAccess_live a width (fun t off => ?_) s
    rw [State.live_dev, Block.live_readReg]
    exact t.outcomeLive_next_congr (f := fun u => u.observe (t.dev.readReg off)) fun _ => rfl
  | regWrite a width v =>
    rw [hostStep_regWrite, hostStep_regWrite]
    exact regAccess_live a width (fun t off => writeRegister_live off v t) s
  | memRead a => exact hostMemRead_live a s
  | memWrite a v => exact hostMemWrite_live a v s
  | cacheMaintenance => exact congrArg Host.Outcome.next s.live_maintain

theorem State.live_resetAll (s : State) : s.live.resetAll = s.resetAll := by
  simp [State.resetAll, State.live, Function.comp_def]

/-- A step of any agent depends on the live registers alone. -/
theorem step_live (s : State) : outcomeLive (step s.live) = outcomeLive (step s) := by
  unfold step machineStep
  rw [State.live_schedule]
  cases s.schedule with
  | nil => exact progress_live s
  | cons e rest =>
    cases e with
    | engine k => exact engineStepOf_live k { s with schedule := rest }
    | host h => exact hostStep_live h { s with schedule := rest }
    | reset =>
      show outcomeLive (.next { s.live.resetAll with schedule := rest }) = _
      rw [State.live_resetAll]
    | wait k => exact waitStep_live k rest s

theorem runSteps_live (n : Nat) {s t : State} (h : s.live = t.live) :
    outcomeLive (runSteps n s) = outcomeLive (runSteps n t) := by
  induction n generalizing s t with
  | zero => exact congrArg Host.Outcome.next h
  | succ n ih =>
    have hstep : outcomeLive (step s) = outcomeLive (step t) := by rw [← step_live s, ← step_live t, h]
    rw [runSteps_succ, runSteps_succ]
    cases hs : step s <;> cases ht : step t <;> simp [hs, ht] at hstep
    · exact ih hstep
    · exact congrArg Host.Outcome.fault hstep
    · exact congrArg Host.Outcome.refused hstep

end Outcomes

theorem outcomeView_outcomeLive (o : Host.Outcome State Fault Refusal) : outcomeView (outcomeLive o) = outcomeView o := by
  cases o with
  | next t => simp [outcomeView, State.hostView, State.live, Function.comp_def, Block.live_hostView]
  | fault r => rfl
  | refused r => rfl

/-- Settles O58: before its command runs a block has no live internal registers, and a run depends on the live ones
alone. -/
theorem internalsNeverObservable : Obligations.InternalsNeverObservable := by
  unfold Obligations.InternalsNeverObservable
  intro s b n hph hview
  have hblank {c : Block} (hc : c.ph = .idle ∨ c.ph = .check) : c.live = c.hostView := by
    rcases hc with hc | hc <;> simp [Block.live, hc, Block.blank]
  have hphb : b.ph = s.dev.ph := by
    show b.hostView.ph = s.dev.hostView.ph
    rw [hview]
  have hlive : (s.withDev b).live = s.live := by
    simp only [State.live, State.withDev_left, State.withDev_right, State.withDev_dev, hblank hph, hblank (hphb ▸ hph), hview]
    rfl
  rw [← outcomeView_outcomeLive, runSteps_live n hlive, outcomeView_outcomeLive]

end Sys2Proof.Machine
end

section
/-! SUPPORT. Buffers in memory under writes, and engine steps where host and engines see one memory. -/

namespace Sys2Proof.Machine

theorem Memory.bytes_append (m : Memory) (base n k : Nat) :
    m.bytes base (n + k) = m.bytes base n ++ m.bytes (base + n) k := by
  induction n generalizing base with
  | zero => simp
  | succ n ih =>
    rw [Nat.add_right_comm, Memory.bytes_succ, Memory.bytes_succ, ih, Nat.add_assoc, Nat.add_comm 1 n, List.cons_append]

theorem Memory.bytes_snoc (m : Memory) (base n : Nat) : m.bytes base (n + 1) = m.bytes base n ++ [m.read (base + n)] :=
  m.bytes_append base n 1

/-- A write outside a buffer leaves its bytes. -/
theorem Memory.bytes_write_outside (m : Memory) {a base n : Nat} (v : Byte) (h : a < base ∨ base + n ≤ a) :
    (m.write a v).bytes base n = m.bytes base n :=
  Memory.bytes_congr _ _ fun i hi => Memory.read_write_other m v (by omega)

/-- A write inside a buffer changes the byte at its index. -/
theorem Memory.bytes_write_inside {m : Memory} (hm : m.wf) {base n : Nat} {pre post : List Byte} {x : Byte}
    (h : m.bytes base n = pre ++ x :: post) (v : Byte) :
    (m.write (base + pre.length) v).bytes base n = pre ++ v :: post := by
  induction pre generalizing base n with
  | nil =>
    cases n with
    | zero => cases h
    | succ n =>
      rw [Memory.bytes_succ] at h ⊢
      obtain ⟨-, hpost⟩ := List.cons.inj h
      rw [List.length_nil, Nat.add_zero, Memory.read_write_same hm, Memory.bytes_write_outside m v (by omega), hpost]
      rfl
  | cons y pre ih =>
    cases n with
    | zero => cases h
    | succ n =>
      rw [Memory.bytes_succ] at h ⊢
      obtain ⟨hy, hpre⟩ := List.cons.inj h
      have hih := ih hpre
      rw [Nat.add_assoc, Nat.add_comm 1] at hih
      rw [List.length_cons, Memory.read_write_other m v (by omega), hy, hih]
      rfl

/-- The machine with another block in focus and another memory: all that engine steps change where host and engines
see one memory. -/
def State.moved (s : State) (b : Block) (m : Memory) : State := { s with dev := b, mem := m }

@[simp] theorem State.moved_plat (s : State) (b : Block) (m : Memory) : (s.moved b m).plat = s.plat := rfl
@[simp] theorem State.moved_dev (s : State) (b : Block) (m : Memory) : (s.moved b m).dev = b := rfl
@[simp] theorem State.moved_mem (s : State) (b : Block) (m : Memory) : (s.moved b m).mem = m := rfl
@[simp] theorem State.moved_schedule (s : State) (b : Block) (m : Memory) : (s.moved b m).schedule = s.schedule := rfl
@[simp] theorem State.withDev_moved (s : State) (b c : Block) (m : Memory) : (s.moved b m).withDev c = s.moved c m := rfl

/-- Where host and engines see one memory, a store notes no address (rule R72). -/
theorem State.poke_moved {s : State} (hc : s.plat.hostCoherent = true) (b : Block) (m : Memory) (a : Nat) (v : Byte) :
    (s.moved b m).poke a v = s.moved b (m.write a v) := by
  simp [State.poke, State.moved, hc]

/-- A run followed by one engine step, with nothing scheduled. -/
theorem runSteps_engineStep {n : Nat} {s t u : State} (h : runSteps n s = .next t) (hsched : t.schedule = [])
    (hgo : t.dev.ph ≠ .idle) (hu : engineStep t = .next u) : runSteps (n + 1) s = .next u := by
  rw [runSteps_add, h, andThen_next, runSteps_succ, step_progress hsched hgo, hu]
  rfl

end Sys2Proof.Machine
end

section
/-! SUPPORT. The encoder's run (40_encode.md rules R103, R104, R107): what it has written after each input byte, that
this comes to the closed form, and the machine's steps. -/

namespace Sys2Proof.Machine

/-- How far the encoder has come: the groups it has closed, and the data bytes of the open one. -/
structure EncPoint where
  closed : List Byte
  data : List Byte

namespace EncPoint

/-- The pending code. -/
def code (pt : EncPoint) : Byte := BitVec.ofNat 8 (pt.data.length + 1)

/-- `E.WR`: the open group has its code position before its data. -/
def wr (pt : EncPoint) : Nat := pt.closed.length + (pt.data.length + 1)

/-- The open group closed with a code byte, and a new one opened. -/
def close (pt : EncPoint) (c : Byte) : EncPoint := ⟨pt.closed ++ c :: pt.data, []⟩

/-- One data byte more. -/
def push (pt : EncPoint) (x : Byte) : EncPoint := ⟨pt.closed, pt.data ++ [x]⟩

/-- One input byte more (rule R103). -/
def feed (pt : EncPoint) (x : Byte) : EncPoint :=
  if x = delim then pt.close pt.code
  else if pt.data.length + 1 = 254 then (pt.push x).close fullCode
  else pt.push x

/-- The encoder at the end of the input `p`. -/
def after (p : List Byte) : EncPoint := p.foldl feed ⟨[], []⟩

@[simp] theorem close_closed_length (pt : EncPoint) (c : Byte) : (pt.close c).closed.length = pt.wr := by
  simp [close, wr]
@[simp] theorem close_wr (pt : EncPoint) (c : Byte) : (pt.close c).wr = pt.wr + 1 := by simp [close, wr]
@[simp] theorem close_code (pt : EncPoint) (c : Byte) : (pt.close c).code = 1 := rfl
@[simp] theorem push_closed (pt : EncPoint) (x : Byte) : (pt.push x).closed = pt.closed := rfl
@[simp] theorem push_wr (pt : EncPoint) (x : Byte) : (pt.push x).wr = pt.wr + 1 := by simp [push, wr]; omega
@[simp] theorem push_code (pt : EncPoint) (x : Byte) : (pt.push x).code = pt.code + 1 := by
  simp [push, code, BitVec.ofNat_add]

theorem feed_delim (pt : EncPoint) : pt.feed delim = pt.close pt.code := if_pos rfl

/-- The test for a full group is the machine's test of the pending code (rule R103). -/
theorem feed_of_data {pt : EncPoint} (h : pt.data.length ≤ 253) {x : Byte} (hx : x ≠ delim) :
    pt.feed x = if pt.code + 1 = fullCode then (pt.push x).close fullCode else pt.push x := by
  have hcode : pt.code.toNat = pt.data.length + 1 := by
    rw [code, BitVec.toNat_ofNat]; omega
  rw [feed, if_neg hx]
  refine if_congr ?_ rfl rfl
  rw [add_one_eq_fullCode_iff, hcode]
  omega

theorem after_snoc (p : List Byte) (x : Byte) : after (p ++ [x]) = (after p).feed x := by
  simp [after, List.foldl_append]

/-- The open group stays below a full one (rule R103). -/
theorem feed_short {pt : EncPoint} (h : pt.data.length ≤ 253) (x : Byte) : (pt.feed x).data.length ≤ 253 := by
  unfold feed
  split
  · simp [close]
  · split
    · simp [close]
    · simp [push]; omega

theorem after_short (p : List Byte) : (after p).data.length ≤ 253 := by
  induction p using List.reverseRecOn with
  | nil => simp [after]
  | append_singleton p x ih => rw [after_snoc]; exact feed_short ih x

end EncPoint

/-- Fuel for the segment's length is fuel enough (rule R107). -/
theorem segFuel_eq_seg {f : Nat} {s : List Byte} (h : s.length ≤ f) : segFuel f s = seg s := by
  suffices ∀ g, s.length ≤ g → segFuel f s = segFuel g s from this _ le_rfl
  induction f generalizing s with
  | zero =>
    intro g _
    cases g <;> simp [segFuel, List.length_eq_zero_iff.1 (Nat.le_zero.1 h)]
  | succ f ih =>
    intro g hg
    cases g with
    | zero => simp [segFuel, List.length_eq_zero_iff.1 (Nat.le_zero.1 hg)]
    | succ g =>
      rw [segFuel, segFuel]
      split
      · rw [ih (by simp; omega) g (by simp; omega)]
      · rfl

/-- A full group, then the rest of the segment (rule R107). -/
theorem seg_append_of_full {t : List Byte} (h : t.length = 254) (s : List Byte) :
    seg (t ++ s) = fullCode :: (t ++ seg s) := by
  have hlen : (t ++ s).length = (253 + s.length) + 1 := by simp [h]; omega
  rw [seg, hlen, segFuel, if_pos (by omega), List.take_left' h, List.drop_left' h, segFuel_eq_seg (by omega)]
  rfl

namespace EncPoint

/-- From a point with a short open group, the rest of the input continues its segment (rule R107). -/
theorem closed_foldl (p : List Byte) {pt : EncPoint} (h : pt.data.length ≤ 253) {s : List Byte} {r : List (List Byte)}
    (hseg : segments p = s :: r) :
    ((p.foldl feed pt).close (p.foldl feed pt).code).closed = pt.closed ++ (seg (pt.data ++ s) ++ r.flatMap seg) := by
  have hgroup : seg pt.data = pt.code :: pt.data := seg_of_length_lt (by omega)
  induction p generalizing pt s r with
  | nil =>
    obtain ⟨rfl, rfl⟩ := List.cons.inj hseg
    simp [close, hgroup]
  | cons x p ih =>
    rw [List.foldl_cons]
    by_cases hx : x = delim
    · subst hx
      rw [segments_delim_cons] at hseg
      obtain ⟨rfl, rfl⟩ := List.cons.inj hseg
      obtain ⟨s, r, hs⟩ := List.exists_cons_of_ne_nil (segments_ne_nil p)
      rw [ih (feed_short h delim) hs (seg_of_length_lt (by have := feed_short h delim; omega)), hs, pt.feed_delim]
      simp [close, hgroup]
    · obtain ⟨s', r', hs, hxs⟩ := segments_cons_of_ne_delim hx p
      obtain ⟨rfl, rfl⟩ := List.cons.inj (hseg.symm.trans hxs)
      rw [ih (feed_short h x) hs (seg_of_length_lt (by have := feed_short h x; omega))]
      by_cases hfull : pt.data.length + 1 = 254
      · have hfeed : pt.feed x = (pt.push x).close fullCode := by simp [feed, hx, hfull]
        have hlen : (pt.data ++ [x]).length = 254 := by simp [hfull]
        have hseg := seg_append_of_full hlen s'
        simp only [List.append_assoc, List.singleton_append] at hseg
        simp [hfeed, close, push, hseg]
      · have hfeed : pt.feed x = pt.push x := by simp [feed, hx, hfull]
        simp [hfeed, push]

/-- What the encoder has written when it has closed the last group is `Enc(p, 1)` (rule R107). -/
theorem closed_after (p : List Byte) : ((after p).close (after p).code).closed = encoded p 1 := by
  obtain ⟨s, r, hs⟩ := List.exists_cons_of_ne_nil (segments_ne_nil p)
  rw [after, closed_foldl p (Nat.zero_le _) hs]
  simp [encoded, hs]

/-- The memory `m` holds what the encoder has written at `dst`, and is `m₀` elsewhere. The byte at the code position is
left open. -/
structure Holds (pt : EncPoint) (m₀ m : Memory) (dst : Nat) : Prop where
  bytes : ∃ hole, m.bytes dst pt.wr = pt.closed ++ hole :: pt.data
  outside : ∀ a, a < dst ∨ dst + pt.wr ≤ a → m.read a = m₀.read a

variable {pt : EncPoint} {m₀ m : Memory} {dst : Nat}

theorem Holds.start (m₀ : Memory) (dst : Nat) : Holds ⟨[], []⟩ m₀ m₀ dst :=
  ⟨⟨_, rfl⟩, fun _ _ => rfl⟩

theorem Holds.push (h : pt.Holds m₀ m dst) (hm : m.wf) (x : Byte) :
    (pt.push x).Holds m₀ (m.write (dst + pt.wr) x) dst := by
  have hwr := pt.push_wr x
  obtain ⟨hole, hbytes⟩ := h.bytes
  refine ⟨⟨hole, ?_⟩, fun a ha => ?_⟩
  · rw [hwr, Memory.bytes_snoc, Memory.bytes_write_outside m x (by omega), Memory.read_write_same hm, hbytes]
    simp [EncPoint.push]
  · rw [Memory.read_write_other m x (by omega), h.outside a (by omega)]

/-- The code byte closes the group in memory (rules R103, R104). -/
theorem Holds.bytes_close (h : pt.Holds m₀ m dst) (hm : m.wf) (c : Byte) :
    (m.write (dst + pt.closed.length) c).bytes dst pt.wr = (pt.close c).closed := by
  obtain ⟨hole, hbytes⟩ := h.bytes
  exact Memory.bytes_write_inside hm hbytes c

theorem Holds.outside_close (h : pt.Holds m₀ m dst) (c : Byte) (a : Nat) (ha : a < dst ∨ dst + pt.wr ≤ a) :
    (m.write (dst + pt.closed.length) c).read a = m₀.read a := by
  rw [Memory.read_write_other m c (by simp only [wr] at ha; omega), h.outside a ha]

theorem Holds.close (h : pt.Holds m₀ m dst) (hm : m.wf) (c : Byte) :
    (pt.close c).Holds m₀ (m.write (dst + pt.closed.length) c) dst := by
  have hwr := pt.close_wr c
  refine ⟨⟨(m.write (dst + pt.closed.length) c).read (dst + pt.wr), ?_⟩, fun a ha => h.outside_close c a (by omega)⟩
  rw [hwr, Memory.bytes_snoc, h.bytes_close hm]
  rfl

end EncPoint

/-- The block in E_RUN at an encoder's point, after `i` input bytes. -/
def Block.atEncPoint (b : Block) (i : Nat) (pt : EncPoint) : Block :=
  { b with ph := .eRun, rd := i, cp := pt.closed.length, wr := pt.wr, code := pt.code }

theorem Block.atEncPoint_close (b : Block) (i : Nat) (pt : EncPoint) (c : Byte) :
    { b.atEncPoint i pt with rd := i + 1, cp := pt.wr, wr := pt.wr + 1, code := 1 } =
      b.atEncPoint (i + 1) (pt.close c) := by
  simp [Block.atEncPoint]

theorem Block.atEncPoint_push (b : Block) (i : Nat) (pt : EncPoint) (x : Byte) :
    { b.atEncPoint i pt with rd := i + 1, wr := pt.wr + 1, code := pt.code + 1 } =
      b.atEncPoint (i + 1) (pt.push x) := by
  simp [Block.atEncPoint]

theorem Block.atEncPoint_push_close (b : Block) (i : Nat) (pt : EncPoint) (x c : Byte) :
    { b.atEncPoint i pt with rd := i + 1, cp := pt.wr + 1, wr := pt.wr + 2, code := 1 } =
      b.atEncPoint (i + 1) ((pt.push x).close c) := by
  simp [Block.atEncPoint]

/-- In E_RUN the engine reaches what it reads and writes (rules R66, R103). -/
theorem reaches_of_eRun {u : State} (hinv : u.dev.phaseInv u.plat) (hph : u.dev.ph = .eRun)
    (hc : u.plat.hostCoherent = true) (hrd : u.dev.rd ≠ u.dev.len) :
    u.reaches (u.dev.src + u.dev.rd) ∧ u.reaches (u.dev.dst + u.dev.cp) ∧ u.reaches (u.dev.dst + u.dev.wr) := by
  simp only [Block.phaseInv, hph] at hinv
  obtain ⟨henc, hcur, hle⟩ := hinv
  obtain ⟨hread, hwrite⟩ := henc.mayAccess
  obtain ⟨hcp, hwr, -⟩ := hcur.lt_needEnc
  have hlt : u.dev.rd < u.dev.len := by omega
  have hcoh := State.incoherentAt_of_coherent hc
  exact ⟨⟨(hread _ hlt).2, hcoh _⟩, ⟨(hwrite _ (hcp.trans (hwr hlt))).2, hcoh _⟩,
    ⟨(hwrite _ (hwr hlt)).2, hcoh _⟩⟩

/-- One E_RUN step feeds the input byte (rule R103). -/
theorem encRun_atEncPoint {s : State} {i : Nat} {pt : EncPoint} {m m₀ : Memory}
    (hinv : (s.dev.atEncPoint i pt).phaseInv s.plat) (hc : s.plat.hostCoherent = true) (hi : i ≠ s.dev.len)
    (hm : m.wf) (hshort : pt.data.length ≤ 253) (hholds : pt.Holds m₀ m s.dev.dst) :
    ∃ m', encRun (s.moved (s.dev.atEncPoint i pt) m) =
        .next (s.moved (s.dev.atEncPoint (i + 1) (pt.feed (m.read (s.dev.src + i)))) m') ∧
      m'.wf ∧ (pt.feed (m.read (s.dev.src + i))).Holds m₀ m' s.dev.dst := by
  have hc' : (s.moved (s.dev.atEncPoint i pt) m).plat.hostCoherent = true := hc
  obtain ⟨hsrc, hcp, hwr⟩ := reaches_of_eRun hinv rfl hc' hi
  have hwfcp (v : Byte) {m : Memory} (hm : m.wf) : (m.write (s.dev.dst + pt.closed.length) v).wf :=
    Memory.wf_write hm (dmaOk_lt hcp.1) v
  have hwfwr (v : Byte) : (m.write (s.dev.dst + pt.wr) v).wf := Memory.wf_write hm (dmaOk_lt hwr.1) v
  by_cases hx : m.read (s.dev.src + i) = delim
  · refine ⟨_, ?_, hwfcp pt.code hm, ?_⟩
    · rw [encRun_of_zero hi hsrc hx hcp, State.poke_moved hc, hx, pt.feed_delim, ← Block.atEncPoint_close]
      rfl
    · rw [hx, pt.feed_delim]
      exact hholds.close hm pt.code
  · by_cases hfull : pt.code + 1 = fullCode
    · have hfeed : pt.feed (m.read (s.dev.src + i)) = (pt.push (m.read (s.dev.src + i))).close fullCode := by
        rw [pt.feed_of_data hshort hx, if_pos hfull]
      have hpush := hholds.push hm (m.read (s.dev.src + i))
      refine ⟨_, ?_, hwfcp fullCode (hwfwr (m.read (s.dev.src + i))), ?_⟩
      · rw [encRun_of_full hi hsrc hx hwr hfull hcp, State.poke_moved hc, State.poke_moved hc, hfeed,
          ← Block.atEncPoint_push_close]
        rfl
      · rw [hfeed]
        exact hpush.close (hwfwr _) fullCode
    · have hfeed : pt.feed (m.read (s.dev.src + i)) = pt.push (m.read (s.dev.src + i)) := by
        rw [pt.feed_of_data hshort hx, if_neg hfull]
      refine ⟨_, ?_, hwfwr (m.read (s.dev.src + i)), ?_⟩
      · rw [encRun_of_data hi hsrc hx hwr hfull, State.poke_moved hc, hfeed, ← Block.atEncPoint_push]
        rfl
      · rw [hfeed]
        exact hholds.push hm _

section Final

variable {s : State} (hcp : s.reaches (s.dev.dst + s.dev.cp))
include hcp

/-- E_FIN of ENC (rule R104). -/
theorem encFin_one_of_reaches :
    encFin 1 s = .next ((s.poke (s.dev.dst + s.dev.cp) s.dev.code).withDev (s.dev.finishLen .ok s.dev.wr)) := by
  simp only [encFin, memWrite_of_reaches hcp, andThen_next]
  rfl

/-- E_FIN of ENCD (rule R104). -/
theorem encFin_two_of_reaches (hwr : s.reaches (s.dev.dst + s.dev.wr)) :
    encFin 2 s = .next (((s.poke (s.dev.dst + s.dev.cp) s.dev.code).poke (s.dev.dst + s.dev.wr) delim).withDev
      (Block.finishLen { s.dev with wr := s.dev.wr + 1 } .ok (s.dev.wr + 1))) := by
  have hwr' := (s.poke_reaches (s.dev.dst + s.dev.cp) _ s.dev.code).2 hwr
  simp only [encFin, memWrite_of_reaches hcp, andThen_next, memWrite_of_reaches hwr', if_pos]
  rfl

end Final

theorem encStep_eFin {k : Nat} {hp : Bool} {s : State} (h : s.dev.ph = .eFin) : encStep k hp s = encFin k s := by
  simp [encStep, h]

/-- In E_FIN the engine reaches what it writes (rules R66, R104). -/
theorem reaches_of_eFin {u : State} {k : Nat} (hinv : u.dev.phaseInv u.plat) (hph : u.dev.ph = .eFin)
    (hd : (decode u.dev.cmd = some .enc ∧ k = 1) ∨ (decode u.dev.cmd = some .encd ∧ k = 2))
    (hc : u.plat.hostCoherent = true) :
    u.reaches (u.dev.dst + u.dev.cp) ∧ (k = 2 → u.reaches (u.dev.dst + u.dev.wr)) := by
  have hcoh := State.incoherentAt_of_coherent hc
  have hsafe := encFinPlan_safe hph hinv hd
  obtain ⟨⟨-, hcp⟩, hrest⟩ := hsafe
  refine ⟨⟨hcp, hcoh _⟩, ?_⟩
  rintro rfl
  obtain ⟨⟨-, hwr⟩, -⟩ := hrest
  exact ⟨hwr, hcoh _⟩

/-- The engine step of an encode command (rules R101, R110, R111). -/
theorem engineStep_of_encode {s : State} {k : Nat}
    (hd : (decode s.dev.cmd = some .enc ∧ k = 1) ∨ (decode s.dev.cmd = some .encd ∧ k = 2)) (hgo : s.dev.ph ≠ .idle) :
    engineStep s = encStep k true s := by
  rcases hd with ⟨hd, rfl⟩ | ⟨hd, rfl⟩
  · exact engineStep_of_decode hgo hd
  · exact engineStep_of_decode hgo hd

section Run

variable {s : State} {k : Nat} (hd : (decode s.dev.cmd = some .enc ∧ k = 1) ∨ (decode s.dev.cmd = some .encd ∧ k = 2))
  (hready : s.dev.encReady s.plat k)
include hd hready

/-- The engine's cursor stays in the output, which no input byte lies in (rules R66, R77). -/
theorem input_outside_output {i : Nat} {pt : EncPoint} (hinv : (s.dev.atEncPoint i pt).phaseInv s.plat)
    (hi : i < s.dev.len) : s.dev.src + i < s.dev.dst ∨ s.dev.dst + pt.wr ≤ s.dev.src + i := by
  obtain ⟨-, hcur, -⟩ := hinv
  obtain ⟨-, hwr, -⟩ := hcur.lt_needEnc
  have hwr : pt.wr < needEnc s.dev.len 1 := hwr hi
  obtain ⟨-, -, -, hdisj⟩ := hready
  have hk : 1 ≤ k := by rcases hd with ⟨-, rfl⟩ | ⟨-, rfl⟩ <;> decide
  rw [disjoint_iff] at hdisj
  simp only [needEnc] at hwr hdisj
  omega

variable (hc : s.plat.hostCoherent = true)
include hc

/-- After CHECK and `i` steps of E_RUN, the encoder has taken `i` bytes of the input (rules R102, R103). -/
theorem runSteps_eRun (hsched : s.schedule = []) (hph : s.dev.ph = .check) (hwf : s.mem.wf) {i : Nat}
    (hi : i ≤ s.dev.len) :
    ∃ m, runSteps (i + 1) s = .next (s.moved (s.dev.atEncPoint i (.after (s.mem.bytes s.dev.src i))) m) ∧ m.wf ∧
      EncPoint.Holds (.after (s.mem.bytes s.dev.src i)) s.mem m s.dev.dst ∧
      (s.dev.atEncPoint i (.after (s.mem.bytes s.dev.src i))).phaseInv s.plat := by
  have hgo : s.dev.ph ≠ .idle := by simp [hph]
  induction i with
  | zero =>
    have hcheck : engineStep s = .next (s.moved (s.dev.atEncPoint 0 (.after [])) s.mem) := by
      rw [engineStep_of_encode hd hgo, encStep_check hph, encCheck_of_encReady hready]
      rfl
    have hinv : s.dev.phaseInv s.plat := by simp [Block.phaseInv, hph]
    exact ⟨s.mem, runSteps_engineStep rfl hsched hgo hcheck, hwf, .start _ _, (engineStep_progress hinv hgo hcheck).phase⟩
  | succ i ih =>
    obtain ⟨m, hrun, hm, hholds, hinv⟩ := ih (by omega)
    have hread : m.read (s.dev.src + i) = s.mem.read (s.dev.src + i) :=
      hholds.outside _ (input_outside_output hd hready hinv hi)
    obtain ⟨m', hstep, hm', hholds'⟩ :=
      encRun_atEncPoint hinv hc (by omega) hm (EncPoint.after_short _) hholds
    rw [hread, ← EncPoint.after_snoc, ← Memory.bytes_snoc] at hstep hholds'
    have hengine := (engineStep_of_encode (s := s.moved (s.dev.atEncPoint i _) m) hd nofun).trans
      ((encStep_eRun rfl).trans hstep)
    exact ⟨m', runSteps_engineStep hrun hsched nofun hengine, hm', hholds',
      (engineStep_progress (s := s.moved (s.dev.atEncPoint i _) m) hinv nofun hengine).phase⟩

/-- Then E_RUN finds the end of the input (rule R103). -/
theorem runSteps_eFin (hsched : s.schedule = []) (hph : s.dev.ph = .check) (hwf : s.mem.wf) :
    ∃ m, runSteps (s.dev.len + 2) s =
        .next (s.moved { s.dev.atEncPoint s.dev.len (.after (s.mem.bytes s.dev.src s.dev.len)) with ph := .eFin } m) ∧
      m.wf ∧ EncPoint.Holds (.after (s.mem.bytes s.dev.src s.dev.len)) s.mem m s.dev.dst ∧
      Block.phaseInv s.plat
        { s.dev.atEncPoint s.dev.len (.after (s.mem.bytes s.dev.src s.dev.len)) with ph := .eFin } := by
  obtain ⟨m, hrun, hm, hholds, hinv⟩ := runSteps_eRun hd hready hc hsched hph hwf le_rfl
  generalize EncPoint.after (s.mem.bytes s.dev.src s.dev.len) = pt at *
  have hengine := (engineStep_of_encode (s := s.moved (s.dev.atEncPoint s.dev.len pt) m) hd nofun).trans
    ((encStep_eRun rfl).trans (encRun_of_end rfl))
  exact ⟨m, runSteps_engineStep hrun hsched nofun hengine, hm, hholds,
    (engineStep_progress (s := s.moved (s.dev.atEncPoint s.dev.len pt) m) hinv nofun hengine).phase⟩

end Run

/-- Settles O47: the machine goes through the encoder's points, whose last is the closed form. -/
theorem encodeCommandRun : Obligations.EncodeCommandRun := by
  unfold Obligations.EncodeCommandRun
  rintro s k out hd hsched hph hwf hc hready rfl
  obtain ⟨m, hrun, hm, hholds, hinv⟩ := runSteps_eFin hd hready hc hsched hph hwf
  have hclosed := EncPoint.closed_after (s.mem.bytes s.dev.src s.dev.len)
  have hlen := EncPoint.close_closed_length (.after (s.mem.bytes s.dev.src s.dev.len))
    (EncPoint.code (.after (s.mem.bytes s.dev.src s.dev.len)))
  generalize EncPoint.after (s.mem.bytes s.dev.src s.dev.len) = pt at *
  have hengine := (engineStep_of_encode
    (s := s.moved { s.dev.atEncPoint s.dev.len pt with ph := .eFin } m) hd nofun).trans (encStep_eFin rfl)
  obtain ⟨hcp, hwr⟩ := reaches_of_eFin
    (u := s.moved { s.dev.atEncPoint s.dev.len pt with ph := .eFin } m) hinv rfl hd hc
  have hbytes := hholds.bytes_close hm pt.code
  rw [hclosed] at hlen hbytes
  rcases hd with ⟨-, rfl⟩ | ⟨-, rfl⟩
  · rw [encFin_one_of_reaches hcp, State.poke_moved hc] at hengine
    refine ⟨_, runSteps_engineStep hrun hsched nofun hengine, ?_, ?_, ?_, rfl⟩
    · rw [hlen]; rfl
    · rw [hlen]; exact hbytes
    · rw [hlen]; exact hholds.outside_close pt.code
  · rw [encFin_two_of_reaches hcp (hwr rfl), State.poke_moved hc, State.poke_moved hc] at hengine
    have hlen2 : (encoded (s.mem.bytes s.dev.src s.dev.len) 2).length = pt.wr + 1 := by
      rw [encoded_two, List.length_append, hlen]; rfl
    refine ⟨_, runSteps_engineStep hrun hsched nofun hengine, ?_, ?_, fun a ha => ?_, rfl⟩
    · rw [hlen2]; rfl
    · have hm' := Memory.wf_write hm (dmaOk_lt hcp.1) pt.code
      have hlast := (m.write (s.dev.dst + pt.closed.length) pt.code).bytes_write_outside (a := s.dev.dst + pt.wr)
        (base := s.dev.dst) (n := pt.wr) delim (by omega)
      rw [hlen2, encoded_two, ← hbytes, ← hlast, Memory.bytes_snoc]
      exact congrArg _ (congrArg (· :: []) (Memory.read_write_same hm' _ _))
    · rw [hlen2] at ha
      have hother : a ≠ s.dev.dst + pt.wr := by omega
      exact (Memory.read_write_other _ delim hother).trans (hholds.outside_close pt.code a (by omega))

end Sys2Proof.Machine
end

section
/-! SUPPORT. The decoder's run (41_decode.md rules R132 to R135): a group of the walk is a D_CODE step, a D_COPY step for
each data byte, and one more; the walk and the machine keep the same output. -/

namespace Sys2Proof.Machine

theorem State.reaches_of_coherent {s : State} (hc : s.plat.hostCoherent = true) {a : Nat} (h : dmaOk s.plat a = true) :
    s.reaches a := ⟨h, State.incoherentAt_of_coherent hc a⟩

theorem runSteps_trans {a b : Nat} {s t u : State} (h : runSteps a s = .next t) (h' : runSteps b t = .next u) :
    runSteps (a + b) s = .next u := by
  rw [runSteps_add, h]
  exact h'

theorem runSteps_one {s t : State} (hsched : s.schedule = []) (hgo : s.dev.ph ≠ .idle) (h : engineStep s = .next t) :
    runSteps 1 s = .next t :=
  runSteps_engineStep (runSteps_zero s) hsched hgo h

/-- The memory `m` holds the bytes `out` at `dst`, and is `m₀` elsewhere. -/
structure Written (m₀ m : Memory) (dst : Nat) (out : List Byte) : Prop where
  wf : m.wf
  bytes : m.bytes dst out.length = out
  outside : ∀ a, a < dst ∨ dst + out.length ≤ a → m.read a = m₀.read a

theorem Written.nil {m₀ : Memory} (h : m₀.wf) (dst : Nat) : Written m₀ m₀ dst [] := ⟨h, rfl, fun _ _ => rfl⟩

theorem Written.snoc {m₀ m : Memory} {dst : Nat} {out : List Byte} (h : Written m₀ m dst out)
    (ha : dst + out.length < addrSpace) (x : Byte) :
    Written m₀ (m.write (dst + out.length) x) dst (out ++ [x]) where
  wf := Memory.wf_write h.wf ha x
  bytes := by
    rw [List.length_append, List.length_singleton, Memory.bytes_snoc, Memory.bytes_write_outside m x (by omega),
      Memory.read_write_same h.wf, h.bytes]
  outside a ha := by
    rw [List.length_append, List.length_singleton] at ha
    rw [Memory.read_write_other m x (by omega), h.outside a (by omega)]

/-- The block with the decoder's registers. -/
def Block.decoder (b : Block) (ph : Phase) (rd wr : Nat) (code cnt : Byte) (zp : Bool) : Block :=
  { b with ph := ph, rd := rd, wr := wr, code := code, cnt := cnt, zp := zp }

/-- The machine `t` is `s` after a decode command that came to `d` (rules R139, R145, R146). -/
structure State.DecodeEnds (s : State) (d : Decoded) (t : State) : Prop where
  withLength : ∀ n, d.length = some n → t.dev.hostView = (s.dev.finishLen d.result n).hostView
  withoutLength : d.length = none → t.dev.hostView = (s.dev.finish d.result).hostView
  bytes : t.mem.bytes s.dev.dst d.out.length = d.out
  outside : ∀ a, a < s.dev.dst ∨ s.dev.dst + d.out.length ≤ a → t.mem.read a = s.mem.read a
  frame : t = { s with dev := t.dev, mem := t.mem }

namespace State.DecodeEnds

variable {s : State} {m : Memory} {out : List Byte} (hm : Written s.mem m s.dev.dst out)
  (ph : Phase) (rd wr : Nat) (code cnt : Byte) (zp : Bool) (r : ResultCode) (k : Nat)
include hm

theorem of_finish : s.DecodeEnds ⟨r, out, none, k⟩ ((s.moved (s.dev.decoder ph rd wr code cnt zp) m).finish r) :=
  ⟨nofun, fun _ => rfl, hm.bytes, hm.outside, rfl⟩

theorem of_finishLen (n : Nat) :
    s.DecodeEnds ⟨r, out, some n, k⟩ ((s.moved (s.dev.decoder ph rd wr code cnt zp) m).finishLen r n) :=
  ⟨fun _ h => Option.some.inj h ▸ rfl, nofun, hm.bytes, hm.outside, rfl⟩

end State.DecodeEnds

section Ready

variable {p : Platform} {b : Block} (h : b.decReady p)
include h

theorem Block.decReady.dmaOk_input {i : Nat} (hi : i < b.len) : dmaOk p (b.src + i) = true := by
  obtain ⟨-, hsrc, -, -⟩ := h
  exact dmaOk_of_extentOk hsrc (by omega) (by omega)

theorem Block.decReady.dmaOk_output {i : Nat} (hi : i + 1 < b.len) : dmaOk p (b.dst + i) = true := by
  obtain ⟨-, -, hdst, -⟩ := h
  exact dmaOk_of_extentOk hdst (by omega) (by rw [needDec]; omega)

/-- No input byte lies in the output (rule R77). -/
theorem Block.decReady.input_outside_output {i wr : Nat} (hi : i < b.len) (hwr : wr < b.len) :
    b.src + i < b.dst ∨ b.dst + wr ≤ b.src + i := by
  obtain ⟨-, -, -, hdisj⟩ := h
  rw [disjoint_iff, needDec] at hdisj
  omega

end Ready

section Run

variable {s : State} {strict : Bool}
  (hd : (decode s.dev.cmd = some .decs ∧ strict = true) ∨ (decode s.dev.cmd = some .decl ∧ strict = false))
include hd

/-- The engine step of a decode command (rules R145, R146). -/
theorem engineStep_of_decoder (hgo : s.dev.ph ≠ .idle) : engineStep s = decStep strict true s := by
  rcases hd with ⟨hd, rfl⟩ | ⟨hd, rfl⟩
  · exact engineStep_of_decode hgo hd
  · exact engineStep_of_decode hgo hd

/-- A step of a decode command past CHECK, with nothing else scheduled. -/
theorem runSteps_decoder (hsched : s.schedule = []) {ph : Phase} {rd wr : Nat} {code cnt : Byte} {zp : Bool}
    {m : Memory} {t : State} (hgo : ph ≠ .idle)
    (h : decStep strict true (s.moved (s.dev.decoder ph rd wr code cnt zp) m) = .next t) :
    runSteps 1 (s.moved (s.dev.decoder ph rd wr code cnt zp) m) = .next t :=
  runSteps_one hsched hgo ((engineStep_of_decoder (s := s.moved (s.dev.decoder ph rd wr code cnt zp) m) hd hgo).trans h)

theorem runSteps_decCode (hsched : s.schedule = []) {rd wr : Nat} {code cnt : Byte} {zp : Bool} {m : Memory} {t : State}
    (h : decCode strict (s.moved (s.dev.decoder .dCode rd wr code cnt zp) m) = .next t) :
    runSteps 1 (s.moved (s.dev.decoder .dCode rd wr code cnt zp) m) = .next t :=
  runSteps_decoder hd hsched (by decide) ((decStep_dCode rfl).trans h)

theorem runSteps_decCopy (hsched : s.schedule = []) {rd wr : Nat} {code cnt : Byte} {zp : Bool} {m : Memory} {t : State}
    (h : decCopy (s.moved (s.dev.decoder .dCopy rd wr code cnt zp) m) = .next t) :
    runSteps 1 (s.moved (s.dev.decoder .dCopy rd wr code cnt zp) m) = .next t :=
  runSteps_decoder hd hsched (by decide) ((decStep_dCopy rfl).trans h)

/-- The machine at D_CODE, with `wr` bytes written, comes in `k` steps to what the decoding `d` says, `n` steps before
the end. -/
def State.Decodes (s : State) (d : Decoded) (n i wr : Nat) (code cnt : Byte) (zp : Bool) (m : Memory) : Prop :=
  ∃ k t, d.steps = n + k ∧ runSteps k (s.moved (s.dev.decoder .dCode i wr code cnt zp) m) = .next t ∧ s.DecodeEnds d t

/-- The end of the input (rule R133). -/
theorem decodes_end (hsched : s.schedule = []) (f n : Nat) {out : List Byte} {zp : Bool} {code cnt : Byte} {m : Memory}
    (hm : Written s.mem m s.dev.dst out) :
    s.Decodes (decodeWalk strict f [] out zp n) n s.dev.len out.length code cnt zp m := by
  have hwalk : decodeWalk strict f [] out zp n = ⟨.ok, out, some out.length, n + 1⟩ := by cases f <;> rfl
  rw [hwalk]
  exact ⟨1, _, rfl, runSteps_decCode hd hsched (decCode_of_end rfl), .of_finishLen hm ..⟩

variable (hready : s.dev.decReady s.plat) (hc : s.plat.hostCoherent = true) (hsched : s.schedule = [])
include hready hc hsched

/-- The data bytes of a group, one step each (rule R134). -/
theorem runSteps_copy {data out : List Byte} {i : Nat} {code cnt : Byte} {zp : Bool} {m : Memory}
    (hcnt : cnt.toNat = data.length) (hdata : s.mem.bytes (s.dev.src + i) data.length = data)
    (hle : i + data.length ≤ s.dev.len) (hout : out.length + 1 ≤ i) (hm : Written s.mem m s.dev.dst out) :
    ∃ m', runSteps data.length (s.moved (s.dev.decoder .dCopy i out.length code cnt zp) m) =
        .next (s.moved (s.dev.decoder .dCopy (i + data.length) (out ++ data).length code 0 zp) m') ∧
      Written s.mem m' s.dev.dst (out ++ data) := by
  induction data generalizing out i cnt m with
  | nil =>
    obtain rfl : cnt = 0 := BitVec.eq_of_toNat_eq hcnt
    exact ⟨m, by simp, by simpa using hm⟩
  | cons x data ih =>
    simp only [List.length_cons] at hcnt hdata hle
    rw [Memory.bytes_succ, Nat.add_assoc] at hdata
    obtain ⟨hx, hrest⟩ := List.cons.inj hdata
    have hread : m.read (s.dev.src + i) = x := by
      rw [hm.outside _ (hready.input_outside_output (by omega) (by omega)), hx]
    have hdst := hready.dmaOk_output (i := out.length) (by omega)
    have hstep := decCopy_of_data (s := s.moved (s.dev.decoder .dCopy i out.length code cnt zp) m)
      (by show cnt ≠ 0; rintro rfl; simp at hcnt)
      (State.reaches_of_coherent hc (hready.dmaOk_input (i := i) (by omega))) (State.reaches_of_coherent hc hdst)
    rw [State.poke_moved hc] at hstep
    obtain ⟨m', hrun, hm'⟩ := ih (out := out ++ [x]) (i := i + 1) (cnt := cnt - 1)
      (m := m.write (s.dev.dst + out.length) x) (by bv_omega) hrest (by omega) (by simpa using hout)
      (hm.snoc (dmaOk_lt hdst) x)
    have hone : runSteps 1 (s.moved (s.dev.decoder .dCopy i out.length code cnt zp) m) =
        .next (s.moved (s.dev.decoder .dCopy (i + 1) (out ++ [x]).length code (cnt - 1) zp)
          (m.write (s.dev.dst + out.length) x)) := by
      rw [runSteps_decCopy hd hsched hstep, ← hread, List.length_append]
      rfl
    have hlen : (x :: data).length = 1 + data.length := by rw [List.length_cons, Nat.add_comm]
    have hsplit : out ++ x :: data = out ++ [x] ++ data := by simp
    rw [hlen, hsplit, ← Nat.add_assoc]
    exact ⟨m', runSteps_trans hone hrun, hm'⟩

/-- The decoder's step after the data bytes: a reconstructed zero, or none (rule R134). -/
theorem runSteps_zero_or_none {out : List Byte} {i : Nat} {code : Byte} {m : Memory} (hle : i ≤ s.dev.len)
    (hout : out.length + 1 ≤ i) (hm : Written s.mem m s.dev.dst out) {zero : Bool}
    (hzero : zero = (decide (code ≠ fullCode) && decide (i ≠ s.dev.len))) :
    ∃ m', runSteps 1 (s.moved (s.dev.decoder .dCopy i out.length code 0 false) m) =
        .next (s.moved (s.dev.decoder .dCode i (out ++ if zero then [delim] else []).length code 0 zero) m') ∧
      Written s.mem m' s.dev.dst (out ++ if zero then [delim] else []) := by
  cases zero with
  | false =>
    have hno : code = fullCode ∨ i = s.dev.len := by
      rw [eq_comm, Bool.and_eq_false_iff] at hzero
      simpa using hzero
    refine ⟨m, ?_, by simpa using hm⟩
    have hstep := decCopy_of_no_zero (s := s.moved (s.dev.decoder .dCopy i out.length code 0 false) m) rfl hno
    rw [runSteps_decCopy hd hsched hstep]
    simp
    rfl
  | true =>
    obtain ⟨hcode, hi⟩ : code ≠ fullCode ∧ i ≠ s.dev.len := by simpa using hzero
    have hdst := hready.dmaOk_output (i := out.length) (by omega)
    have hstep := decCopy_of_zero (s := s.moved (s.dev.decoder .dCopy i out.length code 0 false) m) rfl hcode hi
      (State.reaches_of_coherent hc hdst)
    rw [State.poke_moved hc] at hstep
    refine ⟨_, ?_, hm.snoc (dmaOk_lt hdst) delim⟩
    rw [runSteps_decCopy hd hsched hstep, if_pos rfl, List.length_append]
    rfl

/-- A group whose data bytes the input holds (rules R133, R134). -/
theorem runSteps_group {c : Byte} {data out : List Byte} {i : Nat} {code cnt : Byte} {zp : Bool} {m : Memory}
    (hlen : c.toNat = data.length + 1) (hcode : s.mem.read (s.dev.src + i) = c)
    (hdata : s.mem.bytes (s.dev.src + i + 1) data.length = data) (hle : i + 1 + data.length ≤ s.dev.len)
    (hout : out.length ≤ i) (hm : Written s.mem m s.dev.dst out) {zero : Bool}
    (hzero : zero = (decide (c ≠ fullCode) && decide (i + 1 + data.length ≠ s.dev.len))) :
    ∃ m', runSteps (c.toNat + 1) (s.moved (s.dev.decoder .dCode i out.length code cnt zp) m) =
        .next (s.moved (s.dev.decoder .dCode (i + 1 + data.length)
          (out ++ data ++ if zero then [delim] else []).length c 0 zero) m') ∧
      Written s.mem m' s.dev.dst (out ++ data ++ if zero then [delim] else []) := by
  have hread : m.read (s.dev.src + i) = c := by
    rw [hm.outside _ (hready.input_outside_output (by omega) (by omega)), hcode]
  have hopen := decCode_of_group (strict := strict) (s := s.moved (s.dev.decoder .dCode i out.length code cnt zp) m)
    (by show i ≠ s.dev.len; omega) (State.reaches_of_coherent hc (hready.dmaOk_input (i := i) (by omega)))
    (by show m.read (s.dev.src + i) ≠ delim; rw [hread]; rintro rfl; simp [delim] at hlen)
    (.inl (by show i + (m.read (s.dev.src + i)).toNat ≤ s.dev.len; rw [hread]; omega))
  have hfirst : runSteps 1 (s.moved (s.dev.decoder .dCode i out.length code cnt zp) m) =
      .next (s.moved (s.dev.decoder .dCopy (i + 1) out.length c (c - 1) false) m) := by
    rw [runSteps_decCode hd hsched hopen, ← hread]
    rfl
  obtain ⟨m₁, hcopy, hm₁⟩ := runSteps_copy hd hready hc hsched (code := c) (zp := false) (cnt := c - 1) (i := i + 1)
    (by bv_omega) (by rw [← Nat.add_assoc, hdata]) hle (by omega) hm
  obtain ⟨m₂, hlast, hm₂⟩ := runSteps_zero_or_none hd hready hc hsched hle (by simp; omega) hm₁ hzero
  have hsteps : c.toNat + 1 = 1 + data.length + 1 := by omega
  rw [hsteps]
  exact ⟨m₂, runSteps_trans (runSteps_trans hfirst hcopy) hlast, hm₂⟩

/-- From D_CODE with `rest` still to read, the machine does what the walk does (rules R131 to R135). -/
theorem decodes_walk (f : Nat) {rest out : List Byte} {zp : Bool} {n i : Nat} {code cnt : Byte} {m : Memory}
    (hf : rest.length ≤ f) (hi : i + rest.length = s.dev.len) (hrest : s.mem.bytes (s.dev.src + i) rest.length = rest)
    (hout : out.length ≤ i) (hm : Written s.mem m s.dev.dst out) :
    s.Decodes (decodeWalk strict f rest out zp n) n i out.length code cnt zp m := by
  induction f generalizing rest out zp n i code cnt m with
  | zero =>
    obtain rfl : rest = [] := List.length_eq_zero_iff.1 (Nat.le_zero.1 hf)
    obtain rfl : i = s.dev.len := hi
    exact decodes_end hd hsched 0 n hm
  | succ f ih =>
    cases rest with
    | nil =>
      obtain rfl : i = s.dev.len := hi
      exact decodes_end hd hsched _ n hm
    | cons c rest =>
      simp only [List.length_cons] at hf hi hrest
      rw [Memory.bytes_succ] at hrest
      obtain ⟨hc0, hrest⟩ := List.cons.inj hrest
      have hne : i ≠ s.dev.len := by omega
      have hsrc : (s.moved (s.dev.decoder .dCode i out.length code cnt zp) m).reaches (s.dev.src + i) :=
        State.reaches_of_coherent hc (hready.dmaOk_input (by omega))
      have hread : m.read (s.dev.src + i) = c := by
        rw [hm.outside _ (hready.input_outside_output (by omega) (by omega)), hc0]
      rw [decodeWalk]
      by_cases hz : c = delim
      · rw [if_pos hz]
        cases strict with
        | true =>
          exact ⟨1, _, rfl, runSteps_decCode hd hsched (decCode_strict_of_zero hne hsrc (hread.trans hz)), .of_finish hm ..⟩
        | false =>
          exact ⟨1, _, rfl, runSteps_decCode hd hsched (decCode_lenient_of_zero hne hsrc (hread.trans hz)),
            .of_finishLen hm ..⟩
      · rw [if_neg hz]
        have hnz : m.read (s.dev.src + i) ≠ delim := hread ▸ hz
        have hpos : 1 ≤ c.toNat := by unfold delim at hz; bv_omega
        by_cases hbeyond : rest.length < c.toNat - 1
        · rw [if_pos hbeyond]
          have hstep := decCode_of_beyond (strict := strict) hne hsrc hnz
            (by show s.dev.len < i + (m.read (s.dev.src + i)).toNat; rw [hread]; omega)
            (by show m.read (s.dev.src + i) ≠ 1; rw [hread]; rintro rfl; simp at hbeyond)
          exact ⟨1, _, rfl, runSteps_decCode hd hsched hstep, .of_finish hm ..⟩
        · rw [if_neg hbeyond]
          obtain ⟨data, rest, hlen, rfl⟩ : ∃ data rest', data.length = c.toNat - 1 ∧ rest = data ++ rest' :=
            ⟨rest.take (c.toNat - 1), rest.drop (c.toNat - 1), by rw [List.length_take]; omega,
              (List.take_append_drop ..).symm⟩
          simp only [List.length_append] at hf hi hrest
          rw [Memory.bytes_append] at hrest
          obtain ⟨hdata, hrest⟩ := List.append_inj hrest (Memory.bytes_length ..)
          have hshort (zero : Bool) :
              (out ++ data ++ if zero then [delim] else []).length ≤ i + 1 + data.length := by
            cases zero <;> simp <;> omega
          have hend : (!rest.isEmpty) = decide (i + 1 + data.length ≠ s.dev.len) := by
            cases rest with
            | nil => simpa using by simp at hi; omega
            | cons y rest => simp at hi ⊢; omega
          rw [← hlen, List.take_left, List.drop_left]
          obtain ⟨m', hrun, hm'⟩ := runSteps_group hd hready hc hsched (code := code) (cnt := cnt) (zp := zp)
            (c := c) (by omega) hc0 hdata (by omega) hout hm (congrArg (decide (c ≠ fullCode) && ·) hend)
          obtain ⟨k, t, hk, hrun', hends⟩ := ih (rest := rest) (n := n + (c.toNat + 1)) (by omega) (by omega)
            (by rw [← Nat.add_assoc, ← Nat.add_assoc]; exact hrest) (hshort _) hm'
          exact ⟨c.toNat + 1 + k, t, by rw [hk, Nat.add_assoc], runSteps_trans hrun hrun', hends⟩

end Run

/-- Settles O48: from CHECK the machine is at the walk's start, and the walk and the machine go on together. -/
theorem decodeCommandRun : Obligations.DecodeCommandRun := by
  unfold Obligations.DecodeCommandRun
  rintro s strict d hd hsched hph hwf hc hready rfl
  have hgo : s.dev.ph ≠ .idle := by simp [hph]
  have hcheck : engineStep s = .next (s.moved (s.dev.decoder .dCode 0 0 s.dev.code s.dev.cnt false) s.mem) := by
    rw [engineStep_of_decoder hd hgo, decStep_check hph, decCheck_of_decReady hready]
    rfl
  have hlen := s.mem.bytes_length s.dev.src s.dev.len
  obtain ⟨k, t, hk, hrun, hends⟩ := decodes_walk hd hready hc hsched (s.mem.bytes s.dev.src s.dev.len).length (n := 1)
    (i := 0) (out := []) (zp := false) (code := s.dev.code) (cnt := s.dev.cnt) le_rfl (by omega) (by rw [hlen]; rfl)
    le_rfl (.nil hwf _)
  refine ⟨t, ?_, hends.withLength, hends.withoutLength, hends.bytes, hends.outside, hends.frame⟩
  rw [decoded, hk]
  exact runSteps_trans (runSteps_one hsched hgo hcheck) hrun

end Sys2Proof.Machine
end

section
/-! SUPPORT. The in-place encoder's run (42_inplace.md rules R163 to R165): the scan and the walk take the payload byte
by byte, with the same buffer. -/

namespace Sys2Proof.Machine

/-- The byte a buffer's contents say is at an index. -/
theorem Memory.read_of_bytes {m : Memory} {base n : Nat} {pre post : List Byte} {x : Byte}
    (h : m.bytes base n = pre ++ x :: post) : m.read (base + pre.length) = x := by
  have hn : n = pre.length + (post.length + 1) := by simpa using congrArg List.length h
  rw [hn, Memory.bytes_append, Memory.bytes_succ] at h
  obtain ⟨-, hpost⟩ := List.append_inj h (Memory.bytes_length ..)
  exact (List.cons.inj hpost).1

/-- The memory `m` holds the bytes `buf` at `src`, and is `m₀` elsewhere. -/
structure Buffered (m₀ m : Memory) (src : Nat) (buf : List Byte) : Prop where
  wf : m.wf
  bytes : m.bytes src buf.length = buf
  outside : ∀ a, a < src ∨ src + buf.length ≤ a → m.read a = m₀.read a

namespace Buffered

theorem bytes_of_length {m₀ m : Memory} {src n : Nat} {buf : List Byte} (h : Buffered m₀ m src buf)
    (hn : buf.length = n) : m.bytes src n = buf := hn ▸ h.bytes

theorem outside_of_length {m₀ m : Memory} {src n : Nat} {buf : List Byte} (h : Buffered m₀ m src buf)
    (hn : buf.length = n) (a : Nat) (ha : a < src ∨ src + n ≤ a) : m.read a = m₀.read a :=
  h.outside a (hn ▸ ha)

variable {m₀ m : Memory} {src : Nat} {pre post : List Byte} {x : Byte} (h : Buffered m₀ m src (pre ++ x :: post))
include h

theorem read : m.read (src + pre.length) = x := Memory.read_of_bytes h.bytes

theorem write (ha : src + pre.length < addrSpace) (v : Byte) :
    Buffered m₀ (m.write (src + pre.length) v) src (pre ++ v :: post) := by
  have hlen : (pre ++ v :: post).length = (pre ++ x :: post).length := by simp
  refine ⟨Memory.wf_write h.wf ha v, ?_, fun a ha => ?_⟩
  · rw [hlen]
    exact Memory.bytes_write_inside h.wf h.bytes v
  · rw [hlen] at ha
    have hin : (pre ++ x :: post).length = pre.length + (post.length + 1) := by simp
    rw [Memory.read_write_other m v (by omega), h.outside a ha]

end Buffered

/-- The block with the in-place encoder's registers. -/
def Block.scanner (b : Block) (ph : Phase) (cp rd : Nat) : Block := { b with ph := ph, cp := cp, rd := rd }

/-- The machine `t` is `s` after an ENCIP that came to a result and a buffer (rule R170). -/
structure State.InPlaceEnds (s : State) (r : ResultCode × List Byte) (t : State) : Prop where
  view : t.dev.hostView = (s.dev.finish r.1).hostView
  buffered : Buffered s.mem t.mem s.dev.src r.2
  frame : t = { s with dev := t.dev, mem := t.mem }

theorem State.InPlaceEnds.of_finish {s : State} {m : Memory} {buf : List Byte} (h : Buffered s.mem m s.dev.src buf)
    (ph : Phase) (cp rd : Nat) (r : ResultCode) :
    s.InPlaceEnds (r, buf) ((s.moved (s.dev.scanner ph cp rd) m).finish r) :=
  ⟨rfl, h, rfl⟩

/-- The machine in I_SCAN ends within `n` steps as `r` says, and in `n` if it is `OK`. -/
def State.Scans (s : State) (r : ResultCode × List Byte) (n cp rd : Nat) (m : Memory) : Prop :=
  ∃ k t, runSteps k (s.moved (s.dev.scanner .iScan cp rd) m) = .next t ∧ k ≤ n ∧ (r.1 = .ok → k = n) ∧
    s.InPlaceEnds r t

/-- One step of the scan, then the rest. -/
theorem State.Scans.of_step {s : State} {r : ResultCode × List Byte} {n cp rd cp' rd' : Nat} {m m' : Memory}
    (h : runSteps 1 (s.moved (s.dev.scanner .iScan cp rd) m) = .next (s.moved (s.dev.scanner .iScan cp' rd') m'))
    (hrest : s.Scans r n cp' rd' m') : s.Scans r (n + 1) cp rd m := by
  obtain ⟨k, t, hrun, hk, hok, hends⟩ := hrest
  exact ⟨1 + k, t, runSteps_trans h hrun, by omega, fun h => by rw [hok h, Nat.add_comm], hends⟩

section Run

variable {s : State} (hd : decode s.dev.cmd = some .encip) (hsched : s.schedule = [])
include hd hsched

/-- A step of ENCIP past CHECK, with nothing else scheduled. -/
theorem runSteps_scanner {ph : Phase} {cp rd : Nat} {m : Memory} {t : State} (hgo : ph ≠ .idle)
    (h : ipStep true (s.moved (s.dev.scanner ph cp rd) m) = .next t) :
    runSteps 1 (s.moved (s.dev.scanner ph cp rd) m) = .next t :=
  runSteps_one hsched hgo
    ((engineStep_of_decode (s := s.moved (s.dev.scanner ph cp rd) m) hgo hd).trans h)

theorem runSteps_ipScan {cp rd : Nat} {m : Memory} {t : State}
    (h : ipScan (s.moved (s.dev.scanner .iScan cp rd) m) = .next t) :
    runSteps 1 (s.moved (s.dev.scanner .iScan cp rd) m) = .next t :=
  runSteps_scanner hd hsched (by decide) ((ipStep_iScan rfl).trans h)

theorem runSteps_ipFin {cp rd : Nat} {m : Memory} {t : State}
    (h : ipFin (s.moved (s.dev.scanner .iFin cp rd) m) = .next t) :
    runSteps 1 (s.moved (s.dev.scanner .iFin cp rd) m) = .next t :=
  runSteps_scanner hd hsched (by decide) ((ipStep_iFin rfl).trans h)

variable (hext : extentOk s.plat s.dev.src s.dev.len = true) (hc : s.plat.hostCoherent = true)
include hext hc

omit hd hsched in
theorem reaches_of_buffer {i : Nat} (hi : i < s.dev.len) : s.reaches (s.dev.src + i) :=
  State.reaches_of_coherent hc (dmaOk_of_extentOk hext (by omega) (by omega))

/-- The end of the scan: the last segment's code byte and the delimiter, unless the segment is too long (rules R163,
R164). -/
theorem scans_end {pre d : List Byte} {slot sentinel : Byte} {m : Memory}
    (hlen : s.dev.len = pre.length + 1 + d.length + 1)
    (hm : Buffered s.mem m s.dev.src (pre ++ slot :: (d ++ [sentinel]))) :
    s.Scans ((ipWalk sentinel slot [d]).1, pre ++ (ipWalk sentinel slot [d]).2) 2 pre.length
      (pre.length + 1 + d.length) m := by
  have hfirst : runSteps 1 (s.moved (s.dev.scanner .iScan pre.length (pre.length + 1 + d.length)) m) =
      .next (s.moved (s.dev.scanner .iFin pre.length (pre.length + 1 + d.length)) m) :=
    runSteps_ipScan hd hsched (ipScan_of_end (by show s.dev.len - 1 ≤ pre.length + 1 + d.length; omega))
  have hoff : pre.length + 1 + d.length - pre.length = d.length + 1 := by omega
  by_cases hfar : 255 ≤ d.length
  · have hstep := ipFin_of_far (s := s.moved (s.dev.scanner .iFin pre.length (pre.length + 1 + d.length)) m)
      (by show 255 < pre.length + 1 + d.length - pre.length; omega)
    refine ⟨2, _, runSteps_trans hfirst (runSteps_ipFin hd hsched hstep), le_rfl, fun _ => rfl, ?_⟩
    simp only [ipWalk, if_pos hfar, List.flatMap_nil, List.append_nil]
    exact .of_finish hm ..
  · have hcp := reaches_of_buffer hext hc (i := pre.length) (by omega)
    have hlast := reaches_of_buffer hext hc (i := pre.length + 1 + d.length) (by omega)
    have hend : s.dev.src + s.dev.len - 1 = s.dev.src + (pre.length + 1 + d.length) := by omega
    have hstep := ipFin_of_near (s := s.moved (s.dev.scanner .iFin pre.length (pre.length + 1 + d.length)) m)
      (by show pre.length + 1 + d.length - pre.length ≤ 255; omega) hcp (by
        show State.reaches _ (s.dev.src + s.dev.len - 1)
        rw [hend]; exact hlast)
    rw [State.poke_moved hc, State.poke_moved hc] at hstep
    refine ⟨2, _, runSteps_trans hfirst (runSteps_ipFin hd hsched hstep), le_rfl, fun _ => rfl, ?_⟩
    have hclose := hm.write (dmaOk_lt hcp.1) (BitVec.ofNat 8 (d.length + 1))
    have hsplit : pre ++ BitVec.ofNat 8 (d.length + 1) :: (d ++ [sentinel]) =
        (pre ++ BitVec.ofNat 8 (d.length + 1) :: d) ++ sentinel :: [] := by simp
    have hat : (pre ++ BitVec.ofNat 8 (d.length + 1) :: d).length = pre.length + 1 + d.length := by simp; omega
    rw [hsplit] at hclose
    have hfinal := hclose.write (by rw [hat]; exact dmaOk_lt hlast.1) delim
    rw [hat, ← hend, ← hoff] at hfinal
    have hbuf : pre ++ (BitVec.ofNat 8 (pre.length + 1 + d.length - pre.length) :: d ++ [delim]) =
        pre ++ BitVec.ofNat 8 (pre.length + 1 + d.length - pre.length) :: d ++ delim :: [] := by simp
    simp only [ipWalk, if_neg hfar, ← hoff]
    rw [hbuf]
    exact .of_finish hfinal ..

/-- From I_SCAN with `q` still to scan, and the data `d` since the code position, the machine does what the walk does
(rules R163 to R165). -/
theorem scans_walk (q : List Byte) {pre d : List Byte} {slot sentinel : Byte} {t : List Byte} {r : List (List Byte)}
    {m : Memory} (hlen : s.dev.len = pre.length + 1 + d.length + q.length + 1) (hq : segments q = t :: r)
    (hm : Buffered s.mem m s.dev.src (pre ++ slot :: (d ++ q ++ [sentinel]))) :
    s.Scans ((ipWalk sentinel slot ((d ++ t) :: r)).1, pre ++ (ipWalk sentinel slot ((d ++ t) :: r)).2) (q.length + 2)
      pre.length (pre.length + 1 + d.length) m := by
  induction q generalizing pre d slot t r m with
  | nil =>
    obtain ⟨rfl, rfl⟩ := List.cons.inj hq
    rw [List.append_nil] at hm ⊢
    exact scans_end hd hsched hext hc hlen hm
  | cons x q ih =>
    rw [List.length_cons] at hlen
    have hsplit : pre ++ slot :: (d ++ x :: q ++ [sentinel]) = (pre ++ slot :: d) ++ x :: (q ++ [sentinel]) := by simp
    have hat : (pre ++ slot :: d).length = pre.length + 1 + d.length := by simp; omega
    have hread := (hsplit ▸ hm).read
    rw [hat] at hread
    have hrd : pre.length + 1 + d.length < s.dev.len - 1 := by omega
    have hsrc := reaches_of_buffer hext hc (i := pre.length + 1 + d.length) (by omega)
    by_cases hx : x = delim
    · subst hx
      rw [segments_delim_cons] at hq
      obtain ⟨rfl, rfl⟩ := List.cons.inj hq
      rw [List.append_nil]
      by_cases hfar : 255 ≤ d.length
      · have hstep := ipScan_of_far_zero
          (s := s.moved (s.dev.scanner .iScan pre.length (pre.length + 1 + d.length)) m) hrd hsrc hread
          (by show 255 < pre.length + 1 + d.length - pre.length; omega)
        refine ⟨1, _, runSteps_ipScan hd hsched hstep, by omega, ?_, ?_⟩
        · rw [ipWalk, if_pos hfar]
          nofun
        · rw [ipWalk, if_pos hfar, flatMap_delim_cons_segments]
          exact .of_finish hm ..
      · have hoff : pre.length + 1 + d.length - pre.length = d.length + 1 := by omega
        have hcp := reaches_of_buffer hext hc (i := pre.length) (by omega)
        have hstep := ipScan_of_zero
          (s := s.moved (s.dev.scanner .iScan pre.length (pre.length + 1 + d.length)) m) hrd hsrc hread
          (by show pre.length + 1 + d.length - pre.length ≤ 255; omega) hcp
        rw [State.poke_moved hc] at hstep
        have hclose := hm.write (dmaOk_lt hcp.1) (BitVec.ofNat 8 (d.length + 1))
        rw [← hoff] at hclose
        obtain ⟨t, r, hs⟩ := List.exists_cons_of_ne_nil (segments_ne_nil q)
        have hrest := ih (pre := pre ++ BitVec.ofNat 8 (d.length + 1) :: d) (d := []) (slot := delim) (by simp; omega)
          hs (by simpa [hoff] using hclose)
        rw [List.nil_append, ← hs] at hrest
        have hbuf : pre ++ (BitVec.ofNat 8 (d.length + 1) :: d ++ (ipWalk sentinel delim (segments q)).2) =
            pre ++ BitVec.ofNat 8 (d.length + 1) :: d ++ (ipWalk sentinel delim (segments q)).2 := by simp
        rw [ipWalk, if_neg hfar, hbuf]
        have hrun : runSteps 1 (s.moved (s.dev.scanner .iScan pre.length (pre.length + 1 + d.length)) m) =
            .next (s.moved (s.dev.scanner .iScan (pre.length + 1 + d.length) (pre.length + 1 + d.length + 1))
              (m.write (s.dev.src + pre.length) (BitVec.ofNat 8 (d.length + 1)))) := by
          rw [runSteps_ipScan hd hsched hstep, ← hoff]
          rfl
        have hat' : (pre ++ BitVec.ofNat 8 (d.length + 1) :: d).length = pre.length + 1 + d.length := by simp; omega
        rw [hat'] at hrest
        exact .of_step hrun hrest
    · obtain ⟨t', r', hq', hxq⟩ := segments_cons_of_ne_delim hx q
      obtain ⟨rfl, rfl⟩ := List.cons.inj (hq.symm.trans hxq)
      have hstep := ipScan_of_data
        (s := s.moved (s.dev.scanner .iScan pre.length (pre.length + 1 + d.length)) m) hrd hsrc
        (hread.trans_ne hx)
      have hrest := ih (pre := pre) (d := d ++ [x]) (slot := slot) (by simp; omega) hq' (by simpa using hm)
      have hrun : runSteps 1 (s.moved (s.dev.scanner .iScan pre.length (pre.length + 1 + d.length)) m) =
          .next (s.moved (s.dev.scanner .iScan pre.length (pre.length + 1 + d.length + 1)) m) :=
        runSteps_ipScan hd hsched hstep
      exact .of_step hrun (by simpa [Nat.add_assoc] using hrest)

end Run

/-- Settles O49: from CHECK the machine is at the scan's start, and the walk and the scan go on together. -/
theorem inPlaceCommandRun : Obligations.InPlaceCommandRun := by
  unfold Obligations.InPlaceCommandRun
  rintro s r hd hsched hph hwf hc ⟨hlen, hext⟩ hfirst hlast rfl
  have hgo : s.dev.ph ≠ .idle := by simp [hph]
  have hreach {i : Nat} (hi : i < s.dev.len) := reaches_of_buffer hext hc hi
  have hend : s.dev.src + s.dev.len - 1 = s.dev.src + (s.dev.len - 1) := by omega
  have hcheck : engineStep s = .next (s.moved (s.dev.scanner .iScan 0 1) s.mem) := by
    rw [engineStep_of_decode hgo hd]
    exact (ipStep_check hph).trans (ipCheck_of_sentinels ⟨hlen, hext⟩ (hreach (i := 0) (by omega))
      (hend ▸ hreach (by omega)) hfirst hlast)
  have hpayload := s.mem.bytes_length (s.dev.src + 1) (s.dev.len - 2)
  have hbuf : s.mem.bytes s.dev.src s.dev.len =
      s.plat.sentinel :: (s.mem.bytes (s.dev.src + 1) (s.dev.len - 2) ++ [s.plat.sentinel]) := by
    have hsplit : s.dev.len = s.dev.len - 2 + 1 + 1 := by omega
    have hat : s.dev.src + 1 + (s.dev.len - 2) = s.dev.src + s.dev.len - 1 := by omega
    conv_lhs => rw [hsplit]
    rw [Memory.bytes_succ, Memory.bytes_snoc, hfirst, hat, hlast]
  obtain ⟨t, r, hs⟩ := List.exists_cons_of_ne_nil (segments_ne_nil (s.mem.bytes (s.dev.src + 1) (s.dev.len - 2)))
  have hstart : Buffered s.mem s.mem s.dev.src
      (s.plat.sentinel :: (s.mem.bytes (s.dev.src + 1) (s.dev.len - 2) ++ [s.plat.sentinel])) := by
    rw [← hbuf]
    exact ⟨hwf, by rw [Memory.bytes_length], fun _ _ => rfl⟩
  obtain ⟨k, u, hrun, hk, hok, hends⟩ := scans_walk hd hsched hext hc
    (s.mem.bytes (s.dev.src + 1) (s.dev.len - 2)) (pre := []) (d := []) (by simp; omega) hs hstart
  rw [List.nil_append, ← hs] at hok hends
  obtain ⟨hview, hbuffered, hframe⟩ := hends
  have hwalk : (inPlaced s.plat.sentinel (s.mem.bytes (s.dev.src + 1) (s.dev.len - 2))).2.length = s.dev.len := by
    rw [inPlaced, ipWalk_length, flatMap_delim_cons_segments, List.length_cons, hpayload]
    omega
  refine ⟨1 + k, u, runSteps_trans (runSteps_one hsched hgo hcheck) hrun, by omega, fun h => ?_, hview, ?_, ?_, hframe⟩
  · have := hok h
    omega
  · exact hbuffered.bytes_of_length hwalk
  · exact hbuffered.outside_of_length hwalk

end Sys2Proof.Machine
end

section
/-! SUPPORT. Extents on addresses, and blocks that stay apart (20_memory.md rules R65, R77; 70_reset_and_hazards.md rule
R256). -/

namespace Sys2Proof.Machine

/-- Two ranges that are not disjoint share the higher of their bases. -/
theorem disjoint_iff_no_shared (a n b m : Nat) :
    disjoint a n b m = true ↔ ∀ x, ¬(a ≤ x ∧ x < a + n ∧ b ≤ x ∧ x < b + m) := by
  rw [disjoint_iff]
  refine ⟨fun h x => by omega, fun h => ?_⟩
  have hmax := h (max a b)
  omega

theorem Region.not_meets_iff (r q : Region) : r.meets q = false ↔ ∀ a, r.has a = true → q.has a = false := by
  refine ⟨fun h a ha => Region.not_has_of_not_meets h ha, fun h => ?_⟩
  rw [Region.meets, Bool.not_eq_false', disjoint_iff_no_shared]
  rintro x ⟨hr, hr', hq, hq'⟩
  exact Bool.false_ne_true ((h x ((Region.has_iff r x).2 ⟨hr, hr'⟩)).symm.trans ((Region.has_iff q x).2 ⟨hq, hq'⟩))

theorem extentOk_iff (p : Platform) (base n : Nat) : extentOk p base n = true ↔
    n = 0 ∨ (base + n ≤ addrSpace ∧ ∀ h ∈ p.dmaHoles, Region.meets ⟨base, n⟩ h = false) := by
  simp [extentOk]

/-- Settles O22: both say that no address of the extent lies in a hole. -/
theorem extentOkTestsEveryAddress : Obligations.ExtentOkTestsEveryAddress := by
  unfold Obligations.ExtentOkTestsEveryAddress
  intro p base n
  rw [extentOk_iff]
  refine or_congr_right (and_congr_right fun hle => ?_)
  change base + n ≤ 2 ^ 32 at hle
  constructor
  · intro h i hi
    refine (dmaOk_iff p _).2 ⟨by unfold addrSpace; omega, fun q hq => ?_⟩
    exact (Region.not_meets_iff ⟨base, n⟩ q).1 (h q hq) _
      ((Region.has_iff _ _).2 ⟨by simp, by simpa using hi⟩)
  · intro h q hq
    refine (Region.not_meets_iff ⟨base, n⟩ q).2 fun a ha => ?_
    obtain ⟨hl, hu⟩ := (Region.has_iff _ _).1 ha
    obtain ⟨i, rfl⟩ := Nat.exists_eq_add_of_le hl
    obtain ⟨-, hholes⟩ := (dmaOk_iff p _).1 (h i (Nat.lt_of_add_lt_add_left hu))
    exact hholes q hq

/-- Settles O23. -/
theorem disjointSharesNoAddress : Obligations.DisjointSharesNoAddress := by
  unfold Obligations.DisjointSharesNoAddress
  exact fun a n b m => ⟨disjoint_iff a n b m, disjoint_iff_no_shared a n b m⟩

/-- Two blocks conflict exactly when they share an address one of them writes (rule R256). -/
theorem Block.not_conflicts_iff (b c : Block) : b.conflicts c = false ↔
    ∀ a, (b.outExtent.has a = true → c.touches a = false) ∧ (b.touches a = true → c.outExtent.has a = false) := by
  simp only [Block.conflicts, Bool.or_eq_false_iff, Region.not_meets_iff, Block.touches, Bool.or_eq_true]
  exact ⟨fun ⟨⟨hoi, hoo⟩, hio⟩ a => ⟨fun ha => ⟨hoi a ha, hoo a ha⟩, fun ha => ha.elim (hio a) (hoo a)⟩,
    fun h => ⟨⟨fun a ha => ((h a).1 ha).1, fun a ha => ((h a).1 ha).2⟩, fun a ha => (h a).2 (.inl ha)⟩⟩

/-- Settles O17: of the answers of a write to `CMD`, only the refusal has such an address. -/
theorem sharedExtentRefused : Obligations.SharedExtentRefused := by
  unfold Obligations.SharedExtentRefused
  rintro s v c hidle hc hbusy ⟨a, ha⟩
  rw [writeRegister_cmd]
  rcases writeCmd_cases s v with ⟨hb, -⟩ | ⟨-, -, h⟩ | ⟨-, hapart, -⟩
  · simp [hidle] at hb
  · exact h
  · obtain ⟨hout, htouch⟩ := (Block.not_conflicts_iff _ c).1 (hapart c hc hbusy) a
    rcases ha with ⟨h₁, h₂⟩ | ⟨h₁, h₂⟩
    · simp [hout h₁] at h₂
    · simp [htouch h₁] at h₂

/-- Two blocks are apart: not both busy, or without a conflict (rule R256). -/
def Block.apartFrom (b c : Block) : Prop := b.busy = true → c.busy = true → b.conflicts c = false

theorem Block.apartFrom_symm {b c : Block} (h : b.apartFrom c) : c.apartFrom b :=
  fun hc hb => (c.conflicts_comm b).trans (h hb hc)

/-- The block in focus, apart from each other, and the others among themselves. -/
theorem State.apart_iff (s : State) :
    s.apart ↔ (∀ c ∈ s.others, s.dev.apartFrom c) ∧ s.others.Pairwise Block.apartFrom :=
  (List.pairwise_middle (R := Block.apartFrom) Block.apartFrom_symm).trans List.pairwise_cons

/-- After a change the block is not busy, or was so before, with the same extents. -/
def Block.KeepsExtents (b c : Block) : Prop :=
  c.busy = true → b.busy = true ∧ c.inExtent = b.inExtent ∧ c.outExtent = b.outExtent

theorem Block.KeepsExtents.apartFrom {b b' c c' : Block} (hb : b.KeepsExtents b') (hc : c.KeepsExtents c')
    (h : b.apartFrom c) : b'.apartFrom c' := by
  intro hb' hc'
  obtain ⟨hbusy, hin, hout⟩ := hb hb'
  obtain ⟨hbusy', hin', hout'⟩ := hc hc'
  have := h hbusy hbusy'
  simpa only [Block.conflicts, hin, hout, hin', hout'] using this

theorem Block.KeepsExtents.refl (b : Block) : b.KeepsExtents b := fun h => ⟨h, rfl, rfl⟩

theorem Block.EngineMove.keepsExtents {b c : Block} (h : b.EngineMove c) : b.KeepsExtents c := by
  intro hc
  cases h with
  | work => exact ⟨hc, rfl, rfl⟩
  | finish r => simp at hc
  | finishLen wr r n => simp at hc

theorem Block.writeReg_keepsExtents (b : Block) (off : Nat) (v : Word) : b.KeepsExtents (b.writeReg off v) := by
  intro hc
  have hb : b.busy = true := (b.writeReg_running off v).1 ▸ hc
  refine ⟨hb, ?_⟩
  by_cases hs : off = 0x04
  · subst hs; exact ⟨rfl, rfl⟩
  · by_cases hctrl : off = 0x08
    · subst hctrl; exact ⟨rfl, rfl⟩
    · rw [Block.writeReg_of_busy hb v hs hctrl]; exact ⟨rfl, rfl⟩

/-- Blocks that keep their extents stay apart. -/
theorem pairwise_apartFrom_of_keepsExtents {l l' : List Block} (h : List.Forall₂ Block.KeepsExtents l l')
    (hl : l.Pairwise Block.apartFrom) : l'.Pairwise Block.apartFrom := by
  rw [List.pairwise_iff_getElem] at hl ⊢
  intro i j hi hj hij
  have hlen := h.length_eq
  exact (h.get (hlen ▸ hi) hi).apartFrom (h.get (hlen ▸ hj) hj) (hl i j (hlen ▸ hi) (hlen ▸ hj) hij)

theorem State.Refocused.apart {s u : State} (hu : s.Refocused u) (h : s.apart) : u.apart := by
  unfold State.apart
  rw [hu.blocks]
  exact h

theorem State.apart_of_keepsExtents {s t : State} (h : s.apart) (hl : t.left = s.left) (hr : t.right = s.right)
    (hd : s.dev.KeepsExtents t.dev) : t.apart :=
  pairwise_apartFrom_of_keepsExtents (State.blocks_forall₂ Block.KeepsExtents.refl hl hr hd) h

/-- Acceptance keeps the blocks apart: that is what it tests (rule R256). -/
theorem State.apart.accept {s : State} (h : s.apart) {v : Word}
    (hnew : ∀ c ∈ s.others, c.busy = true → (s.accept v).dev.conflicts c = false) : (s.accept v).apart :=
  (State.apart_iff _).2 ⟨fun c hc _ hbusy => hnew c hc hbusy, ((State.apart_iff s).1 h).2⟩

theorem State.apart.writeRegister {s t : State} (h : s.apart) {off : Nat} {v : Word}
    (hw : writeRegister s off v = .next t) : t.apart := by
  by_cases hoff : off = 0x00
  · subst hoff
    rw [writeRegister_cmd] at hw
    rcases writeCmd_cases s v with ⟨-, e⟩ | ⟨-, -, e⟩ | ⟨-, hnew, e⟩
    · cases e.symm.trans hw; exact h
    · cases e.symm.trans hw
    · cases e.symm.trans hw; exact h.accept hnew
  · rw [writeRegister_of_ne_cmd s v hoff] at hw
    cases hw
    exact State.apart_of_keepsExtents h rfl rfl (s.dev.writeReg_keepsExtents off v)

theorem State.apart_of_idle {s : State} (h : ∀ b ∈ s.blocks, b.busy = false) : s.apart :=
  List.pairwise_of_forall_mem_list fun b hb _ _ hbusy => by simp [h b hb] at hbusy

/-- Settles O18: only acceptance makes a block busy or changes a busy block's extents, and it tests them. -/
theorem busyBlocksStayApart : Obligations.BusyBlocksStayApart := by
  unfold Obligations.BusyBlocksStayApart
  intro s t h hstep
  cases step_cases hstep with
  | engine hu he =>
    have hf := engineStep_frame he
    exact State.apart_of_keepsExtents (hu.apart h) hf.left hf.right hf.dev.keepsExtents
  | regWrite hu off v hw => exact (hu.apart h).writeRegister hw
  | regRead hu off => exact hu.apart h
  | memRead hu a hr =>
    unfold State.apart
    rw [hostMemRead_blocks hr]
    exact hu.apart h
  | memWrite hu a v hw =>
    unfold State.apart
    rw [hostMemWrite_blocks hw]
    exact hu.apart h
  | maintain hu => exact hu.apart h
  | @reset u hu =>
    refine State.apart_of_idle fun b hb => ?_
    rw [State.resetAll_blocks] at hb
    obtain ⟨c, -, rfl⟩ := List.mem_map.1 hb
    rfl

/-- Settles O19: an engine step writes inside its command's output extent, which is apart. -/
theorem engineSparesOtherBlocks : Obligations.EngineSparesOtherBlocks := by
  unfold Obligations.EngineSparesOtherBlocks
  intro s t c a hinv hapart hstep hc hbusy ha
  obtain ⟨hdev, -⟩ := (State.apart_iff s).1 hapart
  by_cases hgo : s.dev.ph = .idle
  · rw [engineStep_idle hgo] at hstep
    cases hstep; rfl
  · refine engineStep_read_outside hinv hstep (Bool.eq_false_iff.2 fun hout => ?_)
    have hmine : s.dev.busy = true := hinv.dev.1.2 hgo
    obtain ⟨hspared, -⟩ := (Block.not_conflicts_iff _ c).1 (hdev c hc hmine hbusy) a
    simp [hspared hout] at ha

end Sys2Proof.Machine
end

section
/-! SUPPORT. What a step can answer, stops included, and the coherence bookkeeping (20_memory.md rule R72). -/

namespace Sys2Proof.Machine

/-- Everything a step of the machine can answer (rules R15, R251, R252, R240): `StepCase` with the stops. -/
inductive StepAnswer (s : State) : Host.Outcome State Fault Refusal → Prop
  | engine {u : State} (hu : s.Refocused u) : StepAnswer s (engineStep u)
  | regWrite {u : State} (hu : s.Refocused u) (off : Nat) (v : Word) : StepAnswer s (writeRegister u off v)
  | regRead {u : State} (hu : s.Refocused u) (off : Nat) : StepAnswer s (.next (u.observe (u.dev.readReg off)))
  | memRead {u : State} (hu : s.Refocused u) (a : Nat) : StepAnswer s (hostMemRead u a)
  | memWrite {u : State} (hu : s.Refocused u) (a : Nat) (v : Byte) : StepAnswer s (hostMemWrite u a v)
  | maintain {u : State} (hu : s.Refocused u) (rest : List Event) (h : s.schedule = .host .cacheMaintenance :: rest) :
      StepAnswer s (.next u.maintain)
  | reset {u : State} (hu : s.Refocused u) : StepAnswer s (.next u.resetAll)
  | fault (f : Fault) : StepAnswer s (.fault f)
  | narrow : StepAnswer s (.refused .narrowOrMisalignedRegisterAccess)

theorem engineStepOf_answer {s u : State} (hu : s.Refocused u) (k : Nat) : StepAnswer s (engineStepOf k u) := by
  unfold engineStepOf
  split
  · exact .fault _
  · next v hv => exact .engine (hu.trans (.of_focus hv))

theorem progress_answer (s : State) : StepAnswer s (progress s) := by
  have hs : s.Refocused s := .reschedule s s.schedule
  unfold progress
  split
  · exact .engine hs
  · next hi =>
    split
    · rw [← engineStep_idle (s := s) (by simpa [Block.enabled] using hi)]
      exact .engine hs
    · exact engineStepOf_answer hs _

theorem waitStep_answer {s u : State} (hu : s.Refocused u) (k : Nat) (rest : List Event) :
    StepAnswer s (waitStep k rest u) := by
  unfold waitStep
  split
  · exact .fault _
  · next v hv =>
    have hsv := hu.trans (.of_focus hv)
    split
    · exact .engine hsv
    · exact .regRead (hsv.trans (.reschedule v rest)) 0x04

theorem regAccess_answer {s u : State} (hu : s.Refocused u) (a width : Nat)
    {f : State → Nat → Host.Outcome State Fault Refusal}
    (hf : ∀ v off, s.Refocused v → StepAnswer s (f v off)) : StepAnswer s (regAccess u a width f) := by
  rcases regAccess_cases u a width f with ⟨-, e⟩ | ⟨k, v, -, hv, -, ⟨-, -, e⟩ | ⟨-, e⟩⟩
  · exact e ▸ .fault _
  · exact e ▸ hf v _ (hu.trans (.of_focus hv))
  · exact e ▸ .narrow

theorem step_answers (s : State) : StepAnswer s (step s) := by
  unfold step machineStep
  split
  · exact progress_answer s
  · exact engineStepOf_answer (.reschedule s _) _
  · next h rest hs =>
    have hu := State.Refocused.reschedule s rest
    cases h with
    | regRead a width => exact regAccess_answer hu a width fun v off hv => .regRead hv off
    | regWrite a width v => exact regAccess_answer hu a width fun u off hv => .regWrite hv off v
    | memRead a => exact .memRead hu a
    | memWrite a v => exact .memWrite hu a v
    | cacheMaintenance => exact .maintain hu rest hs
  · next rest _ => exact .reset (.reschedule s rest)
  · exact waitStep_answer (.reschedule s s.schedule) _ _

/-- Where host and engines see one memory, an engine step is not refused as incoherent (rule R72). -/
theorem engineStep_coherent {s : State} (hc : s.plat.hostCoherent = true) :
    engineStep s ≠ .refused .incoherentBuffers := by
  intro h
  rw [engineStep_eq_run] at h
  cases Plan.run_refused hc h

/-- Of the machine's steps the refusal as incoherent is an engine access's or a host read's (rule R72). -/
theorem step_coherent {s : State} (hc : s.plat.hostCoherent = true) : step s ≠ .refused .incoherentBuffers := by
  suffices ∀ o, StepAnswer s o → o ≠ .refused .incoherentBuffers from this _ (step_answers s)
  intro o ho
  cases ho with
  | engine hu => exact engineStep_coherent (hu.plat.symm ▸ hc)
  | @regWrite u hu off v =>
    unfold writeRegister
    split
    · rcases writeCmd_cases u v with ⟨-, e⟩ | ⟨-, -, e⟩ | ⟨-, -, e⟩ <;> rw [e] <;> nofun
    · nofun
  | @memRead u hu a =>
    have hcu : u.plat.hostCoherent = true := hu.plat.symm ▸ hc
    rcases hostMemRead_cases u a with
      ⟨-, e⟩ | ⟨-, -, e⟩ | ⟨-, -, -, e⟩ | ⟨-, -, -, hno, -⟩ | ⟨-, -, -, -, e⟩
    · rw [e]; nofun
    · rw [e]; nofun
    · rw [e]; nofun
    · cases hcu.symm.trans hno
    · rw [e]; nofun
  | @memWrite u hu a v =>
    rcases hostMemWrite_cases u a v with ⟨-, e⟩ | ⟨-, -, e⟩ | ⟨-, -, -, e⟩ | ⟨-, -, -, e⟩ <;> rw [e] <;> nofun
  | regRead | maintain | reset | fault | narrow => nofun

theorem hostMemRead_engineDirty {s t : State} {a : Nat} (h : hostMemRead s a = .next t) :
    t.engineDirty = s.engineDirty := by
  rcases hostMemRead_cases s a with
    ⟨-, e⟩ | ⟨-, -, e⟩ | ⟨-, -, -, e⟩ | ⟨-, -, -, -, -, e⟩ | ⟨-, -, -, -, e⟩
  · cases e.symm.trans h
  · cases e.symm.trans h
  · cases e.symm.trans h; rfl
  · cases e.symm.trans h
  · cases e.symm.trans h; rfl

theorem hostMemWrite_eq_next {s t : State} {a : Nat} {v : Byte} (h : hostMemWrite s a v = .next t) :
    t = { s with
      mem := s.mem.write a v
      hostDirty := if s.plat.hostCoherent then s.hostDirty else insertAddr a s.hostDirty } := by
  rcases hostMemWrite_cases s a v with ⟨-, e⟩ | ⟨-, -, e⟩ | ⟨-, -, -, e⟩ | ⟨-, -, -, e⟩ <;> cases e.symm.trans h
  rfl

/-- An engine's mark stays through every step but the host's maintenance (rule R72, log 10). -/
theorem step_keeps_marks {s t : State} {a : Nat} (h : step s = .next t)
    (hno : ∀ rest, s.schedule ≠ .host .cacheMaintenance :: rest) (ha : a ∈ s.engineDirty) : a ∈ t.engineDirty := by
  suffices ∀ o, StepAnswer s o → o = .next t → a ∈ t.engineDirty from this _ (step_answers s) h
  intro o ho he
  cases ho with
  | engine hu => exact (engineStep_stored he).marks a (hu.engineDirty.symm ▸ ha)
  | @regWrite u hu off v =>
    have ha : a ∈ u.engineDirty := hu.engineDirty.symm ▸ ha
    rcases writeRegister_eq_next he with rfl | ⟨-, -, rfl⟩
    · exact ha
    · exact ha
  | regRead hu | reset hu =>
    cases he
    exact hu.engineDirty.symm ▸ ha
  | memRead hu a => rwa [hostMemRead_engineDirty he, hu.engineDirty]
  | memWrite hu a v => rwa [hostMemWrite_eq_next he, hu.engineDirty]
  | maintain _ rest hs => exact absurd hs (hno rest)
  | fault | narrow => cases he

theorem State.busyWrites_eq_false {s : State} {a : Nat} :
    s.busyWrites a = false ↔ ∀ b ∈ s.blocks, b.busy = true → b.outExtent.has a = false := by
  simp [State.busyWrites]

theorem State.busyWrites_eq_true {s : State} {a : Nat} :
    s.busyWrites a = true ↔ ∃ b ∈ s.blocks, b.busy = true ∧ b.outExtent.has a = true := by
  simp [State.busyWrites]

theorem State.busyTouches_eq_false {s : State} {a : Nat} : s.busyTouches a = false ↔
    ∀ b ∈ s.blocks, b.busy = true → b.inExtent.has a = false ∧ b.outExtent.has a = false := by
  simp [State.busyTouches, Block.touches]

theorem State.busyTouches_eq_true {s : State} {a : Nat} : s.busyTouches a = true ↔
    ∃ b ∈ s.blocks, b.busy = true ∧ (b.inExtent.has a = true ∨ b.outExtent.has a = true) := by
  simp [State.busyTouches, Block.touches]

section Read

variable {s : State} {a : Nat} (hw : s.inWindow a = false) (ha : a < addrSpace)
include hw ha

theorem hostMemRead_of_busyWrites (h : s.busyWrites a = true) : hostMemRead s a =
    .next { s with observed := (Config.freeByte s.draws).setWidth 32 :: s.observed, draws := s.draws + 1 } := by
  simp [hostMemRead, hw, ha.not_ge, h, State.observe]

theorem hostMemRead_of_marked (h : s.busyWrites a = false) (hc : s.plat.hostCoherent = false)
    (hm : s.engineDirty.contains a = true) : hostMemRead s a = .refused .incoherentBuffers := by
  simp [hostMemRead, hw, ha.not_ge, h, hc, List.contains_iff_mem.1 hm]

theorem hostMemRead_of_visible (h : s.busyWrites a = false)
    (hm : s.plat.hostCoherent = true ∨ s.engineDirty.contains a = false) :
    hostMemRead s a = .next { s with observed := (s.mem.read a).setWidth 32 :: s.observed } := by
  have hvisible : (!s.plat.hostCoherent && s.engineDirty.contains a) = false := by
    rcases hm with hm | hm
    · rw [hm]; rfl
    · rw [hm, Bool.and_false]
  simp only [hostMemRead, hw, ha.not_ge, h, hvisible, State.observe, Bool.false_eq_true, if_false]

end Read

/-- Maintenance leaves no mark where no running command writes (rules R72, R76). -/
theorem State.maintain_unmarked {s : State} {a : Nat} (h : s.busyWrites a = false) :
    s.maintain.engineDirty.contains a = false := by
  simp [State.maintain, h]

/-- Settles O20: the marks of both directions, and who clears them. -/
theorem incoherentBuffersRefused : Obligations.IncoherentBuffersRefused := by
  unfold Obligations.IncoherentBuffersRefused
  refine ⟨fun s hc => step_coherent hc, fun s t a x hc h v => ?_, fun s t a x hc h => ?_, fun s t a h hno ha => ?_,
    fun s a hc hm hw ha hfree => ?_⟩
  · have hdirty : (t.accept v).dev.unseen.contains a = true := by
      simp [hostMemWrite_eq_next h, State.accept, hc, mem_insertAddr]
    have hclean : (t.maintain.accept v).dev.unseen = [] := by
      show (if t.plat.hostCoherent then [] else []) = []
      exact ite_self _
    have hplat : t.plat = s.plat := by rw [hostMemWrite_eq_next h]
    refine ⟨hdirty, hclean, fun hok => ⟨?_, ?_⟩⟩
    · have hbad : (t.accept v).incoherentAt a = true := by
        unfold State.incoherentAt
        rw [hdirty, show (t.accept v).plat = s.plat from hplat, hc]
        rfl
      simp only [memRead, show (t.accept v).plat = s.plat from hplat, hok, hbad]
      rfl
    · refine memRead_of_reaches ⟨hplat.symm ▸ hok, ?_⟩
      rw [State.incoherentAt, hclean]
      exact Bool.and_false _
  · obtain ⟨-, -, rfl⟩ := memWrite_eq_next.1 h
    simp [State.poke, hc, mem_insertAddr]
  · exact List.contains_iff_mem.2 (step_keeps_marks h hno (List.contains_iff_mem.1 ha))
  · have hfree := State.busyWrites_eq_false.2 hfree
    exact ⟨hostMemRead_of_marked hw ha hfree hc hm,
      hostMemRead_of_visible (s := s.maintain) hw ha hfree (.inr (State.maintain_unmarked hfree))⟩

/-- Settles O16: the host's read and write, case by case over the address. -/
theorem hostMemoryAccess : Obligations.HostMemoryAccess := by
  unfold Obligations.HostMemoryAccess
  intro s a x hw
  refine ⟨fun ha => ?_, fun ha => ⟨fun h => ?_, fun h => ?_, fun h hvis => ?_, fun h => ?_⟩⟩
  · have ha : addrSpace ≤ a := ha
    exact ⟨by simp [hostStep, hostMemRead, hw, ha], by simp [hostStep, hostMemWrite, hw, ha]⟩
  · have ha : ¬addrSpace ≤ a := Nat.not_le.2 ha
    simp [hostStep, hostMemWrite, hw, ha, State.busyTouches_eq_true.2 h]
  · exact hostMemRead_of_busyWrites hw ha (State.busyWrites_eq_true.2 h)
  · exact hostMemRead_of_visible hw ha (State.busyWrites_eq_false.2 h) hvis
  · have ha : ¬addrSpace ≤ a := Nat.not_le.2 ha
    simp [hostStep, hostMemWrite, hw, ha, State.busyTouches_eq_false.2 h]

end Sys2Proof.Machine
end

section
/-! SUPPORT. What an engine step leaves of its block, family by family (10_state.md rules R36, R45, R89; 60_exceptions.md
rule R205). -/

namespace Sys2Proof.Machine

/-- What every engine step leaves of its block, `DST_CAP` written in phase `q` alone: `STATUS` changes only when the
command ends. -/
structure Block.StepFrame (q : Phase) (b c : Block) : Prop where
  eq : c = { b with
    rd := c.rd, wr := c.wr, cp := c.cp, code := c.code, cnt := c.cnt, zp := c.zp, ph := c.ph
    dstCap := if b.ph = q then c.dstCap else b.dstCap
    busy := if c.ph = .idle then c.busy else b.busy
    done := if c.ph = .idle then c.done else b.done
    result := if c.ph = .idle then c.result else b.result }
  finished : b.ph ≠ .idle → c.ph = .idle → c.busy = false ∧ c.done = true

namespace Block.StepFrame

variable {q : Phase} {b : Block}

theorem idle (h : b.ph = .idle) : b.StepFrame q b := ⟨by simp, fun hgo => absurd h hgo⟩

theorem work {ph : Phase} (h : ph ≠ .idle) (rd wr cp : Nat) (code cnt : Byte) (zp : Bool) :
    b.StepFrame q { b with ph := ph, rd := rd, wr := wr, cp := cp, code := code, cnt := cnt, zp := zp } :=
  ⟨by simp [h], fun _ hidle => absurd hidle h⟩

theorem finish (r : ResultCode) : b.StepFrame q (b.finish r) := ⟨by simp [Block.finish], fun _ _ => ⟨rfl, rfl⟩⟩

theorem finishLen (h : b.ph = q) (wr : Nat) (r : ResultCode) (n : Nat) :
    b.StepFrame q (Block.finishLen { b with wr := wr } r n) :=
  ⟨by simp [Block.finishLen, Block.finish, h], fun _ _ => ⟨rfl, rfl⟩⟩

end Block.StepFrame

/-- What a step of an encode command leaves of its block: `E.CNT` and `E.ZP`, and `DST_CAP` unless it ends in `OK`. -/
structure Block.EncoderKeeps (b c : Block) : Prop where
  frame : b.StepFrame .eFin c
  cnt : c.cnt = b.cnt
  zp : c.zp = b.zp
  cap : c.dstCap ≠ b.dstCap → c.ph = .idle ∧ c.result = .ok

theorem Block.EncoderKeeps.finish (b : Block) (r : ResultCode) : b.EncoderKeeps (b.finish r) :=
  ⟨.finish r, rfl, rfl, absurd rfl⟩

theorem encStep_keeps {k : Nat} {hp : Bool} {s t : State} (h : encStep k hp s = .next t) :
    s.dev.EncoderKeeps t.dev := by
  cases hph : s.dev.ph with
  | idle =>
    simp only [encStep, hph] at h
    cases h
    exact ⟨.idle hph, rfl, rfl, absurd rfl⟩
  | check =>
    rw [encStep_check hph] at h
    rcases encCheck_cases h with ⟨-, rfl⟩ | ⟨-, -, rfl⟩ | ⟨-, -, -, rfl⟩ | ⟨-, -, rfl⟩
    · exact .finish ..
    · exact .finish ..
    · exact .finish ..
    · exact ⟨.work (by decide) .., rfl, rfl, absurd rfl⟩
  | eRun =>
    rw [encStep_eRun hph] at h
    have hgo : s.dev.ph ≠ .idle := by simp [hph]
    rcases encRun_cases h with ⟨-, rfl⟩ | ⟨-, -, rfl⟩ | ⟨-, -, -, rfl⟩ | ⟨-, -, -, rfl⟩
    · exact ⟨.work (by decide) .., rfl, rfl, absurd rfl⟩
    · exact ⟨.work hgo .., rfl, rfl, absurd rfl⟩
    · exact ⟨.work hgo .., rfl, rfl, absurd rfl⟩
    · exact ⟨.work hgo .., rfl, rfl, absurd rfl⟩
  | eFin =>
    rw [encStep_eFin hph] at h
    rcases encFin_cases h with ⟨-, rfl⟩ | ⟨-, rfl⟩
    · exact ⟨.finishLen hph .., rfl, rfl, fun _ => ⟨rfl, rfl⟩⟩
    · exact ⟨.finishLen hph s.dev.wr .., rfl, rfl, fun _ => ⟨rfl, rfl⟩⟩
  | dCode | dCopy | iScan | iFin =>
    simp only [encStep, hph] at h
    cases h

/-- What a step of a decode command leaves of its block: `E.CP`, and `DST_CAP` unless it ends with a length. -/
structure Block.DecoderKeeps (strict : Bool) (b c : Block) : Prop where
  frame : b.StepFrame .dCode c
  cp : c.cp = b.cp
  cap : c.dstCap ≠ b.dstCap → c.ph = .idle ∧ (c.result = .ok ∨ c.result = .eofInInput ∧ strict = false)

theorem Block.DecoderKeeps.finish (strict : Bool) (b : Block) (r : ResultCode) : b.DecoderKeeps strict (b.finish r) :=
  ⟨.finish r, rfl, absurd rfl⟩

theorem decStep_keeps {strict hp : Bool} {s t : State} (h : decStep strict hp s = .next t) :
    s.dev.DecoderKeeps strict t.dev := by
  cases hph : s.dev.ph with
  | idle =>
    simp only [decStep, hph] at h
    cases h
    exact ⟨.idle hph, rfl, absurd rfl⟩
  | check =>
    rw [decStep_check hph] at h
    rcases decCheck_cases h with ⟨-, rfl⟩ | ⟨-, -, rfl⟩ | ⟨-, -, -, rfl⟩ | ⟨-, -, rfl⟩
    · exact .finish ..
    · exact .finish ..
    · exact .finish ..
    · exact ⟨.work (by decide) .., rfl, absurd rfl⟩
  | dCode =>
    rw [decStep_dCode hph] at h
    rcases decCode_cases h with
      ⟨-, rfl⟩ | ⟨-, -, -, rfl⟩ | ⟨-, -, hstrict, rfl⟩ | ⟨-, -, -, -, rfl⟩ | ⟨-, -, -, rfl⟩
    · exact ⟨.finishLen hph s.dev.wr .., rfl, fun _ => ⟨rfl, .inl rfl⟩⟩
    · exact .finish ..
    · exact ⟨.finishLen hph s.dev.wr .., rfl, fun _ => ⟨rfl, .inr ⟨rfl, hstrict⟩⟩⟩
    · exact .finish ..
    · exact ⟨.work (by decide) .., rfl, absurd rfl⟩
  | dCopy =>
    rw [decStep_dCopy hph] at h
    rcases decCopy_cases h with ⟨-, rfl⟩ | ⟨-, -, -, rfl⟩ | ⟨-, -, rfl⟩
    · exact ⟨.work (by simp [hph]) .., rfl, absurd rfl⟩
    · exact ⟨.work (by decide) .., rfl, absurd rfl⟩
    · exact ⟨.work (by decide) .., rfl, absurd rfl⟩
  | eRun | eFin | iScan | iFin =>
    simp only [decStep, hph] at h
    cases h

/-- What a step of ENCIP leaves of its block: all internal registers but the cursor and the code position, and
`DST_CAP`. -/
structure Block.InPlaceKeeps (b c : Block) : Prop where
  frame : b.StepFrame .idle c
  wr : c.wr = b.wr
  code : c.code = b.code
  cnt : c.cnt = b.cnt
  zp : c.zp = b.zp
  cap : c.dstCap = b.dstCap

theorem Block.InPlaceKeeps.finish (b : Block) (r : ResultCode) : b.InPlaceKeeps (b.finish r) :=
  ⟨.finish r, rfl, rfl, rfl, rfl, rfl⟩

theorem Block.InPlaceKeeps.work {b : Block} {ph : Phase} (h : ph ≠ .idle) (rd cp : Nat) :
    b.InPlaceKeeps { b with ph := ph, rd := rd, cp := cp } :=
  ⟨.work h .., rfl, rfl, rfl, rfl, rfl⟩

theorem ipStep_keeps {hp : Bool} {s t : State} (h : ipStep hp s = .next t) : s.dev.InPlaceKeeps t.dev := by
  cases hph : s.dev.ph with
  | idle =>
    simp only [ipStep, hph] at h
    cases h
    exact ⟨.idle hph, rfl, rfl, rfl, rfl, rfl⟩
  | check =>
    rw [ipStep_check hph] at h
    rcases ipCheck_cases h with
      ⟨-, rfl⟩ | ⟨-, -, rfl⟩ | ⟨-, -, -, rfl⟩ | ⟨-, -, -, rfl⟩ | ⟨-, -, -, -, rfl⟩
    · exact .finish ..
    · exact .finish ..
    · exact .finish ..
    · exact .finish ..
    · exact .work (by decide) ..
  | iScan =>
    rw [ipStep_iScan hph] at h
    have hgo : s.dev.ph ≠ .idle := by simp [hph]
    rcases ipScan_cases h with ⟨-, -, -, rfl⟩ | ⟨-, -, -, rfl⟩ | ⟨-, -, rfl⟩ | ⟨-, rfl⟩
    · exact .finish ..
    · exact .work hgo ..
    · exact .work hgo ..
    · exact .work (by decide) ..
  | iFin =>
    rw [ipStep_iFin hph] at h
    rcases ipFin_cases h with ⟨-, rfl⟩ | ⟨-, rfl⟩
    · exact .finish ..
    · exact .finish ..
  | eRun | eFin | dCode | dCopy =>
    simp only [ipStep, hph] at h
    cases h

/-- An idle block takes no step, whatever the command (rule R47). -/
theorem exec_idle {i : Instr} {s : State} (h : s.dev.ph = .idle) : exec i s = .next s := by
  rw [exec_eq_run, planOf_idle _ _ h]
  rfl

theorem exec_idle_eq {i : Instr} {s t : State} (h : exec i s = .next t) (hph : s.dev.ph = .idle) : t = s := by
  rw [exec_idle hph] at h
  cases h; rfl

theorem exec_encoder_keeps {i : Instr} (hi : i ∈ [Instr.enc, .encNohp, .encd, .encdNohp]) {s t : State}
    (h : exec i s = .next t) : s.dev.EncoderKeeps t.dev := by
  simp only [List.mem_cons, List.not_mem_nil, or_false] at hi
  rcases hi with rfl | rfl | rfl | rfl <;> exact encStep_keeps h

theorem exec_decoder_keeps {i : Instr} (hi : i ∈ [Instr.decs, .decsNohp, .decl, .declNohp]) {s t : State}
    (h : exec i s = .next t) : s.dev.DecoderKeeps (i == .decs || i == .decsNohp) t.dev := by
  simp only [List.mem_cons, List.not_mem_nil, or_false] at hi
  rcases hi with rfl | rfl | rfl | rfl <;> exact decStep_keeps h

theorem exec_inPlace_keeps {i : Instr} (hi : i ∈ [Instr.encip, .encipNohp]) {s t : State}
    (h : exec i s = .next t) : s.dev.InPlaceKeeps t.dev := by
  simp only [List.mem_cons, List.not_mem_nil, or_false] at hi
  rcases hi with rfl | rfl <;> exact ipStep_keeps h

/-- Settles O36. -/
theorem encoderFrame : Obligations.EncoderFrame := by
  unfold Obligations.EncoderFrame
  intro s t i hi h
  obtain ⟨⟨heq, hfin⟩, hcnt, hzp, -⟩ := exec_encoder_keeps hi h
  rw [hcnt, hzp] at heq
  exact ⟨(exec_stored h).read, (exec_stored h).frame, heq, hfin, exec_idle_eq h⟩

/-- Settles O37. -/
theorem decoderFrame : Obligations.DecoderFrame := by
  unfold Obligations.DecoderFrame
  intro s t i hi h
  obtain ⟨⟨heq, hfin⟩, hcp, -⟩ := exec_decoder_keeps hi h
  rw [hcp] at heq
  exact ⟨(exec_stored h).read, (exec_stored h).frame, heq, hfin, exec_idle_eq h⟩

/-- Settles O38. -/
theorem inPlaceFrame : Obligations.InPlaceFrame := by
  unfold Obligations.InPlaceFrame
  intro s t i hi h
  obtain ⟨⟨heq, hfin⟩, hwr, hcode, hcnt, hzp, hcap⟩ := exec_inPlace_keeps hi h
  rw [hwr, hcode, hcnt, hzp, hcap, ite_self] at heq
  exact ⟨(exec_stored h).read, (exec_stored h).frame, heq, hfin, exec_idle_eq h⟩

/-- Settles O39: `DST_CAP` changes in E_FIN and D_CODE alone, with the length of the result. -/
theorem capacityWrittenOnlyOnResult : Obligations.CapacityWrittenOnlyOnResult := by
  unfold Obligations.CapacityWrittenOnlyOnResult
  intro s t i h hcap
  cases i with
  | enc | encNohp | encd | encdNohp =>
    obtain ⟨hidle, hok⟩ := (encStep_keeps h).cap hcap
    exact ⟨hidle, nofun, nofun, .inl hok⟩
  | decs | decsNohp =>
    obtain ⟨hidle, hok | ⟨-, hstrict⟩⟩ := (decStep_keeps h).cap hcap
    · exact ⟨hidle, nofun, nofun, .inl hok⟩
    · cases hstrict
  | decl | declNohp =>
    obtain ⟨hidle, hok | ⟨heof, -⟩⟩ := (decStep_keeps h).cap hcap
    · exact ⟨hidle, nofun, nofun, .inl hok⟩
    · exact ⟨hidle, nofun, nofun, .inr ⟨heof, by simp⟩⟩
  | encip | encipNohp => exact absurd (ipStep_keeps h).cap hcap

end Sys2Proof.Machine
end

section
/-! SUPPORT. The size and the zeros of the encoded bytes (40_encode.md rules R105 to R108). -/

namespace Sys2Proof.Machine

/-- Induction over the groups of a segment: a short one, or a full group and the rest (rule R107). -/
theorem group_induction {P : List Byte → Prop} (short : ∀ s, s.length < 254 → P s)
    (full : ∀ t s, t.length = 254 → P s → P (t ++ s)) (s : List Byte) : P s := by
  by_cases h : s.length < 254
  · exact short s h
  · rw [← List.take_append_drop 254 s]
    exact full _ _ (by rw [List.length_take]; omega) (group_induction short full (s.drop 254))
termination_by s.length
decreasing_by rw [List.length_drop]; omega

theorem seg_length (s : List Byte) : (seg s).length = s.length + 1 + s.length / 254 := by
  induction s using group_induction with
  | short s h =>
    rw [seg_of_length_lt h, ipGroup, List.length_cons]
    omega
  | full t s ht ih =>
    rw [seg_append_of_full ht, List.length_cons, List.length_append, List.length_append, ih]
    omega

theorem ofNat_length_add_one_ne_zero {s : List Byte} (h : s.length < 254) : BitVec.ofNat 8 (s.length + 1) ≠ delim := by
  unfold delim
  bv_omega

/-- The code bytes are not zero (rule R106). -/
theorem not_mem_seg {s : List Byte} (h : delim ∉ s) : delim ∉ seg s := by
  induction s using group_induction with
  | short s hs =>
    rw [seg_of_length_lt hs, ipGroup, List.mem_cons, not_or]
    exact ⟨(ofNat_length_add_one_ne_zero hs).symm, h⟩
  | full t s ht ih =>
    obtain ⟨ht', hs⟩ := not_or.1 (mt List.mem_append.2 h)
    rw [seg_append_of_full ht, List.mem_cons, List.mem_append, not_or, not_or]
    exact ⟨by decide, ht', ih hs⟩

/-- No segment holds a zero (rule R105). -/
theorem not_mem_of_mem_segments {p s : List Byte} (h : s ∈ segments p) : delim ∉ s := by
  induction p generalizing s with
  | nil => simp [List.mem_singleton.1 h]
  | cons x p ih =>
    by_cases hx : x = delim
    · rw [hx, segments_delim_cons] at h
      rcases List.mem_cons.1 h with rfl | h
      · simp
      · exact ih h
    · obtain ⟨s', r, hs, hxs⟩ := segments_cons_of_ne_delim hx p
      rw [hxs] at h
      rcases List.mem_cons.1 h with rfl | h
      · have hs' := ih (hs ▸ List.mem_cons_self)
        rw [List.mem_cons, not_or]
        exact ⟨Ne.symm hx, hs'⟩
      · exact ih (hs ▸ List.mem_cons_of_mem _ h)

/-- A zero splits the payload (rule R105). -/
theorem two_le_length_segments {p : List Byte} (h : delim ∈ p) : 2 ≤ (segments p).length := by
  induction p with
  | nil => simp at h
  | cons x p ih =>
    by_cases hx : x = delim
    · have := List.length_pos_of_ne_nil (segments_ne_nil p)
      rw [hx, segments_delim_cons, List.length_cons]
      omega
    · obtain ⟨s, r, hs, hxs⟩ := segments_cons_of_ne_delim hx p
      have := ih ((List.mem_cons.1 h).resolve_left (Ne.symm hx))
      rw [hs] at this
      rwa [hxs]

/-- The full groups of the segments, 254 bytes each, fit in the payload without its zeros (rule R105). -/
theorem sum_full_groups (p : List Byte) :
    254 * ((segments p).map fun s => s.length / 254).sum + (segments p).length ≤ p.length + 1 := by
  rw [← sum_length_segments p]
  induction segments p with
  | nil => simp
  | cons s ss ih =>
    simp only [List.map_cons, List.sum_cons, List.length_cons]
    omega

theorem encoded_length (p : List Byte) {k : Nat} (hk : k = 1 ∨ k = 2) :
    (encoded p k).length = p.length + 1 + ((segments p).map fun s => s.length / 254).sum + (k - 1) := by
  have hsum : ((segments p).map fun s => (seg s).length).sum =
      ((segments p).map fun s => s.length + 1).sum + ((segments p).map fun s => s.length / 254).sum := by
    simp only [seg_length, List.sum_map_add]
  have htail : (if k = 2 then [delim] else []).length = k - 1 := by rcases hk with rfl | rfl <;> rfl
  rw [encoded, List.length_append, List.length_flatMap, hsum, sum_length_segments, htail]

theorem forall_ne_zero_iff (p : List Byte) : (∀ x ∈ p, x ≠ 0x00) ↔ delim ∉ p :=
  ⟨fun h hd => h _ hd rfl, fun h _ hx h0 => h (show (0x00 : Byte) ∈ p from h0 ▸ hx)⟩

/-- Settles O50: every segment costs a code byte for each 254 of its bytes and one more; equality with the needed
capacity leaves room for no zero. -/
theorem encodedSize : Obligations.EncodedSize := by
  unfold Obligations.EncodedSize
  intro p k hk
  have hlen := encoded_length p hk
  have hgroups := sum_full_groups p
  have hpos := List.length_pos_of_ne_nil (segments_ne_nil p)
  have hwhole (h : delim ∉ p) : ((segments p).map fun s => s.length / 254).sum = p.length / 254 := by
    simp [segments_of_not_mem_delim h]
  have hneed := needEnc_eq p.length k
  rw [forall_ne_zero_iff]
  refine ⟨hlen, by omega, le_needEnc _ _, ⟨fun h => ⟨fun hd => ?_, by omega⟩, fun ⟨hd, hmod⟩ => ?_⟩, fun hd => ?_⟩
  · have := two_le_length_segments hd
    omega
  · have := hwhole hd
    omega
  · have := hwhole hd
    omega

/-- Settles O51: segments hold no zero, and no code byte is one. -/
theorem noInteriorZero : Obligations.NoInteriorZero := by
  unfold Obligations.NoInteriorZero
  refine fun p => ⟨(forall_ne_zero_iff _).2 fun h => ?_, encoded_two p⟩
  rw [encoded, if_neg (by decide), List.append_nil, List.mem_flatMap] at h
  obtain ⟨s, hs, hd⟩ := h
  exact not_mem_seg (not_mem_of_mem_segments hs) hd

theorem segments_snoc_delim {p : List Byte} (h : delim ∉ p) : segments (p ++ [delim]) = [p, []] := by
  induction p with
  | nil => rfl
  | cons x p ih =>
    obtain ⟨hx, hp⟩ := not_or.1 (mt List.mem_cons.2 h)
    simp [segments, Ne.symm hx, ih hp]

/-- Settles O52: a full segment gets a fresh code byte, and so does the empty one after the zero. -/
theorem fullGroupBoundary : Obligations.FullGroupBoundary := by
  unfold Obligations.FullGroupBoundary
  intro p hlen hp
  have hp := (forall_ne_zero_iff p).1 hp
  have hfull : seg p = 0xFF :: p ++ [0x01] := by
    rw [seg_of_length_eq hlen, ipGroup, hlen]
    rfl
  have hempty : seg [] = [0x01] := rfl
  constructor
  · show encoded (p ++ [delim]) 1 = _
    simp [encoded, segments_snoc_delim hp, hfull, hempty]
  · simp [encoded, segments_of_not_mem_delim hp, hfull]

end Sys2Proof.Machine
end

section
/-! SUPPORT. The registers, reset, and which agent steps (10_state.md; 30_encoding.md rule R90; 70_reset_and_hazards.md
rules R240, R251, R252). -/

namespace Sys2Proof.Machine

theorem Block.writeReg_codecBase (b : Block) (off : Nat) (v : Word) : (b.writeReg off v).codecBase = b.codecBase := by
  fun_cases Block.writeReg b off v <;> rfl

theorem Block.EngineMove.codecBase {b c : Block} (h : b.EngineMove c) : c.codecBase = b.codecBase := by
  cases h <;> rfl

theorem hostMemRead_plat {s t : State} {a : Nat} (h : hostMemRead s a = .next t) : t.plat = s.plat := by
  rcases hostMemRead_cases s a with
    ⟨-, e⟩ | ⟨-, -, e⟩ | ⟨-, -, -, e⟩ | ⟨-, -, -, -, -, e⟩ | ⟨-, -, -, -, e⟩
  · cases e.symm.trans h
  · cases e.symm.trans h
  · cases e.symm.trans h; rfl
  · cases e.symm.trans h
  · cases e.symm.trans h; rfl

/-- No step changes a parameter of the platform (rule R9). -/
theorem step_plat {s t : State} (h : step s = .next t) : t.plat = s.plat := by
  cases step_cases h with
  | engine hu he => exact (engineStep_frame he).plat.trans hu.plat
  | regWrite hu off v hw =>
    rcases writeRegister_eq_next hw with rfl | ⟨-, -, rfl⟩
    · exact hu.plat
    · exact hu.plat
  | regRead hu off => exact hu.plat
  | memRead hu a hr => exact (hostMemRead_plat hr).trans hu.plat
  | memWrite hu a v hw =>
    rw [hostMemWrite_eq_next hw]
    exact hu.plat
  | maintain hu => exact hu.plat
  | reset hu => exact hu.plat

/-- Settles O40: no move of a block moves its window. -/
theorem platformIsConstant : Obligations.PlatformIsConstant := by
  unfold Obligations.PlatformIsConstant
  refine fun s t h => ⟨step_plat h, ?_⟩
  have hbases := step_blocks_forall₂ (R := fun b c => b.codecBase = c.codecBase) (fun _ => rfl)
    (fun _ _ hm => hm.codecBase.symm) (fun b off v => (b.writeReg_codecBase off v).symm) (fun _ _ _ _ => rfl)
    (fun _ => rfl) h
  rw [← List.forall₂_eq_eq_eq, List.forall₂_map_left_iff, List.forall₂_map_right_iff]
  exact hbases.flip.imp fun _ _ h => h.symm

/-- Bringing a block into focus does not depend on the schedule. -/
theorem State.focus_reschedule {s t : State} {k : Nat} (h : s.focus k = some t) (rest : List Event) :
    State.focus { s with schedule := rest } k = some { t with schedule := rest } := by
  unfold State.focus at h ⊢
  change (match s.blocks.drop k with | [] => none | b :: r => _) = _
  cases hd : s.blocks.drop k with
  | nil => simp [hd] at h
  | cons b r =>
    simp only [hd, Option.some.injEq] at h
    subst h
    rfl

/-- A scheduled engine step acts on the block it names (rule R251). -/
theorem step_engine {s t : State} {k : Nat} {rest : List Event} (hs : s.schedule = .engine k :: rest)
    (hk : s.focus k = some t) : step s = engineStep { t with schedule := rest } := by
  simp only [step, machineStep, hs, engineStepOf, State.focus_reschedule hk rest]

theorem step_wait {s t : State} {k : Nat} {rest : List Event} (hs : s.schedule = .wait k :: rest)
    (hk : s.focus k = some t) :
    step s = if t.dev.enabled then engineStep t else .next { t.observe t.dev.status with schedule := rest } := by
  simp only [step, machineStep, hs, waitStep, hk]

theorem Block.enabled_iff (b : Block) : b.enabled = true ↔ b.ph ≠ .idle := by simp [Block.enabled]

/-- Settles O1. -/
theorem stepRunsDecodedCommand : Obligations.StepRunsDecodedCommand := by
  unfold Obligations.StepRunsDecodedCommand
  intro s t i k rest hd hgo
  have hexec := engineStep_of_decode hgo hd
  refine ⟨?_, fun hs hk => ?_, fun hs hk => ?_⟩
  · rintro hs rfl
    rw [step_progress hs hgo, hexec]
  · rw [step_engine hs hk]
    exact engineStep_of_decode (s := { t with schedule := rest }) hgo hd
  · rw [step_wait hs hk, if_pos ((Block.enabled_iff _).2 hgo), hexec]

/-- Settles O2: an accepted word is in CHECK with nothing scheduled. -/
theorem fetchedWordRunsNext : Obligations.FetchedWordRunsNext := by
  unfold Obligations.FetchedWordRunsNext
  intro s w i hw hd
  have hcmd : (s.withFetchWord 32 w).dev.cmd = BitVec.ofNat 32 w := by
    show BitVec.ofNat 32 (w % 2 ^ 32) = _
    rw [Nat.mod_eq_of_lt hw]
  have hgo : (s.withFetchWord 32 w).dev.ph ≠ .idle := nofun
  exact ⟨(step_progress rfl hgo).trans (engineStep_of_decode hgo (hcmd ▸ hd)), rfl, hcmd⟩

/-- `STATUS` in numbers (rule R33). -/
theorem Block.status_toNat (b : Block) :
    b.status.toNat = b.busy.toNat + 2 * b.done.toNat + 16 * b.result.bits.toNat := by
  unfold Block.status
  generalize b.result.bits = r, b.done = d, b.busy = y
  revert r d y
  decide

/-- The fields of `STATUS` (rule R33). -/
theorem Block.status_bits (b : Block) : b.status.getLsbD 0 = b.busy ∧ b.status.getLsbD 1 = b.done ∧
    b.status.extractLsb' 2 2 = 0 ∧ b.status.extractLsb' 4 4 = b.result.bits ∧ b.status.extractLsb' 8 24 = 0 := by
  unfold Block.status
  generalize b.result.bits = r, b.done = d, b.busy = y
  revert r d y
  decide

/-- A write of one to bit 1 clears `DONE`, and no write sets it (rule R33). -/
theorem Block.writeStatus_eq (b : Block) (v : Word) :
    b.writeStatus v = { b with done := if v.getLsbD 1 then false else b.done } := by
  unfold Block.writeStatus
  cases v.getLsbD 1 <;> simp

/-- With `DONE` clear, a write to `STATUS` changes nothing (rule R33). -/
theorem Block.writeStatus_of_not_done {b : Block} (h : b.done = false) (v : Word) : b.writeStatus v = b := by
  rw [Block.writeStatus_eq, h, ite_self, ← h]

theorem writeRegister_status (s : State) (v : Word) :
    writeRegister s 0x04 v = .next (s.withDev (s.dev.writeStatus v)) := rfl

/-- Settles O7. -/
theorem finishWritesStatus : Obligations.FinishWritesStatus := by
  unfold Obligations.FinishWritesStatus
  intro s r n
  refine ⟨rfl, rfl, fun hn => ?_, ?_, rfl⟩
  · show (BitVec.ofNat 32 n).toNat = n
    rw [BitVec.toNat_ofNat, Nat.mod_eq_of_lt hn]
  · rw [Block.status_toNat]
    rfl

/-- Settles O8. -/
theorem statusFieldsWriteOneToClear : Obligations.StatusFieldsWriteOneToClear := by
  unfold Obligations.StatusFieldsWriteOneToClear
  refine ⟨fun b => ?_, fun s v => ?_, fun s v hinv hbusy => ?_⟩
  · exact ⟨rfl, b.status_bits⟩
  · rw [writeRegister_status, Block.writeStatus_eq]
    rfl
  · obtain ⟨-, hclear, -⟩ := hinv.dev
    rw [writeRegister_status, Block.writeStatus_of_not_done (hclear hbusy).1, State.withDev_dev_self]

/-- Settles O11: of the answers of a write to `CMD`, the acceptance. -/
theorem commandAcceptance : Obligations.CommandAcceptance := by
  unfold Obligations.CommandAcceptance
  intro s v hidle hapart
  rw [writeRegister_cmd]
  rcases writeCmd_cases s v with ⟨hb, -⟩ | ⟨-, ⟨c, hc, hbusy, hconflict⟩, -⟩ | ⟨-, -, h⟩
  · simp [hidle] at hb
  · cases hconflict.symm.trans (hapart c hc hbusy)
  · exact h

/-- Settles O13. -/
theorem argumentRegisters : Obligations.ArgumentRegisters := by
  unfold Obligations.ArgumentRegisters
  refine fun s v => ⟨rfl, rfl, rfl, rfl, rfl, fun hidle => ?_⟩
  simp [writeRegister, Block.writeReg, hidle, State.withDev]

/-- Settles O27. -/
theorem encoderFinalStep : Obligations.EncoderFinalStep := by
  unfold Obligations.EncoderFinalStep
  intro s hph hcp
  refine ⟨?_, fun hwr => ?_⟩
  · rw [exec_enc, encStep_eFin hph]
    exact encFin_one_of_reaches hcp
  · rw [exec_encd, encStep_eFin hph]
    exact encFin_two_of_reaches hcp hwr

/-- Settles O34. -/
theorem nullHandleFormsFinish : Obligations.NullHandleFormsFinish := by
  unfold Obligations.NullHandleFormsFinish
  intro s i hi hph
  refine exec_check_of_nullHandle hph ?_
  rcases hi with rfl | rfl | rfl | rfl | rfl <;> rfl

theorem encStep_foreign {k : Nat} {hp : Bool} {s : State} (h : s.dev.ph ∈ [Phase.dCode, .dCopy, .iScan, .iFin]) :
    encStep k hp s = .fault .phaseMismatch := by
  cases hph : s.dev.ph <;> simp [hph, encStep] at h ⊢

theorem decStep_foreign {strict hp : Bool} {s : State} (h : s.dev.ph ∈ [Phase.eRun, .eFin, .iScan, .iFin]) :
    decStep strict hp s = .fault .phaseMismatch := by
  cases hph : s.dev.ph <;> simp [hph, decStep] at h ⊢

theorem ipStep_foreign {hp : Bool} {s : State} (h : s.dev.ph ∈ [Phase.eRun, .eFin, .dCode, .dCopy]) :
    ipStep hp s = .fault .phaseMismatch := by
  cases hph : s.dev.ph <;> simp [hph, ipStep] at h ⊢

/-- Settles O35: family by family, a phase of another family, and the accesses' first test. -/
theorem stopsByName : Obligations.StopsByName := by
  unfold Obligations.StopsByName
  constructor
  · intro s i h
    rcases h with ⟨hi, hph⟩ | ⟨hi, hph⟩ | ⟨hi, hph⟩ <;>
      simp only [List.mem_cons, List.not_mem_nil, or_false] at hi
    · rcases hi with rfl | rfl | rfl | rfl <;> exact encStep_foreign hph
    · rcases hi with rfl | rfl | rfl | rfl <;> exact decStep_foreign hph
    · rcases hi with rfl | rfl <;> exact ipStep_foreign hph
  · intro s a v h
    exact ⟨by simp [memRead, h], by simp [memWrite, h]⟩

theorem Block.status_of_reset (base : Word) : (Block.reset base).status = 0 := by
  show (Block.reset 0).status = 0
  decide

theorem Block.ctrl_of_reset (base : Word) : (Block.reset base).ctrl = 0 := by
  show (Block.reset 0).ctrl = 0
  decide

/-- A block after reset holds the reset values (rule R50). -/
theorem Block.reset_values (base : Word) : (Block.reset base).cmd = 0 ∧ (Block.reset base).status = 0 ∧
    (Block.reset base).ctrl = 0 ∧ (Block.reset base).srcAddr = 0 ∧ (Block.reset base).srcLen = 0 ∧
    (Block.reset base).dstAddr = 0 ∧ (Block.reset base).dstCap = 0 ∧ (Block.reset base).irq = false ∧
    (Block.reset base).ph = .idle :=
  ⟨rfl, Block.status_of_reset base, Block.ctrl_of_reset base, rfl, rfl, rfl, rfl, rfl, rfl⟩

/-- Settles O41. -/
theorem resetEvent : Obligations.ResetEvent := by
  unfold Obligations.ResetEvent
  intro s rest hs
  have hstep : step s = .next { s.resetAll with schedule := rest } := by
    simp only [step, machineStep, hs]
  have hblocks : { s.resetAll with schedule := rest }.blocks = s.blocks.map fun b => Block.reset b.codecBase :=
    s.resetAll_blocks
  refine ⟨_, hstep, rfl, rfl, rfl, ?_, fun b hb => ?_⟩
  · rw [hblocks, List.map_map]
    rfl
  · rw [hblocks] at hb
    obtain ⟨c, -, rfl⟩ := List.mem_map.1 hb
    exact Block.reset_values _

theorem State.resetOn_blocks (p : Platform) (base : Word) (more : List Word) :
    (State.resetOn p base more).blocks = (base :: more).map Block.reset := rfl

/-- Settles O42. -/
theorem resetMeetsInvariant : Obligations.ResetMeetsInvariant := by
  unfold Obligations.ResetMeetsInvariant
  intro p base more
  have hall {b : Block} (hb : b ∈ (State.resetOn p base more).blocks) : ∃ base, b = Block.reset base := by
    rw [State.resetOn_blocks] at hb
    obtain ⟨c, -, rfl⟩ := List.mem_map.1 hb
    exact ⟨c, rfl⟩
  refine ⟨⟨⟨.nil, nofun⟩, fun b hb => ?_, fun _ => ⟨rfl, rfl⟩⟩, State.apart_of_idle fun b hb => ?_,
    ?_, fun b hb => ?_⟩
  · obtain ⟨base, rfl⟩ := hall hb
    exact Block.Inv.reset base
  · obtain ⟨base, rfl⟩ := hall hb
    rfl
  · rw [State.resetOn_blocks]
    simp
  · obtain ⟨base, rfl⟩ := hall hb
    exact Block.reset_values base

/-- Settles O59. -/
theorem idleTakesNoStep : Obligations.IdleTakesNoStep := by
  unfold Obligations.IdleTakesNoStep
  refine ⟨fun s hs hidle => ?_, fun s i hidle => ⟨engineStep_idle hidle, exec_idle hidle⟩,
    fun s t k rest hs hk hidle => ?_⟩
  · have hnone : s.blocks.findIdx? Block.enabled = none := by
      rw [List.findIdx?_eq_none_iff]
      exact fun b hb => by simp [Block.enabled, hidle b hb]
    have hdev : s.dev.enabled = false := by simp [Block.enabled, hidle s.dev (State.mem_blocks.2 (.inl rfl))]
    simp [step, machineStep, hs, progress, hdev, hnone]
  · rw [step_wait hs hk, if_neg (by simp [Block.enabled, hidle])]
    rfl

/-- An access that touches no window stops (rule R30, log 15). -/
theorem regAccess_of_no_window {s : State} {a width : Nat} (h : ∀ b ∈ s.blocks, b.windowTouched a width = false)
    (f : State → Nat → Host.Outcome State Fault Refusal) : regAccess s a width f = .fault .outsideWindow := by
  have hnone : s.blocks.findIdx? (fun b => b.windowTouched a width) = none := by
    rwa [List.findIdx?_eq_none_iff]
  simp only [regAccess, hnone]

/-- Settles O60. -/
theorem hostEventsTakeEffect : Obligations.HostEventsTakeEffect := by
  unfold Obligations.HostEventsTakeEffect
  have haligned {s t : State} {v : Word} {a k : Nat} (hk : s.blocks.findIdx? (fun b => b.windowTouched a 4) = some k)
      (ht : s.focus k = some t) (ha : a % 4 = 0) :
      hostStep (.regWrite a 4 v) s = writeRegister t (a - t.dev.codecBase.toNat) v ∧
      hostStep (.regRead a 4) s =
        .next { t with observed := t.dev.readReg (a - t.dev.codecBase.toNat) :: t.observed } :=
    ⟨regAccess_of_aligned hk ht ha fun u off => writeRegister u off v,
      regAccess_of_aligned hk ht ha fun u off => .next (u.observe (u.dev.readReg off))⟩
  refine ⟨fun s h rest hs => ?_, fun s t v a k => haligned, fun s v off hoff halign hbase hleft => ?_,
    fun s v a width hno => ?_, fun s => ⟨_, rfl, fun a => ?_⟩⟩
  · simp only [step, machineStep, hs]
  · have hk : s.blocks.findIdx? (fun b => b.windowTouched (s.dev.codecBase.toNat + off) 4) = some s.left.length := by
      have hdev : s.dev.windowTouched (s.dev.codecBase.toNat + off) 4 = true := by
        simp [Block.windowTouched, regWindow]; omega
      have hnone : s.left.findIdx? (fun b => b.windowTouched (s.dev.codecBase.toNat + off) 4) = none := by
        rwa [List.findIdx?_eq_none_iff]
      simp [State.blocks, List.findIdx?_append, hnone, List.findIdx?_cons, hdev]
    have hreg := haligned (v := v) hk s.focus_self (by omega)
    rwa [Nat.add_sub_cancel_left] at hreg
  · exact ⟨regAccess_of_no_window hno fun u off => .next (u.observe (u.dev.readReg off)),
      regAccess_of_no_window hno fun u off => writeRegister u off v⟩
  · rw [List.mem_filter, State.busyWrites_eq_true]

end Sys2Proof.Machine
end
